-- ==== Sys2Proof/Word.lean ====
section
/-! DEFINITION. The word types of the core: command and response words (R90, R98), bytes, and the complex
pairs of R11 in the number formats that have a register or a memory of their own. -/

namespace Sys2Proof

/-- A command or response word, `u64` (R10, R90). -/
abbrev Word := BitVec 64

/-- A byte (HSYM, PSYM, PENC, HDEC, PDEC entries, R60). -/
abbrev Byte := BitVec 8

/-- A list of exactly `n` bytes: the sized byte-list results of the collaborators (R290). -/
abbrev Bytes (n : Nat) := List.Vector Byte n

/-- An exact complex integer (R13). -/
structure Cx where
  re : Int
  im : Int
deriving DecidableEq, Repr, Inhabited

/-- `smp`, a pair of `sQ1.15` (R11): input sample, REF entry, WIN entry. -/
structure Smp where
  re : BitVec 16
  im : BitVec 16
deriving DecidableEq, Repr, Inhabited

/-- `dat`, a pair of `sQ6.18` (R11): internal sample, DL entry, symbol. -/
structure Dat where
  re : BitVec 24
  im : BitVec 24
deriving DecidableEq, Repr, Inhabited

/-- `coef`, `sQ2.14` (R11). -/
abbrev Coef := BitVec 16

/-- `trig`, `sQ2.16` (R11): one SINCOS lane. -/
abbrev Trig := BitVec 18

/-- The exact value of a sample pair. -/
def Smp.cx (x : Smp) : Cx := ⟨x.re.toInt, x.im.toInt⟩

/-- The exact value of a `dat` pair. -/
def Dat.cx (y : Dat) : Cx := ⟨y.re.toInt, y.im.toInt⟩

/-- `(0, 0)` as a sample. -/
def Smp.zero : Smp := ⟨0, 0⟩

/-- `(0, 0)` as a `dat`. -/
def Dat.zero : Dat := ⟨0, 0⟩

/-- What `MODEM` answers for one symbol (R293): the hard decision, the phase error and the squared error. -/
structure Demod where
  sym  : Byte
  perr : BitVec 32
  err2 : BitVec 32
deriving DecidableEq, Repr, Inhabited

end Sys2Proof
end

