-- ==== Sys2Proof/Syntax.lean ====
section
/-! DEFINITION. The commands, one constructor per row of the opcode map (R101), with the operand fields of their
format (R91 to R95), and the pseudo-instructions of R111. -/

namespace Sys2Proof

/-- A command (R101). The operand types carry the widths of the fields, so every term is a word's reading. -/
inductive Instr where
  /-- R122 -/
  | nop
  /-- R123 -/
  | init
  /-- R127 -/
  | srst
  /-- R128 -/
  | dstr
  /-- R130 -/
  | wrcfg (addr : BitVec 16) (data : BitVec 32)
  /-- R131; `re`, `im` are the halves of the data field (R97) -/
  | wrref (addr : BitVec 16) (re im : BitVec 16)
  /-- R132 -/
  | wrmf (bank tap : BitVec 8) (coef : BitVec 16)
  /-- R133 -/
  | wrdmf (bank tap : BitVec 8) (coef : BitVec 16)
  /-- R134 -/
  | rdreg (addr : BitVec 16)
  /-- R135 -/
  | rdref (addr : BitVec 16)
  /-- R136; `bank = addr[15:8]`, `tap = addr[7:0]` (R96) -/
  | rdmf (bank tap : BitVec 8)
  /-- R137 -/
  | rddmf (bank tap : BitVec 8)
  /-- R138 -/
  | rdhdr (addr : BitVec 16)
  /-- R139 -/
  | rdpay (addr : BitVec 16)
  /-- R245 -/
  | push (re im : BitVec 16)
deriving DecidableEq, Repr

/-- A pseudo-instruction (R111). -/
inductive Pseudo where
  /-- `EXEC (s0, ..., sn-1)`: a block of samples -/
  | exec (samples : List Smp)
  /-- `RESET` -/
  | reset
  /-- `CREATE` -/
  | create
  /-- `DESTROY` -/
  | destroy
  /-- `LOADREF (v0, ..., vn-1)` -/
  | loadref (samples : List Smp)
  /-- `LOADMF b, (c0, ..., cn-1)` -/
  | loadmf (bank : BitVec 8) (coefs : List Coef)
  /-- `LOADDMF b, (c0, ..., cn-1)` -/
  | loaddmf (bank : BitVec 8) (coefs : List Coef)
deriving DecidableEq, Repr

/-- `a 0 v0; a 1 v1; ...`: the indexed loads of R111. -/
def indexed {α : Type} (f : Nat → α → Instr) : Nat → List α → List Instr
  | _, [] => []
  | i, v :: vs => f i v :: indexed f (i + 1) vs

/-- The real commands a pseudo-instruction stands for (R111). -/
def Pseudo.expand : Pseudo → List Instr
  | .exec xs => xs.map fun x => .push x.re x.im
  | .reset => [.srst]
  | .create => [.init]
  | .destroy => [.dstr]
  | .loadref vs => indexed (fun i v => .wrref (BitVec.ofNat 16 i) v.re v.im) 0 vs
  | .loadmf b cs => indexed (fun j c => .wrmf b (BitVec.ofNat 8 j) c) 0 cs
  | .loaddmf b cs => indexed (fun j c => .wrdmf b (BitVec.ofNat 8 j) c) 0 cs

end Sys2Proof
end

