-- ==== Sys2Proof/WellFormed.lean ====
section
/-! DEFINITION. Which terms of the syntax stand for words. -/

namespace Sys2Proof

/-- Every command term is the reading of a word: the operand types have the widths of the fields, and R102 (c)
leaves no reserved field value inside an accepted word. -/
def Instr.wellFormed : Instr → Bool
  | .nop => true
  | .init => true
  | .srst => true
  | .dstr => true
  | .wrcfg _ _ => true
  | .wrref _ _ _ => true
  | .wrmf _ _ _ => true
  | .wrdmf _ _ _ => true
  | .rdreg _ => true
  | .rdref _ => true
  | .rdmf _ _ => true
  | .rddmf _ _ => true
  | .rdhdr _ => true
  | .rdpay _ => true
  | .push _ _ => true

/-- A pseudo-instruction is well formed when each index of its expansion fits the field that carries it: the
16-bit `addr` of WRREF, the 8-bit `tap` of WRMF and WRDMF (R93, R94). -/
def Pseudo.wellFormed : Pseudo → Bool
  | .exec _ => true
  | .reset => true
  | .create => true
  | .destroy => true
  | .loadref vs => vs.length ≤ 65536
  | .loadmf _ cs => cs.length ≤ 256
  | .loaddmf _ cs => cs.length ≤ 256

end Sys2Proof
end

