-- ==== Sys2Proof/Decode.lean ====
section
/-! DEFINITION. The decoder of R103, total over all words, and the encoder written from the same formats
(R91 to R95) and opcode map (R101). -/

namespace Sys2Proof

/-- Why a word is ILLEGAL (R102). -/
inductive DecodeError where
  /-- R102 (a): the opcode is not in the map -/
  | unassignedOpcode
  /-- R102 (b): an assigned opcode with a 1 in a reserved bit of its format -/
  | reservedBit
deriving DecidableEq, Repr

/-- The field `w[lo+len-1 : lo]` (R10). -/
def field (w : Word) (lo len : Nat) : BitVec len := w.extractLsb' lo len

/-- One row of the opcode map (R101). -/
structure OpRow where
  mnemonic : String
  opcode : BitVec 8
  mask : Word
  matchBits : Word
deriving DecidableEq, Repr

/-- The row of the opcode map a command belongs to (R101). -/
def Instr.row : Instr → OpRow
  | .nop => ⟨"NOP", 0x00, 0xFFFFFFFFFFFFFFFF, 0x0000000000000000⟩
  | .init => ⟨"INIT", 0x01, 0xFFFFFFFFFFFFFFFF, 0x0100000000000000⟩
  | .srst => ⟨"SRST", 0x02, 0xFFFFFFFFFFFFFFFF, 0x0200000000000000⟩
  | .dstr => ⟨"DSTR", 0x03, 0xFFFFFFFFFFFFFFFF, 0x0300000000000000⟩
  | .wrcfg _ _ => ⟨"WRCFG", 0x10, 0xFFFF000000000000, 0x1000000000000000⟩
  | .wrref _ _ _ => ⟨"WRREF", 0x11, 0xFFFF000000000000, 0x1100000000000000⟩
  | .wrmf _ _ _ => ⟨"WRMF", 0x12, 0xFFFF0000FFFF0000, 0x1200000000000000⟩
  | .wrdmf _ _ _ => ⟨"WRDMF", 0x13, 0xFFFF0000FFFF0000, 0x1300000000000000⟩
  | .rdreg _ => ⟨"RDREG", 0x18, 0xFFFF0000FFFFFFFF, 0x1800000000000000⟩
  | .rdref _ => ⟨"RDREF", 0x19, 0xFFFF0000FFFFFFFF, 0x1900000000000000⟩
  | .rdmf _ _ => ⟨"RDMF", 0x1A, 0xFFFF0000FFFFFFFF, 0x1A00000000000000⟩
  | .rddmf _ _ => ⟨"RDDMF", 0x1B, 0xFFFF0000FFFFFFFF, 0x1B00000000000000⟩
  | .rdhdr _ => ⟨"RDHDR", 0x1C, 0xFFFF0000FFFFFFFF, 0x1C00000000000000⟩
  | .rdpay _ => ⟨"RDPAY", 0x1D, 0xFFFF0000FFFFFFFF, 0x1D00000000000000⟩
  | .push _ _ => ⟨"PUSH", 0x20, 0xFFFFFFFF00000000, 0x2000000000000000⟩

/-- The complete opcode map (R101), in its order. -/
def opTable : List OpRow :=
  [ Instr.row .nop, Instr.row .init, Instr.row .srst, Instr.row .dstr, Instr.row (.wrcfg 0 0), Instr.row (.wrref 0 0 0),
    Instr.row (.wrmf 0 0 0), Instr.row (.wrdmf 0 0 0), Instr.row (.rdreg 0), Instr.row (.rdref 0), Instr.row (.rdmf 0 0),
    Instr.row (.rddmf 0 0), Instr.row (.rdhdr 0), Instr.row (.rdpay 0), Instr.row (.push 0 0) ]

/-- `w & mask = match` (R101). -/
def OpRow.accepts (r : OpRow) (w : Word) : Bool := w &&& r.mask == r.matchBits

/-- Answers the reading only where every reserved bit is 0 (R103). -/
def guardReserved (ok : Bool) (i : Instr) : Except DecodeError Instr :=
  if ok then .ok i else .error .reservedBit

/-- `decode(w)` (R103): the opcode selects the format, a set reserved bit or an unassigned opcode is ILLEGAL. -/
def decode (w : Word) : Except DecodeError Instr :=
  let z := field w 0 56 == 0
  let hi := field w 48 8 == 0
  let a := hi && field w 0 32 == 0
  let c := hi && field w 16 16 == 0
  let addr := field w 32 16
  let bank := field w 40 8
  let tap := field w 32 8
  let re := field w 16 16
  let im := field w 0 16
  match (field w 56 8).toNat with
  | 0x00 => guardReserved z .nop
  | 0x01 => guardReserved z .init
  | 0x02 => guardReserved z .srst
  | 0x03 => guardReserved z .dstr
  | 0x10 => guardReserved hi (.wrcfg addr (field w 0 32))
  | 0x11 => guardReserved hi (.wrref addr re im)
  | 0x12 => guardReserved c (.wrmf bank tap im)
  | 0x13 => guardReserved c (.wrdmf bank tap im)
  | 0x18 => guardReserved a (.rdreg addr)
  | 0x19 => guardReserved a (.rdref addr)
  | 0x1A => guardReserved a (.rdmf bank tap)
  | 0x1B => guardReserved a (.rddmf bank tap)
  | 0x1C => guardReserved a (.rdhdr addr)
  | 0x1D => guardReserved a (.rdpay addr)
  | 0x20 => guardReserved (field w 32 24 == 0) (.push re im)
  | _ => .error .unassignedOpcode

/-- Format Z (R91). -/
def encodeZ (op : BitVec 8) : Word := op ++ 0#56

/-- Format A (R92). -/
def encodeA (op : BitVec 8) (addr : BitVec 16) : Word := op ++ 0#8 ++ addr ++ 0#32

/-- Format W (R93). -/
def encodeW (op : BitVec 8) (addr : BitVec 16) (data : BitVec 32) : Word := op ++ 0#8 ++ addr ++ data

/-- Format C (R94). -/
def encodeC (op bank tap : BitVec 8) (coef : BitVec 16) : Word := op ++ 0#8 ++ bank ++ tap ++ 0#16 ++ coef

/-- Format S (R95). -/
def encodeS (op : BitVec 8) (re im : BitVec 16) : Word := op ++ 0#24 ++ re ++ im

/-- The one word of a command (R101). -/
def encode : Instr → Word
  | .nop => encodeZ 0x00
  | .init => encodeZ 0x01
  | .srst => encodeZ 0x02
  | .dstr => encodeZ 0x03
  | .wrcfg addr data => encodeW 0x10 addr data
  | .wrref addr re im => encodeW 0x11 addr (re ++ im)
  | .wrmf bank tap coef => encodeC 0x12 bank tap coef
  | .wrdmf bank tap coef => encodeC 0x13 bank tap coef
  | .rdreg addr => encodeA 0x18 addr
  | .rdref addr => encodeA 0x19 addr
  | .rdmf bank tap => encodeA 0x1A (bank ++ tap)
  | .rddmf bank tap => encodeA 0x1B (bank ++ tap)
  | .rdhdr addr => encodeA 0x1C addr
  | .rdpay addr => encodeA 0x1D addr
  | .push re im => encodeS 0x20 re im

/-- The instruction the decoder reads from the opcode table's bits: a command is one 64-bit word, carried whole
(R63 a), so bits above `nbits` are 0. -/
def decodeTableWord (nbits w : Nat) : Option Instr :=
  match decode (BitVec.ofNat 64 (w % 2 ^ nbits)) with
  | .ok i => some i
  | .error _ => none

end Sys2Proof
end

