-- ==== Sys2Proof/Config.lean ====
section
/-! DEFINITION. What is a parameter of the step function and not state (R8, R9, R20): the build-time sizes, the
two transcendental primitives, the collaborator functions and the power-on image of the loaded tables. The
collaborators and the image are free values: opaque constants with no body. -/

namespace Sys2Proof

/-- The arguments of the model that are not state (R9, R20). `Machine/Build.lean` gives the build the machine runs. -/
structure Params where
  /-- entries of REF and WIN (R8) -/
  nMax : Nat
  /-- largest number of polyphase filters (R8) -/
  npfbMax : Nat
  /-- largest sub-filter length (R8) -/
  tapsMax : Nat
  /-- entries of HSYM (R8) -/
  hsymMax : Nat
  /-- bytes of the header byte buffers (R8) -/
  hbufMax : Nat
  /-- physical limit of payload symbols (R8) -/
  paysymMax : Nat
  /-- physical limit of encoded payload bytes (R8) -/
  payencMax : Nat
  /-- physical limit of decoded payload bytes (R8) -/
  paydecMax : Nat
  /-- `SINCOS` (R16): cosine, sine -/
  sincos : BitVec 32 → Trig × Trig
  /-- `ARG` (R17) -/
  arg : Int → Int → BitVec 32
  /-- `MOD_SUPPORTED` (R291) -/
  modSupported : BitVec 5 → BitVec 4 → Bool
  /-- `CODEC_SUPPORTED` (R292) -/
  codecSupported : BitVec 3 → BitVec 5 → BitVec 5 → Bool
  /-- `MODEM` (R293) -/
  modem : BitVec 5 → BitVec 4 → Dat → Demod
  /-- `PKT_ENC_LEN` (R294) -/
  pktEncLen : BitVec 16 → BitVec 3 → BitVec 5 → BitVec 5 → BitVec 32
  /-- `PKT_DECODE` (R295): exactly `len` decoded bytes and the verdict -/
  pktDecode : List Byte → (len : BitVec 16) → BitVec 3 → BitVec 5 → BitVec 5 → Bytes len.toNat × Bool
  /-- `INTLV_DEPERMUTE` (R296): as many bytes out as in -/
  intlvDepermute : (n : Nat) → Bytes n → Bytes n
  /-- `HDR_FEC_DECODE` (R297): exactly `outlen` bytes -/
  hdrFecDecode : List Byte → (outlen : Nat) → Bytes outlen
  /-- `SCR_APPLY` (R298): as many bytes out as in -/
  scrApply : (n : Nat) → Bytes n → Bytes n
  /-- `CRC_VALIDATE` (R299): data, key -/
  crcValidate : List Byte → List Byte → Bool
  /-- The image `MEM0` of REF (U1): number of hardware resets so far, index -/
  mem0Ref : Nat → Nat → Smp
  /-- The image `MEM0` of MF (U1): number of hardware resets so far, bank, tap -/
  mem0Mf : Nat → Nat → Nat → Coef
  /-- The image `MEM0` of DMF (U1) -/
  mem0Dmf : Nat → Nat → Nat → Coef

/-- The bounds R8 puts on the sizes of any build. -/
abbrev Params.SizesOk (P : Params) : Prop :=
  P.nMax ≤ 65536 ∧ P.npfbMax ≤ 128 ∧ P.tapsMax ≤ 256 ∧ P.paysymMax < 2 ^ 32 - 1 ∧ P.payencMax < 2 ^ 32 - 1 ∧
    P.paydecMax ≤ 65535

/-- What R16 asks of every realization of `SINCOS`. -/
def Params.SincosOk (P : Params) : Prop :=
  P.sincos 0 = (65536, 0) ∧ P.sincos 0x40000000 = (0, 65536) ∧ P.sincos 0x80000000 = (-65536, 0) ∧
    P.sincos 0xC0000000 = (0, -65536) ∧
    ∀ theta, (P.sincos theta).1.toInt.natAbs ≤ 65536 ∧ (P.sincos theta).2.toInt.natAbs ≤ 65536

/-- What R17 asks of every realization of `ARG`. -/
def Params.ArgOk (P : Params) : Prop :=
  P.arg 0 0 = 0 ∧ (∀ x, 0 < x → P.arg x 0 = 0) ∧ (∀ x, x < 0 → P.arg x 0 = 0x80000000) ∧
    (∀ y, 0 < y → P.arg 0 y = 0x40000000) ∧ ∀ y, y < 0 → P.arg 0 y = 0xC0000000

/-! The free values (DESIGN CHOICE, log entries 5 and 10). Nothing in Lean can evaluate them: a statement about the
machine holds whatever they are. -/

/-- Free value: the modem's list of supported schemes (R291). -/
opaque Config.modSupported : BitVec 5 → BitVec 4 → Bool
/-- Free value: the packetizer's list of supported schemes (R292). -/
opaque Config.codecSupported : BitVec 3 → BitVec 5 → BitVec 5 → Bool
/-- Free value: the modem (R293). -/
opaque Config.modem : BitVec 5 → BitVec 4 → Dat → Demod
/-- Free value: the packetizer's encoded length (R294). -/
opaque Config.pktEncLen : BitVec 16 → BitVec 3 → BitVec 5 → BitVec 5 → BitVec 32
/-- Free value: the packetizer's decoder (R295). -/
opaque Config.pktDecode : List Byte → (len : BitVec 16) → BitVec 3 → BitVec 5 → BitVec 5 → Bytes len.toNat × Bool
/-- Free value: the header deinterleaver (R296). -/
opaque Config.intlvDepermute : (n : Nat) → Bytes n → Bytes n
/-- Free value: the header FEC decoder (R297). -/
opaque Config.hdrFecDecode : List Byte → (outlen : Nat) → Bytes outlen
/-- Free value: the scrambler (R298). -/
opaque Config.scrApply : (n : Nat) → Bytes n → Bytes n
/-- Free value: the header check (R299). -/
opaque Config.crcValidate : List Byte → List Byte → Bool
/-- Free value: REF after the given number of hardware resets (U1). -/
opaque Config.mem0Ref : Nat → Nat → Smp
/-- Free value: MF after the given number of hardware resets (U1). -/
opaque Config.mem0Mf : Nat → Nat → Nat → Coef
/-- Free value: DMF after the given number of hardware resets (U1). -/
opaque Config.mem0Dmf : Nat → Nat → Nat → Coef

end Sys2Proof
end

