-- ==== Sys2Proof/Machine/Arith.lean ====
section
/-! DEFINITION. The integer and complex primitives of R12 and R13: total functions on mathematical integers. -/

namespace Sys2Proof.Machine

/-- Arithmetic shift right, rounding toward minus infinity (R12). -/
def asr (v : Int) (n : Nat) : Int := v / 2 ^ n

/-- Round to nearest, ties toward plus infinity, for `n ≥ 1` (R12). -/
def rnd (v : Int) (n : Nat) : Int := (v + 2 ^ (n - 1)) / 2 ^ n

/-- Floor division, any signs (R12). -/
def fdiv (a b : Int) : Int := Int.fdiv a b

/-- Ceiling division of naturals (R12). -/
def ceildiv (a b : Nat) : Nat := (a + b - 1) / b

/-- `min hi (max lo v)` (R12). -/
def clamp (v lo hi : Int) : Int := min hi (max lo v)

/-- Signed saturation to `n` bits (R12). -/
def sat (n : Nat) (v : Int) : Int := min (2 ^ (n - 1) - 1) (max (-2 ^ (n - 1)) v)

/-- Unsigned saturation to `n` bits (R12). -/
def usat (n : Nat) (v : Int) : Int := min (2 ^ n - 1) (max 0 v)

/-- The number of bits of `|n|` (R12). -/
def bitlen (n : Int) : Nat := if n = 0 then 0 else n.natAbs.log2 + 1

/-- Sets, from bit `k - 1` down to bit 0, each bit of `r` that keeps the square at or below `n`. -/
def isqrtBits (n : Nat) : Nat → Nat → Nat
  | 0, r => r
  | k + 1, r => if (r + 2 ^ k) * (r + 2 ^ k) ≤ n then isqrtBits n k (r + 2 ^ k) else isqrtBits n k r

/-- The largest `r` with `r * r ≤ n` (R12). -/
def isqrt (n : Nat) : Nat := isqrtBits n (n.log2 / 2 + 1) 0

/-- `a + b` (R13). -/
def cadd (a b : Cx) : Cx := ⟨a.re + b.re, a.im + b.im⟩

/-- `a * conj(b)` (R13). -/
def cmulConj (a b : Cx) : Cx := ⟨a.re * b.re + a.im * b.im, a.im * b.re - a.re * b.im⟩

/-- `mag2(a)` (R13). -/
def mag2 (a : Cx) : Nat := (a.re * a.re + a.im * a.im).toNat

/-- A real factor on both lanes (R13). -/
def cscale (c : Int) (a : Cx) : Cx := ⟨c * a.re, c * a.im⟩

/-- Exact sum of `f 0 .. f (n - 1)`. -/
def csum (f : Nat → Cx) : Nat → Cx
  | 0 => ⟨0, 0⟩
  | n + 1 => cadd (csum f n) (f n)

/-- Exact sum of `f 0 .. f (n - 1)` over naturals. -/
def nsum (f : Nat → Nat) : Nat → Nat
  | 0 => 0
  | n + 1 => nsum f n + f n

/-- A lane shifted by `rnd` and saturated to the 24 bits of `dat`. -/
def toLane (v : Int) (n : Nat) : BitVec 24 := BitVec.ofInt 24 (sat 24 (rnd v n))

end Sys2Proof.Machine
end

