-- ==== Sys2Proof/Machine/Trig.lean ====
section
/-! DEFINITION. The default realizations of the two transcendental primitives: the quarter-wave table of
`SINCOS` (R16, U14) and the vectoring CORDIC of `ARG` with its scaling `ARGN` (R17). -/

namespace Sys2Proof.Machine

/-- `QW[0..63]` (U14). -/
def qwPart0 : List Nat :=
  [ 0, 402, 804, 1206, 1608, 2010, 2412, 2814, 3216, 3617, 4019, 4420, 4821, 5222, 5623, 6023,
    6424, 6824, 7224, 7623, 8022, 8421, 8820, 9218, 9616, 10014, 10411, 10808, 11204, 11600, 11996, 12391,
    12785, 13180, 13573, 13966, 14359, 14751, 15143, 15534, 15924, 16314, 16703, 17091, 17479, 17867, 18253, 18639,
    19024, 19409, 19792, 20175, 20557, 20939, 21320, 21699, 22078, 22457, 22834, 23210, 23586, 23961, 24335, 24708 ]

/-- `QW[64..127]` (U14). -/
def qwPart1 : List Nat :=
  [ 25080, 25451, 25821, 26190, 26558, 26925, 27291, 27656, 28020, 28383, 28745, 29106, 29466, 29824, 30182, 30538,
    30893, 31248, 31600, 31952, 32303, 32652, 33000, 33347, 33692, 34037, 34380, 34721, 35062, 35401, 35738, 36075,
    36410, 36744, 37076, 37407, 37736, 38064, 38391, 38716, 39040, 39362, 39683, 40002, 40320, 40636, 40951, 41264,
    41576, 41886, 42194, 42501, 42806, 43110, 43412, 43713, 44011, 44308, 44604, 44898, 45190, 45480, 45769, 46056 ]

/-- `QW[128..191]` (U14). -/
def qwPart2 : List Nat :=
  [ 46341, 46624, 46906, 47186, 47464, 47741, 48015, 48288, 48559, 48828, 49095, 49361, 49624, 49886, 50146, 50404,
    50660, 50914, 51166, 51417, 51665, 51911, 52156, 52398, 52639, 52878, 53114, 53349, 53581, 53812, 54040, 54267,
    54491, 54714, 54934, 55152, 55368, 55582, 55794, 56004, 56212, 56418, 56621, 56823, 57022, 57219, 57414, 57607,
    57798, 57986, 58172, 58356, 58538, 58718, 58896, 59071, 59244, 59415, 59583, 59750, 59914, 60075, 60235, 60392 ]

/-- `QW[192..256]` (U14). -/
def qwPart3 : List Nat :=
  [ 60547, 60700, 60851, 60999, 61145, 61288, 61429, 61568, 61705, 61839, 61971, 62101, 62228, 62353, 62476, 62596,
    62714, 62830, 62943, 63054, 63162, 63268, 63372, 63473, 63572, 63668, 63763, 63854, 63944, 64031, 64115, 64197,
    64277, 64354, 64429, 64501, 64571, 64639, 64704, 64766, 64827, 64884, 64940, 64993, 65043, 65091, 65137, 65180,
    65220, 65259, 65294, 65328, 65358, 65387, 65413, 65436, 65457, 65476, 65492, 65505, 65516, 65525, 65531, 65535,
    65536 ]

/-- `QW[0..256]` (U14). -/
def qwTable : List Nat := qwPart0 ++ qwPart1 ++ qwPart2 ++ qwPart3

/-- `QW[j]`. -/
def qw (j : Nat) : Int := (qwTable.getD j 0 : Nat)

/-- The default `SINCOS` (R16): `(cos, sin)` from the top ten bits of the phase. -/
def sincosDefault (theta : BitVec 32) : Trig × Trig :=
  let i := theta.toNat / 2 ^ 22
  let r := i % 256
  let lanes : Int × Int :=
    match i / 256 with
    | 0 => (qw (256 - r), qw r)
    | 1 => (-qw r, qw (256 - r))
    | 2 => (-qw (256 - r), -qw r)
    | _ => (qw r, -qw (256 - r))
  (BitVec.ofInt 18 lanes.1, BitVec.ofInt 18 lanes.2)

/-- `ATAN[i] = floor(atan(2^-i) * 2^31 / pi + 1/2)` (R17). -/
def atanTable : List Int :=
  [536870912, 316933406, 167458907, 85004756, 42667331, 21354465, 10679838, 5340245, 2670163, 1335087, 667544,
    333772, 166886, 83443, 41722, 20861, 10430, 5215, 2608, 1304, 652, 326, 163, 81]

/-- The loop of `ARG` (R17): step `i` over the remaining table entries; leaves when `y = 0`. -/
def cordic : List Int → Nat → Int → Int → Int → Int
  | [], _, _, _, acc => acc
  | a :: as, i, x, y, acc =>
    if y = 0 then acc
    else if 0 < y then cordic as (i + 1) (x + asr y i) (y - asr x i) (acc + a)
    else cordic as (i + 1) (x - asr y i) (y + asr x i) (acc - a)

/-- The default `ARG` (R17). -/
def argDefault (x y : Int) : BitVec 32 :=
  if y = 0 then (if 0 ≤ x then 0 else 0x80000000)
  else if x = 0 then (if 0 < y then 0x40000000 else 0xC0000000)
  else if 0 ≤ x then BitVec.ofInt 32 (cordic atanTable 0 x y 0)
  else if 0 ≤ y then BitVec.ofInt 32 (cordic atanTable 0 y (-x) (2 ^ 30))
  else BitVec.ofInt 32 (cordic atanTable 0 (-y) x (-2 ^ 30))

/-- `ARGN` (R17): scales the larger component to exactly 30 bits and takes `ARG`. -/
def argn (arg : Int → Int → BitVec 32) (re im : Int) : BitVec 32 :=
  let mx : Int := max (re.natAbs : Int) (im.natAbs : Int)
  if mx = 0 then 0
  else if bitlen mx > 30 then arg (asr re (bitlen mx - 30)) (asr im (bitlen mx - 30))
  else arg (re * 2 ^ (30 - bitlen mx)) (im * 2 ^ (30 - bitlen mx))

end Sys2Proof.Machine
end

