-- ==== Sys2Proof/Machine/Build.lean ====
section
/-! DEFINITION. The build the machine runs: the default sizes of R8, the default `SINCOS` and `ARG` of R16 and
R17, and the free collaborators and table images of Config. -/

namespace Sys2Proof.Machine

/-- The parameters of `exec` and `step` (R8, R9; DESIGN CHOICE, log entries 8, 9 and 10). -/
def build : Params where
  nMax := 4096
  npfbMax := 64
  tapsMax := 256
  hsymMax := 4096
  hbufMax := 512
  paysymMax := 2097152
  payencMax := 262144
  paydecMax := 65535
  sincos := sincosDefault
  arg := argDefault
  modSupported := Config.modSupported
  codecSupported := Config.codecSupported
  modem := Config.modem
  pktEncLen := Config.pktEncLen
  pktDecode := Config.pktDecode
  intlvDepermute := Config.intlvDepermute
  hdrFecDecode := Config.hdrFecDecode
  scrApply := Config.scrApply
  crcValidate := Config.crcValidate
  mem0Ref := Config.mem0Ref
  mem0Mf := Config.mem0Mf
  mem0Dmf := Config.mem0Dmf

end Sys2Proof.Machine
end

