-- ==== Sys2Proof/Machine/State.lean ====
section
/-! DEFINITION. The state of one core as plain data (R20): status and flags (R22, R23), configuration registers
(R30 to R49), run registers (R24 to R29), derived constants (R52), memories (R60), the ports the host sees, and
the state after hardware reset (R56, R361). -/

namespace Sys2Proof.Machine

/-- Core status (R22). The value 3 is never written and has no constructor (DEDUCED, log entry 15). -/
inductive Status where
  | uninit
  | run
  | dead
deriving DecidableEq, Repr

/-- Sequencing state of the frame machine (R21). -/
inductive Fsm where
  | detect
  | rxheader
  | rxpayload
  | reset
deriving DecidableEq, Repr

/-- Loop bandwidth flag `bw` (R23). -/
inductive Bw where
  | openBw
  | closedBw
deriving DecidableEq, Repr

/-- `det_state` (R23). -/
inductive DetMode where
  | seek
  | findPeak
deriving DecidableEq, Repr

/-- The configuration registers, 32 bits each (R30 to R49). -/
structure Cfg where
  k : BitVec 32
  m : BitVec 32
  beta : BitVec 32
  npfb : BitVec 32
  plen : BitVec 32
  thresh : BitVec 32
  dphiMax : BitVec 32
  sqThresh : BitVec 32
  sqTimeout : BitVec 32
  debounce : BitVec 32
  hdrDly : BitVec 32
  hdrNsym : BitVec 32
  hdrMod : BitVec 32
  hdrLen : BitVec 32
  agcAlpha : BitVec 32
  pllAlpha : BitVec 32
  pllBeta : BitVec 32
  strA : BitVec 32
  strB : BitVec 32
  ncoFmax : BitVec 32
deriving DecidableEq, Repr

/-- Carrier registers (R25): `nco_theta` and `nco_nu`, the latter read as `s32`. -/
structure Carrier where
  theta : BitVec 32
  nu : BitVec 32
deriving DecidableEq, Repr

/-- Timing registers (R26): `str_soft`, `str_q`, `str_timer` are `s32`, `str_idx` is `u8`. -/
structure Timing where
  soft : BitVec 32
  q : BitVec 32
  idx : BitVec 8
  timer : BitVec 32
deriving DecidableEq, Repr

/-- Squelch registers (R27, R23): `sq_cnt` and the flag `squelched`. -/
structure Squelch where
  cnt : BitVec 32
  closed : Bool
deriving DecidableEq, Repr

/-- Detector registers (R28, R23): `det_state`, `det_wptr`, `det_ex`, `det_rho_prev`, `det_age`, `cand_*`. -/
structure Detector where
  mode : DetMode
  wptr : BitVec 16
  ex : BitVec 48
  rhoPrev : BitVec 32
  age : BitVec 16
  candM0 : BitVec 32
  candM1 : BitVec 32
  candM2 : BitVec 32
  candRho2 : BitVec 33
  candDphi : BitVec 32
  candGamma : BitVec 32
deriving DecidableEq, Repr

/-- The latched DetectionResult (R28): `TAU_HAT`, `DPHI_HAT` are `s32`, `GAMMA_HAT` is `u32`. -/
structure Estimate where
  tau : BitVec 32
  dphi : BitVec 32
  gamma : BitVec 32
deriving DecidableEq, Repr

/-- Frame registers (R29): `p_len`, `p_mod`, `p_bps`, `p_crc`, `p_fec0`, `p_fec1`, `p_ver`, `p_enc`, `p_nsym`. -/
structure FrameRegs where
  len : BitVec 16
  mod : BitVec 5
  bps : BitVec 4
  crc : BitVec 3
  fec0 : BitVec 5
  fec1 : BitVec 5
  ver : BitVec 8
  enc : BitVec 32
  nsym : BitVec 32
deriving DecidableEq, Repr

/-- Quality accumulators (R29): `evm_acc`, `evm_cnt`. -/
structure Evm where
  acc : BitVec 64
  cnt : BitVec 32
deriving DecidableEq, Repr

/-- Capacities (R29): `cap_sym`, `cap_enc`, `cap_dec`. -/
structure Caps where
  sym : BitVec 32
  enc : BitVec 32
  dec : BitVec 32
deriving DecidableEq, Repr

/-- Derived constants (R52): `N`, `TAPS`, `es`, `pref`. -/
structure Derived where
  n : BitVec 32
  taps : BitVec 16
  es : BitVec 48
  pref : BitVec 32
deriving DecidableEq, Repr

/-- The event record: four words (R301). -/
structure Event where
  w0 : Word
  w1 : Word
  w2 : Word
  w3 : Word
deriving DecidableEq, Repr

/-- What the host may deliver between two steps: a command word (R90), or the hardware reset input (R361). -/
inductive Input where
  | command (w : Word)
  | hreset
deriving DecidableEq, Repr

/-- A memory: entries by index, indices strictly rising (`Machine/Mem.lean` has its operations and `Mem.Wf`).
For bytes this is a list of `Host.Cell`. -/
abbrev Mem (α : Type) := List (Nat × α)

/-- The whole state of one core (R20), with its ports. -/
structure State where
  /-- `status` (R22) -/
  status : Status
  /-- `cfg_cause` (R23) -/
  cfgCause : BitVec 8
  /-- `F_GROWTH` (R23) -/
  fGrowth : Bool
  /-- `F_UNSUP` (R23) -/
  fUnsup : Bool
  /-- `fsm` (R21) -/
  fsm : Fsm
  /-- `sym_cnt` (R21) -/
  symCnt : BitVec 32
  /-- `bw` (R23) -/
  bw : Bw
  /-- `agc_lvl` (R24) -/
  agcLvl : BitVec 32
  /-- carrier registers (R25) -/
  nco : Carrier
  /-- timing registers (R26) -/
  str : Timing
  /-- squelch registers (R27) -/
  sq : Squelch
  /-- detector registers (R28) -/
  det : Detector
  /-- the latched DetectionResult (R28) -/
  est : Estimate
  /-- frame registers (R29) -/
  hdr : FrameRegs
  /-- quality accumulators (R29) -/
  evm : Evm
  /-- `frame_cnt` (R29) -/
  frameCnt : BitVec 32
  /-- capacities (R29) -/
  cap : Caps
  /-- derived constants (R52) -/
  der : Derived
  /-- configuration registers (R30 to R49) -/
  cfg : Cfg
  /-- REF (R60): the entries written since hardware reset -/
  ref : Mem Smp
  /-- MF (R60), bank and tap in one index: the entries written since hardware reset -/
  mf : Mem Coef
  /-- DMF (R60): the entries written since hardware reset -/
  dmf : Mem Coef
  /-- WIN (R60, R67) -/
  win : Mem Smp
  /-- DL (R60, R68) -/
  dl : Mem Dat
  /-- HSYM (R60, R69) -/
  hsym : Mem Byte
  /-- PSYM (R60, R69) -/
  psym : Mem Byte
  /-- PENC (R60, R69) -/
  penc : Mem Byte
  /-- HDEC (R60, R69) -/
  hdec : Mem Byte
  /-- PDEC (R60, R69) -/
  pdec : Mem Byte
  /-- The MODEL's field: the inputs the host has yet to deliver, oldest first (R70, R361; DESIGN CHOICE, log entry 1). -/
  inputs : List Input
  /-- The MODEL's field: the response port in the latest step (R98; DESIGN CHOICE, log entry 3). -/
  resp : Option Word
  /-- The MODEL's field: the event port in the latest step (R300; DESIGN CHOICE, log entry 3). -/
  evt : Option Event
  /-- The MODEL's field: hardware resets so far; it selects the image of the unwritten tables (U1; DESIGN CHOICE, log
  entry 4). -/
  hresets : Nat
deriving DecidableEq, Repr

/-- Why a step stops. The core has no stop: every command runs to its response (R120, R320), so there is no fault. -/
inductive Fault
deriving DecidableEq, Repr

/-- Why a step has no meaning. -/
inductive Refusal where
  /-- Raised by an arm of `exec` whose instruction has no meaning yet; safe (nothing is claimed of it). No arm does. -/
  | notModelled (mnemonic : String)
deriving DecidableEq, Repr

/-- The HRESET values of the configuration registers (R30 to R49). -/
def cfgReset : Cfg where
  k := 2
  m := 3
  beta := 0
  npfb := 32
  plen := 64
  thresh := 0x00008000
  dphiMax := 0x7FFFFFFF
  sqThresh := 0
  sqTimeout := 0
  debounce := 1
  hdrDly := 0
  hdrNsym := 128
  hdrMod := 0
  hdrLen := 0x00100208
  agcAlpha := 0x01000800
  pllAlpha := 0x04001000
  pllBeta := 0x00100100
  strA := 0x3F803C00
  strB := 0x04004000
  ncoFmax := 0x20000000

/-- Detector registers cleared: SEEK, 0 (R126, R56). -/
def detReset : Detector where
  mode := .seek
  wptr := 0
  ex := 0
  rhoPrev := 0
  age := 0
  candM0 := 0
  candM1 := 0
  candM2 := 0
  candRho2 := 0
  candDphi := 0
  candGamma := 0

/-- Frame registers cleared, `p_bps` 1 (R125, R56). -/
def hdrReset : FrameRegs where
  len := 0
  mod := 0
  bps := 1
  crc := 0
  fec0 := 0
  fec1 := 0
  ver := 0
  enc := 0
  nsym := 0

/-- The state after hardware reset (R361, the HRESET column of R56). The loaded tables list nothing, so every entry
reads the free image (U1, log entry 5); the core's own buffers are zero, which U2 allows (DESIGN CHOICE, log entry 6);
no input is pending (log entry 1). -/
def State.reset : State where
  status := .uninit
  cfgCause := 0
  fGrowth := false
  fUnsup := false
  fsm := .detect
  symCnt := 0
  bw := .openBw
  agcLvl := 0
  nco := ⟨0, 0⟩
  str := ⟨0, 0, 0, 0⟩
  sq := ⟨0, false⟩
  det := detReset
  est := ⟨0, 0, 0⟩
  hdr := hdrReset
  evm := ⟨0, 0⟩
  frameCnt := 0
  cap := ⟨0, 0, 0⟩
  der := ⟨0, 0, 0, 0⟩
  cfg := cfgReset
  ref := []
  mf := []
  dmf := []
  win := []
  dl := []
  hsym := []
  psym := []
  penc := []
  hdec := []
  pdec := []
  inputs := []
  resp := none
  evt := none
  hresets := 0

end Sys2Proof.Machine
end

