-- ==== Sys2Proof/Machine/Mem.lean ====
section
/-! DEFINITION. The operations over a memory (R60, R62): one whole entry at a time, or a range of entries. A memory
lists entries by strictly rising index. For the core's own buffers an unlisted entry reads `z` (U2) and no listed
entry is `z`; for a loaded table an unlisted entry is one nothing has written since hardware reset (U1). -/

namespace Sys2Proof.Machine

/-- The listed entry at `i`. -/
def memFind {α : Type} : Mem α → Nat → Option α
  | [], _ => none
  | (k, v) :: m, i => if i = k then some v else memFind m i

/-- Lists `v` at `i`, in place of what was listed there. -/
def memInsert {α : Type} : Mem α → Nat → α → Mem α
  | [], i, v => [(i, v)]
  | (k, w) :: m, i, v =>
    if i < k then (i, v) :: (k, w) :: m else if i = k then (i, v) :: m else (k, w) :: memInsert m i v

/-- Unlists the entries `[a, b)`: in a buffer, sets them to `z`. -/
def memClear {α : Type} (m : Mem α) (a b : Nat) : Mem α := m.filter fun c => c.1 < a || b ≤ c.1

/-- `MEM[i]` of a buffer (R14). -/
def memRead {α : Type} (z : α) (m : Mem α) (i : Nat) : α := (memFind m i).getD z

/-- `MEM[i] <- v` of a buffer (R14). -/
def memWrite {α : Type} [DecidableEq α] (z : α) (m : Mem α) (i : Nat) (v : α) : Mem α :=
  if v = z then memClear m i (i + 1) else memInsert m i v

/-- The listed form of the entries `f a .. f (a + n - 1)` at `a .. a + n - 1`. -/
def memCells {α : Type} [DecidableEq α] (z : α) (f : Nat → α) (a n : Nat) : Mem α :=
  (List.range' a n).filterMap fun i => if f i = z then none else some (i, f i)

/-- `MEM[i] <- f i` for `i` in `[a, a + n)`, all at once. -/
def memSetRange {α : Type} [DecidableEq α] (z : α) (m : Mem α) (a n : Nat) (f : Nat → α) : Mem α :=
  m.filter (fun c => c.1 < a) ++ memCells z f a n ++ m.filter (fun c => a + n ≤ c.1)

/-- Indices strictly rising: the form every memory keeps. -/
abbrev MemSorted {α : Type} (m : Mem α) : Prop := (m.map Prod.fst).Pairwise (· < ·)

/-- The canonical form of a buffer: indices strictly rising and no entry equal to what an unlisted one reads as. -/
abbrev MemWf {α : Type} [DecidableEq α] (z : α) (m : Mem α) : Prop := MemSorted m ∧ ∀ c ∈ m, c.2 ≠ z

end Sys2Proof.Machine
end

