-- ==== Sys2Proof/Machine/Operands.lean ====
section
/-! DEFINITION. Operand forms: the configuration registers by address, with their masks (R30 to R50), the fields
the rules read from them, the indices a command's `addr` field may carry (R96), and the sample and coefficient
operands (R97). -/

namespace Sys2Proof.Machine

/-- A configuration register by name (R30 to R49, R112). -/
inductive CfgReg where
  | k | m | beta | npfb | plen | thresh | dphiMax | sqThresh | sqTimeout | debounce
  | hdrDly | hdrNsym | hdrMod | hdrLen | agcAlpha | pllAlpha | pllBeta | strA | strB | ncoFmax
deriving DecidableEq, Repr

/-- The configuration registers in address order, each with its address. -/
def cfgRegs : List (Nat × CfgReg) :=
  [ (0x00, .k), (0x01, .m), (0x02, .beta), (0x03, .npfb), (0x04, .plen), (0x05, .thresh), (0x06, .dphiMax),
    (0x07, .sqThresh), (0x08, .sqTimeout), (0x09, .debounce), (0x0A, .hdrDly), (0x0B, .hdrNsym), (0x0C, .hdrMod),
    (0x0D, .hdrLen), (0x10, .agcAlpha), (0x11, .pllAlpha), (0x12, .pllBeta), (0x13, .strA), (0x14, .strB),
    (0x15, .ncoFmax) ]

/-- The value listed for an address. -/
def atAddr {α : Type} : List (Nat × α) → Nat → Option α
  | [], _ => none
  | (a, v) :: rest, addr => if addr = a then some v else atAddr rest addr

/-- The configuration register at an address: 0x00 to 0x0D and 0x10 to 0x15 (R50, R96). A non-zero `addr[15:8]` is
an address outside the map. -/
def cfgRegAt (addr : BitVec 16) : Option CfgReg := atAddr cfgRegs addr.toNat

/-- The write mask of a configuration register (R30 to R49). -/
def cfgMask : CfgReg → BitVec 32
  | .k => 0x000000FF
  | .m => 0x000000FF
  | .beta => 0x0000FFFF
  | .npfb => 0x000000FF
  | .plen => 0x0000FFFF
  | .thresh => 0x0001FFFF
  | .dphiMax => 0x7FFFFFFF
  | .sqThresh => 0xFFFFFFFF
  | .sqTimeout => 0xFFFFFFFF
  | .debounce => 0x0000FFFF
  | .hdrDly => 0x0000FFFF
  | .hdrNsym => 0x0000FFFF
  | .hdrMod => 0x0000071F
  | .hdrLen => 0xFFFFFFFF
  | .agcAlpha => 0xFFFFFFFF
  | .pllAlpha => 0xFFFFFFFF
  | .pllBeta => 0xFFFFFFFF
  | .strA => 0xFFFFFFFF
  | .strB => 0xFFFFFFFF
  | .ncoFmax => 0x7FFFFFFF

/-- The value of a configuration register. -/
def cfgGet (c : Cfg) : CfgReg → BitVec 32
  | .k => c.k
  | .m => c.m
  | .beta => c.beta
  | .npfb => c.npfb
  | .plen => c.plen
  | .thresh => c.thresh
  | .dphiMax => c.dphiMax
  | .sqThresh => c.sqThresh
  | .sqTimeout => c.sqTimeout
  | .debounce => c.debounce
  | .hdrDly => c.hdrDly
  | .hdrNsym => c.hdrNsym
  | .hdrMod => c.hdrMod
  | .hdrLen => c.hdrLen
  | .agcAlpha => c.agcAlpha
  | .pllAlpha => c.pllAlpha
  | .pllBeta => c.pllBeta
  | .strA => c.strA
  | .strB => c.strB
  | .ncoFmax => c.ncoFmax

/-- `cfgreg[addr] <- v` for a value already masked. -/
def cfgPut (c : Cfg) (r : CfgReg) (v : BitVec 32) : Cfg :=
  match r with
  | .k => { c with k := v }
  | .m => { c with m := v }
  | .beta => { c with beta := v }
  | .npfb => { c with npfb := v }
  | .plen => { c with plen := v }
  | .thresh => { c with thresh := v }
  | .dphiMax => { c with dphiMax := v }
  | .sqThresh => { c with sqThresh := v }
  | .sqTimeout => { c with sqTimeout := v }
  | .debounce => { c with debounce := v }
  | .hdrDly => { c with hdrDly := v }
  | .hdrNsym => { c with hdrNsym := v }
  | .hdrMod => { c with hdrMod := v }
  | .hdrLen => { c with hdrLen := v }
  | .agcAlpha => { c with agcAlpha := v }
  | .pllAlpha => { c with pllAlpha := v }
  | .pllBeta => { c with pllBeta := v }
  | .strA => { c with strA := v }
  | .strB => { c with strB := v }
  | .ncoFmax => { c with ncoFmax := v }

/-- The field `r[lo+len-1 : lo]` as a number. -/
def regField (r : BitVec 32) (lo len : Nat) : Nat := (r.extractLsb' lo len).toNat

/-- `k`, samples per symbol (R30). -/
def cfgSps (c : Cfg) : Nat := regField c.k 0 8
/-- `m`, filter semi-length (R31). -/
def cfgSemi (c : Cfg) : Nat := regField c.m 0 8
/-- `npfb`, number of polyphase filters (R33). -/
def cfgBanks (c : Cfg) : Nat := regField c.npfb 0 8
/-- `preamble_len` (R34). -/
def cfgPreLen (c : Cfg) : Nat := regField c.plen 0 16
/-- `THRESH[16:0]` (R35). -/
def cfgThresh (c : Cfg) : Nat := regField c.thresh 0 17
/-- `DPHI_MAX[30:0]` (R36). -/
def cfgDphiMax (c : Cfg) : Nat := regField c.dphiMax 0 31
/-- `SQ_THRESH[31:0]` (R37). -/
def cfgSqThresh (c : Cfg) : Nat := c.sqThresh.toNat
/-- `SQ_TIMEOUT[31:0]` (R38). -/
def cfgSqTimeout (c : Cfg) : Nat := c.sqTimeout.toNat
/-- `DEBOUNCE[15:0]` (R39). -/
def cfgDebounce (c : Cfg) : Nat := regField c.debounce 0 16
/-- `HDR_DLY[15:0]` (R40). -/
def cfgHdrDly (c : Cfg) : Nat := regField c.hdrDly 0 16
/-- `H`, header symbols (R41). -/
def cfgHdrSyms (c : Cfg) : Nat := regField c.hdrNsym 0 16
/-- `hdr_mod` (R42). -/
def cfgHdrScheme (c : Cfg) : BitVec 5 := c.hdrMod.extractLsb' 0 5
/-- `hdr_bps = hdr_bps_m1 + 1` (R42). -/
def cfgHdrBps (c : Cfg) : BitVec 4 := (c.hdrMod.extractLsb' 8 3).setWidth 4 + 1
/-- `U`, user bytes of the header (R43). -/
def cfgUserBytes (c : Cfg) : Nat := regField c.hdrLen 0 8
/-- `HDR_KEY_LEN` (R43). -/
def cfgKeyBytes (c : Cfg) : Nat := regField c.hdrLen 8 8
/-- `HDR_ENC_LEN` (R43). -/
def cfgEncBytes (c : Cfg) : Nat := regField c.hdrLen 16 16
/-- `HDR_DEC_LEN = U + 6` (R43). -/
def cfgDecBytes (c : Cfg) : Nat := cfgUserBytes c + 6
/-- `NCO_FMAX[30:0]` (R49). -/
def cfgNcoFmax (c : Cfg) : Nat := regField c.ncoFmax 0 31
/-- `N = PLEN * K` as an exact integer (R124). -/
def cfgWindow (c : Cfg) : Nat := cfgPreLen c * cfgSps c
/-- `TAPS = 2 * K * M + 1` as an exact integer (R124). -/
def cfgTaps (c : Cfg) : Nat := 2 * cfgSps c * cfgSemi c + 1

/-- An index WRREF and RDREF accept (R96). -/
def refOk (P : Params) (addr : BitVec 16) : Bool := addr.toNat < P.nMax

/-- A bank and tap WRMF, WRDMF, RDMF and RDDMF accept (R96). -/
def coefOk (P : Params) (bank tap : BitVec 8) : Bool := bank.toNat < P.npfbMax && tap.toNat < P.tapsMax

/-- An index RDHDR accepts (R69, R96). -/
def hdrIdxOk (c : Cfg) (addr : BitVec 16) : Bool := addr.toNat < cfgDecBytes c

/-- An index RDPAY accepts (R69, R96). -/
def payIdxOk (s : State) (addr : BitVec 16) : Bool := addr.toNat < s.cap.dec.toNat

/-- The place of `MF[bank][tap]` in its memory: bank and tap side by side, as `{bank, tap}` of R96 (DESIGN CHOICE, log
entry 17). -/
def coefKey (bank tap : Nat) : Nat := bank * 256 + tap

/-- A sample operand (R97). -/
def smpOf (re im : BitVec 16) : Smp := ⟨re, im⟩

/-- A sample packed in a 32-bit data field, re in the high half (R63 b). -/
def smpBits (x : Smp) : BitVec 32 := x.re ++ x.im

/-- `REF[i]`: the written entry, or the image of the unwritten memory (U1). -/
def refAt (P : Params) (s : State) (i : Nat) : Smp := (memFind s.ref i).getD (P.mem0Ref s.hresets i)

/-- `MF[b][j]` (U1 as for REF). -/
def mfAt (P : Params) (s : State) (b j : Nat) : Coef := (memFind s.mf (coefKey b j)).getD (P.mem0Mf s.hresets b j)

/-- `DMF[b][j]` (U1 as for REF). -/
def dmfAt (P : Params) (s : State) (b j : Nat) : Coef := (memFind s.dmf (coefKey b j)).getD (P.mem0Dmf s.hresets b j)

/-- `WIN[i]`. -/
def winAt (s : State) (i : Nat) : Smp := memRead Smp.zero s.win i

/-- `DL[j]`. -/
def dlAt (s : State) (j : Nat) : Dat := memRead Dat.zero s.dl j

/-- `HSYM[i]`. -/
def hsymAt (s : State) (i : Nat) : Byte := memRead 0 s.hsym i

/-- `PSYM[i]`. -/
def psymAt (s : State) (i : Nat) : Byte := memRead 0 s.psym i

/-- `PENC[i]`. -/
def pencAt (s : State) (i : Nat) : Byte := memRead 0 s.penc i

/-- `HDEC[i]`. -/
def hdecAt (s : State) (i : Nat) : Byte := memRead 0 s.hdec i

/-- `PDEC[i]`. -/
def pdecAt (s : State) (i : Nat) : Byte := memRead 0 s.pdec i

end Sys2Proof.Machine
end

