-- ==== Sys2Proof/Machine/Flags.lean ====
section
/-! DEFINITION. The status fields of R23: their codes, the STATUS word of R53, the coefficient selector of R51, and
which core status accepts which command (R121). The core has no arithmetic condition codes. -/

namespace Sys2Proof.Machine

/-- The two bits of `status` (R22). -/
def statusCode : Status → BitVec 2
  | .uninit => 0
  | .run => 1
  | .dead => 2

/-- The two bits of `fsm` (R21). -/
def fsmCode : Fsm → BitVec 2
  | .detect => 0
  | .rxheader => 1
  | .rxpayload => 2
  | .reset => 3

/-- The bit of `bw` (R23). -/
def bwCode : Bw → BitVec 1
  | .openBw => 0
  | .closedBw => 1

/-- The bit of `det_state` (R23). -/
def detModeCode : DetMode → BitVec 1
  | .seek => 0
  | .findPeak => 1

/-- The STATUS register (R53, address 0x40). -/
def statusWord (s : State) : BitVec 32 :=
  0#14 ++ BitVec.ofBool s.fUnsup ++ BitVec.ofBool s.fGrowth ++ s.cfgCause ++ 0#1 ++ detModeCode s.det.mode ++
    BitVec.ofBool s.sq.closed ++ bwCode s.bw ++ fsmCode s.fsm ++ statusCode s.status

/-- `sel(REG)`: the open half or the closed half, chosen by `bw` (R51). -/
def sel (b : Bw) (r : BitVec 32) : Nat :=
  match b with
  | .openBw => regField r 0 16
  | .closedBw => regField r 16 16

/-- Statuses that accept the write commands and INIT: UNINIT and DEAD (R121). -/
def notRunning (s : State) : Bool := s.status != .run

/-- The status that accepts SRST, PUSH, RDHDR and RDPAY: RUN (R121). -/
def running (s : State) : Bool := s.status == .run

/-- The statuses that accept DSTR: RUN and DEAD (R121). -/
def constructed (s : State) : Bool := s.status != .uninit

end Sys2Proof.Machine
end

