-- ==== Sys2Proof/Machine/Ops.lean ====
section
/-! DEFINITION. The shared operations: the response (R98, R99), the error response, which is all this core has in
place of an exception (R320, R333), the event port (R300), the reset procedures `acq_reset` (R126), `run_init`
(R125) and HRESET (R361), and what the ports hold around a step. -/

namespace Sys2Proof.Machine

/-- Response codes (R99). -/
inductive Code where
  | ok
  | errOpcode
  | errState
  | errAddr
  | errCfg
deriving DecidableEq, Repr

/-- The number of a response code (R99). -/
def codeBits : Code → BitVec 8
  | .ok => 0
  | .errOpcode => 1
  | .errState => 2
  | .errAddr => 3
  | .errCfg => 4

/-- The response word (R98). -/
def respWord (c : Code) (data : BitVec 32) : Word := codeBits c ++ 0#24 ++ data

/-- `respond(code, data)` (R14, R98). -/
def respond (c : Code) (data : BitVec 32) (s : State) : State := { s with resp := some (respWord c data) }

/-- Answering an error: the response and no other write (R120, R321, R333). -/
def raise (c : Code) (s : State) : State := respond c 0 s

/-- `emit(event)` (R14, R300). -/
def emit (e : Event) (s : State) : State := { s with evt := some e }

/-- The ports before a command is executed: no response and no event yet. -/
def idlePorts (s : State) : State := { s with resp := none, evt := none }

/-- The state in which a command is executed: its word taken from the port, the inputs `rest` still pending. -/
def beginCommand (rest : List Input) (s : State) : State := idlePorts { s with inputs := rest }

/-- The answer to an ILLEGAL word (R102, R103). -/
def answerIllegal (s : State) : State := raise .errOpcode s

/-- With nothing pending the core waits: it holds its state (R347, R361) and its ports are idle (DESIGN CHOICE, log
entry 2). -/
def waitForCommand (s : State) : State := idlePorts s

/-- `acq_reset()` (R126). -/
def acqReset (s : State) : State :=
  { s with
    bw := .openBw
    nco := ⟨0, 0⟩
    str := ⟨0, 0, 0, 0⟩
    dl := memClear s.dl 0 s.der.taps.toNat
    symCnt := 0
    evm := ⟨0, 0⟩
    win := memClear s.win 0 s.der.n.toNat
    det := detReset }

/-- The registers `run_init` writes beside those of `acq_reset` (R125). -/
def clearFrame (s : State) : State :=
  { s with agcLvl := 0, sq := ⟨0, false⟩, fsm := .detect, est := ⟨0, 0, 0⟩, hdr := hdrReset }

/-- `run_init()` (R125). The buffers it does not name are kept (DESIGN CHOICE, log entry 7). -/
def runInit (s : State) : State := clearFrame (acqReset s)

/-- HRESET (R361): every register at its reset value, the tables' contents a new free image, the buffers' contents
unspecified (zero, U2). The inputs `rest` the host has not delivered yet stay with the host (DESIGN CHOICE, log entries
4 and 6). -/
def hardReset (rest : List Input) (s : State) : State :=
  { State.reset with inputs := rest, hresets := s.hresets + 1 }

end Sys2Proof.Machine
end

