-- ==== Sys2Proof/Machine/Agc.lean ====
section
/-! DEFINITION. The AGC amplitude detector and normalizer (42_agc.md). -/

namespace Sys2Proof.Machine

/-- The level after one sample of `alpha * (p24 - lvl)` (R181). -/
def agcNext (alpha : Nat) (x : Smp) (lvl : Nat) : Int :=
  (lvl : Int) + asr ((alpha : Int) * (asr (mag2 x.cx) 6 - (lvl : Int))) 16

/-- `agc_track(x)` (R181). -/
def agcTrack (x : Smp) (s : State) : State :=
  { s with agcLvl := BitVec.ofInt 32 (agcNext (sel s.bw s.cfg.agcAlpha) x s.agcLvl.toNat) }

/-- `agc_gain()` of a level (R183). -/
def agcGain (lvl : Nat) : Nat := isqrt (2 ^ 56 / max lvl 1)

/-- `agc_apply(x)` with gain `g` (R184). -/
def agcApply (g : Nat) (x : Smp) : Dat := ⟨toLane (g * x.cx.re) 13, toLane (g * x.cx.im) 13⟩

/-- The seeded level: `usat_32(asr(asr(GAMMA_HAT * GAMMA_HAT, 24) * pref, 24))` (R186). -/
def agcSeedLevel (gamma pref : Nat) : Int := usat 32 (asr (asr ((gamma : Int) * gamma) 24 * pref) 24)

/-- `agc_seed()` (R186). -/
def agcSeed (s : State) : State :=
  { s with agcLvl := BitVec.ofInt 32 (agcSeedLevel s.est.gamma.toNat s.der.pref.toNat) }

end Sys2Proof.Machine
end

