-- ==== Sys2Proof/Machine/RegMap.lean ====
section
/-! DEFINITION. The register space RDREG reads: the configuration registers (R30 to R49) and the status and run
registers at 0x40 to 0x68 (R53). -/

namespace Sys2Proof.Machine

/-- The P_FIELDS register (R53, address 0x58). -/
def fieldsWord (h : FrameRegs) : BitVec 32 :=
  h.ver ++ 0#3 ++ h.fec1 ++ h.fec0 ++ h.crc ++ (h.bps - 1).setWidth 3 ++ h.mod

/-- The low half of a wide register (R63 c). -/
def loHalf {n : Nat} (v : BitVec n) : BitVec 32 := v.setWidth 32

/-- The high half of a wide register (R63 c). -/
def hiHalf {n : Nat} (v : BitVec n) : BitVec 32 := (v >>> 32).setWidth 32

/-- The read-only registers (R53), in its order. -/
def runRegs (s : State) : List (Nat × BitVec 32) :=
  [ (0x40, statusWord s),
    (0x41, s.agcLvl),
    (0x42, BitVec.ofNat 32 (agcGain s.agcLvl.toNat)),
    (0x43, s.nco.theta),
    (0x44, s.nco.nu),
    (0x45, s.str.soft),
    (0x46, s.str.q),
    (0x47, s.str.idx.setWidth 32),
    (0x48, s.str.timer),
    (0x49, s.symCnt),
    (0x4A, s.sq.cnt),
    (0x4B, s.est.tau),
    (0x4C, s.est.dphi),
    (0x4D, s.est.gamma),
    (0x4E, s.cap.sym),
    (0x4F, s.cap.enc),
    (0x50, s.cap.dec),
    (0x51, s.frameCnt),
    (0x52, s.der.n),
    (0x53, s.der.taps.setWidth 32),
    (0x54, loHalf s.der.es),
    (0x55, hiHalf s.der.es),
    (0x56, s.der.pref),
    (0x57, s.hdr.len.setWidth 32),
    (0x58, fieldsWord s.hdr),
    (0x59, s.hdr.enc),
    (0x5A, s.hdr.nsym),
    (0x5B, loHalf s.evm.acc),
    (0x5C, hiHalf s.evm.acc),
    (0x5D, s.evm.cnt),
    (0x5E, loHalf s.det.ex),
    (0x5F, hiHalf s.det.ex),
    (0x60, s.det.rhoPrev),
    (0x61, s.det.wptr ++ s.det.age),
    (0x62, s.det.candM0),
    (0x63, s.det.candM1),
    (0x64, s.det.candM2),
    (0x65, loHalf s.det.candRho2),
    (0x66, hiHalf s.det.candRho2),
    (0x67, s.det.candDphi),
    (0x68, s.det.candGamma) ]

/-- The register at an address, or none where no register is (R50, R53, R134). -/
def readReg (s : State) (addr : BitVec 16) : Option (BitVec 32) :=
  match cfgRegAt addr with
  | some r => some (cfgGet s.cfg r)
  | none => atAddr (runRegs s) addr.toNat

end Sys2Proof.Machine
end

