-- ==== Sys2Proof/Machine/Access.lean ====
section
/-! DEFINITION. The access commands: the four writes (R130 to R133) and the six reads (R134 to R139). -/

namespace Sys2Proof.Machine

/-- The common frame of the writes (R129): status, then address, then the write. -/
def writeFrame (ok : Bool) (act : State) (s : State) : State :=
  if notRunning s then if ok then respond .ok 0 act else raise .errAddr s else raise .errState s

/-- The common end of the reads (R129): the address, then the value; no state changes. -/
def readFrame (v : Option (BitVec 32)) (s : State) : State :=
  match v with
  | some d => respond .ok d s
  | none => raise .errAddr s

/-- The reads that only RUN accepts (R129, R138, R139). -/
def readInRun (v : Option (BitVec 32)) (s : State) : State :=
  if running s then readFrame v s else raise .errState s

/-- A value behind a check. -/
def guarded (ok : Bool) (v : BitVec 32) : Option (BitVec 32) := if ok then some v else none

/-- `cfgreg[addr] <- data & mask[addr]` (R130). -/
def putCfg (addr : BitVec 16) (data : BitVec 32) (s : State) : State :=
  match cfgRegAt addr with
  | some r => { s with cfg := cfgPut s.cfg r (data &&& cfgMask r) }
  | none => s

/-- WRCFG (R130). -/
def execWrcfg (addr : BitVec 16) (data : BitVec 32) (s : State) : Host.Outcome State Fault Refusal :=
  .next (writeFrame (cfgRegAt addr).isSome (putCfg addr data s) s)

/-- WRREF (R131), with the build's parameters as an argument. -/
def wrrefWith (P : Params) (addr re im : BitVec 16) (s : State) : State :=
  writeFrame (refOk P addr) { s with ref := memInsert s.ref addr.toNat (smpOf re im) } s

/-- WRREF (R131). -/
def execWrref (addr re im : BitVec 16) (s : State) : Host.Outcome State Fault Refusal :=
  .next (wrrefWith build addr re im s)

/-- WRMF (R132), with the build's parameters as an argument. -/
def wrmfWith (P : Params) (bank tap : BitVec 8) (coef : BitVec 16) (s : State) : State :=
  writeFrame (coefOk P bank tap) { s with mf := memInsert s.mf (coefKey bank.toNat tap.toNat) coef } s

/-- WRMF (R132). -/
def execWrmf (bank tap : BitVec 8) (coef : BitVec 16) (s : State) : Host.Outcome State Fault Refusal :=
  .next (wrmfWith build bank tap coef s)

/-- WRDMF (R133), with the build's parameters as an argument. -/
def wrdmfWith (P : Params) (bank tap : BitVec 8) (coef : BitVec 16) (s : State) : State :=
  writeFrame (coefOk P bank tap) { s with dmf := memInsert s.dmf (coefKey bank.toNat tap.toNat) coef } s

/-- WRDMF (R133). -/
def execWrdmf (bank tap : BitVec 8) (coef : BitVec 16) (s : State) : Host.Outcome State Fault Refusal :=
  .next (wrdmfWith build bank tap coef s)

/-- RDREG (R134). -/
def execRdreg (addr : BitVec 16) (s : State) : Host.Outcome State Fault Refusal :=
  .next (readFrame (readReg s addr) s)

/-- RDREF (R135), with the build's parameters as an argument. -/
def rdrefWith (P : Params) (addr : BitVec 16) (s : State) : State :=
  readFrame (guarded (refOk P addr) (smpBits (refAt P s addr.toNat))) s

/-- RDREF (R135). -/
def execRdref (addr : BitVec 16) (s : State) : Host.Outcome State Fault Refusal := .next (rdrefWith build addr s)

/-- RDMF (R136), with the build's parameters as an argument. -/
def rdmfWith (P : Params) (bank tap : BitVec 8) (s : State) : State :=
  readFrame (guarded (coefOk P bank tap) ((mfAt P s bank.toNat tap.toNat).setWidth 32)) s

/-- RDMF (R136). -/
def execRdmf (bank tap : BitVec 8) (s : State) : Host.Outcome State Fault Refusal := .next (rdmfWith build bank tap s)

/-- RDDMF (R137), with the build's parameters as an argument. -/
def rddmfWith (P : Params) (bank tap : BitVec 8) (s : State) : State :=
  readFrame (guarded (coefOk P bank tap) ((dmfAt P s bank.toNat tap.toNat).setWidth 32)) s

/-- RDDMF (R137). -/
def execRddmf (bank tap : BitVec 8) (s : State) : Host.Outcome State Fault Refusal :=
  .next (rddmfWith build bank tap s)

/-- RDHDR (R138). -/
def execRdhdr (addr : BitVec 16) (s : State) : Host.Outcome State Fault Refusal :=
  .next (readInRun (guarded (hdrIdxOk s.cfg addr) ((hdecAt s addr.toNat).setWidth 32)) s)

/-- RDPAY (R139). -/
def execRdpay (addr : BitVec 16) (s : State) : Host.Outcome State Fault Refusal :=
  .next (readInRun (guarded (payIdxOk s addr) ((pdecAt s addr.toNat).setWidth 32)) s)

end Sys2Proof.Machine
end

