-- ==== Sys2Proof/Machine/Control.lean ====
section
/-! DEFINITION. The control commands NOP, INIT, SRST and DSTR (40_commands.md R122 to R128). -/

namespace Sys2Proof.Machine

/-- The sum of `mag2(REF[i])` over `[0, N)` (R52, R124). -/
def refEnergy (P : Params) (s : State) : Nat := nsum (fun i => mag2 (refAt P s i).cx) (cfgWindow s.cfg)

/-- Cause bit 1: the filter length (R124). -/
def badFilter (P : Params) (c : Cfg) : Bool := cfgSemi c == 0 || P.tapsMax < cfgTaps c

/-- Cause bit 2: the preamble length (R124). -/
def badPreamble (P : Params) (c : Cfg) : Bool := cfgPreLen c == 0 || P.nMax < cfgWindow c

/-- Cause bit 3: the number of filters (R124). -/
def badBanks (P : Params) (c : Cfg) : Bool := cfgBanks c == 0 || P.npfbMax < cfgBanks c

/-- Cause bit 4: the reference energy; not tested when the window is too long (R124). -/
def badEnergy (P : Params) (s : State) : Bool := cfgWindow s.cfg ≤ P.nMax && refEnergy P s == 0

/-- Cause bit 5: the header geometry (R124). -/
def badHeader (P : Params) (c : Cfg) : Bool :=
  cfgHdrSyms c == 0 || P.hsymMax < cfgHdrSyms c || cfgEncBytes c == 0 || P.hbufMax < cfgEncBytes c ||
    P.hbufMax < cfgUserBytes c + 6 + cfgKeyBytes c ||
    cfgHdrSyms c != ceildiv (8 * cfgEncBytes c) (cfgHdrBps c).toNat

/-- `config_check()` (R124): the OR of the cause bits whose test is true, bit 0 last. -/
def configCheck (P : Params) (s : State) : BitVec 8 :=
  BitVec.ofBool (cfgDebounce s.cfg == 0) ++ BitVec.ofBool (!P.modSupported (cfgHdrScheme s.cfg) (cfgHdrBps s.cfg)) ++
    BitVec.ofBool (badHeader P s.cfg) ++ BitVec.ofBool (badEnergy P s) ++ BitVec.ofBool (badBanks P s.cfg) ++
    BitVec.ofBool (badPreamble P s.cfg) ++ BitVec.ofBool (badFilter P s.cfg) ++ BitVec.ofBool (decide (cfgSps s.cfg < 2))

/-- The derived constants of R52. -/
def derive (P : Params) (s : State) : Derived :=
  { n := BitVec.ofNat 32 (cfgWindow s.cfg)
    taps := BitVec.ofNat 16 (cfgTaps s.cfg)
    es := BitVec.ofNat 48 (refEnergy P s)
    pref := BitVec.ofInt 32 (fdiv (asr (refEnergy P s) 6) (cfgWindow s.cfg)) }

/-- A successful INIT up to its response (R123). -/
def construct (P : Params) (s : State) : State :=
  runInit
    { s with
      der := derive P s
      status := .run
      cfgCause := 0
      fGrowth := false
      fUnsup := false
      cap := ⟨0, 0, 0⟩
      frameCnt := 0
      hdec := memClear s.hdec 0 (cfgDecBytes s.cfg) }

/-- INIT (R123), with the build's parameters as an argument. -/
def initWith (P : Params) (s : State) : State :=
  if notRunning s then
    let cause := configCheck P s
    if cause = 0 then respond .ok 0 (construct P s)
    else respond .errCfg (cause.setWidth 32) { s with status := .dead, cfgCause := cause }
  else raise .errState s

/-- The action of DSTR (R128): the derived constants are 0 before `run_init`, whose clearing loops are empty. -/
def destroy (s : State) : State :=
  runInit { s with status := .uninit, cfgCause := 0, cap := ⟨0, 0, 0⟩, der := ⟨0, 0, 0, 0⟩ }

/-- NOP (R122). -/
def execNop (s : State) : Host.Outcome State Fault Refusal := .next (respond .ok 0 s)

/-- INIT (R123). -/
def execInit (s : State) : Host.Outcome State Fault Refusal := .next (initWith build s)

/-- SRST (R127). -/
def execSrst (s : State) : Host.Outcome State Fault Refusal :=
  .next (if running s then respond .ok 0 (runInit s) else raise .errState s)

/-- DSTR (R128). -/
def execDstr (s : State) : Host.Outcome State Fault Refusal :=
  .next (if constructed s then respond .ok 0 (destroy s) else raise .errState s)

end Sys2Proof.Machine
end

