-- ==== Sys2Proof/Machine/Detector.lean ====
section
/-! DEFINITION. The preamble cross-correlator (41_detector.md). -/

namespace Sys2Proof.Machine

/-- The window push (R153): the oldest entry is replaced, the energy follows, the write pointer advances. -/
def winPush (x : Smp) (s : State) : State :=
  let w := s.det.wptr.toNat
  { s with
    win := memWrite Smp.zero s.win w x
    det := { s.det with
      wptr := BitVec.ofNat 16 ((w + 1) % s.der.n.toNat)
      ex := BitVec.ofInt 48 (s.det.ex.toNat - mag2 (winAt s w).cx + mag2 x.cx) } }

/-- The window in time order: `w[i] = WIN[(det_wptr + i) mod N]` (R153, R67). -/
def winOrd (s : State) (i : Nat) : Cx := (winAt s ((s.det.wptr.toNat + i) % s.der.n.toNat)).cx

/-- The correlation of the window with the reference over `[a, a + n)` (R154). -/
def corr (P : Params) (s : State) (a n : Nat) : Cx :=
  csum (fun i => cmulConj (winOrd s (a + i)) (refAt P s (a + i)).cx) n

/-- The squared normalized correlation `rho2` (R156): `uQ0.32`. -/
def rho2Of (r2 ex es : Nat) : Nat := if ex * es = 0 then 0 else r2 * 2 ^ 32 / (ex * es)

/-- The metric `rho = isqrt(rho2 * 2^16)` (R157). -/
def rhoOf (rho2 : Nat) : Nat := isqrt (rho2 * 2 ^ 16)

/-- The offset estimate `dphi` from the two half correlations (R159 to R161). -/
def dphiOf (P : Params) (rA rB : Cx) (n : Nat) : Int :=
  let p := cmulConj rB rA
  fdiv (2 * (argn P.arg p.re p.im).toInt) n

/-- The gain estimate `gamma` (R162). -/
def gammaOf (r2 es : Nat) : Nat := min (2 ^ 32 - 1) (isqrt (r2 * 2 ^ 48 / (es * es)))

/-- What one detector step measures (R167). -/
structure Metric where
  rho2 : Nat
  rho : Nat
  dphi : Int
  gamma : Nat
deriving DecidableEq, Repr

/-- The measurements over the window as it stands (R154 to R162). -/
def measure (P : Params) (s : State) : Metric :=
  let n := s.der.n.toNat
  let nh := n / 2
  let rA := corr P s 0 nh
  let rB := corr P s nh (n - nh)
  let r2 := mag2 (cadd rA rB)
  let rho2 := rho2Of r2 s.det.ex.toNat s.der.es.toNat
  { rho2 := rho2, rho := rhoOf rho2, dphi := dphiOf P rA rB n, gamma := gammaOf r2 s.der.es.toNat }

/-- The firing condition `pass` (R158). -/
def passes (c : Cfg) (m : Metric) : Bool := cfgThresh c * cfgThresh c < m.rho2 && m.dphi.natAbs ≤ cfgDphiMax c

/-- `capture()` (R164). -/
def capture (m : Metric) (d : Detector) : Detector :=
  { d with
    candM0 := d.rhoPrev
    candM1 := BitVec.ofNat 32 m.rho
    candM2 := 0
    candRho2 := BitVec.ofNat 33 m.rho2
    candDphi := BitVec.ofInt 32 m.dphi
    candGamma := BitVec.ofNat 32 m.gamma
    age := 0 }

/-- `tau()` of the three candidate metrics (R166). -/
def tauOf (m0 m1 m2 : Nat) : Int :=
  let num : Int := m0 - m2
  let dn : Int := 2 * ((m0 : Int) - 2 * m1 + m2)
  if dn < 0 then clamp (fdiv (num * 2 ^ 24) dn) (-2 ^ 23) (2 ^ 23 - 1) else 0

/-- The first two lines of FINDPEAK (R163): the age, and the metric one step after the candidate. -/
def ageStep (m : Metric) (d : Detector) : Detector :=
  let age := d.age + 1
  { d with age := age, candM2 := if age = 1 then BitVec.ofNat 32 m.rho else d.candM2 }

/-- `declare()` (R165). -/
def declareDet (s : State) : State :=
  { s with
    est :=
      { tau := BitVec.ofInt 32 (tauOf s.det.candM0.toNat s.det.candM1.toNat s.det.candM2.toNat)
        dphi := s.det.candDphi
        gamma := s.det.candGamma }
    det := { s.det with mode := .seek } }

/-- The peak search on `det_state` (R163). -/
def peakSearch (m : Metric) (s : State) : State × Bool :=
  match s.det.mode with
  | .seek =>
    if passes s.cfg m then ({ s with det := { capture m s.det with mode := .findPeak } }, false) else (s, false)
  | .findPeak =>
    let d := ageStep m s.det
    if passes s.cfg m && d.candRho2.toNat < m.rho2 then ({ s with det := capture m d }, false)
    else if cfgDebounce s.cfg ≤ d.age.toNat then (declareDet { s with det := d }, true)
    else ({ s with det := d }, false)

/-- `det_rho_prev <- rho`, written last (R167). -/
def latchRho (m : Metric) (s : State) : State := { s with det := { s.det with rhoPrev := BitVec.ofNat 32 m.rho } }

/-- `detector_step(x)` (R167): the state, and whether a detection is declared. -/
def detectorStep (P : Params) (x : Smp) (s : State) : State × Bool :=
  let s1 := winPush x s
  let m := measure P s1
  let r := peakSearch m s1
  (latchRho m r.1, r.2)

end Sys2Proof.Machine
end

