-- ==== Sys2Proof/Machine/Carrier.lean ====
section
/-! DEFINITION. Carrier recovery: the NCO, its mixer and the PLL (43_carrier.md). -/

namespace Sys2Proof.Machine

/-- `y * exp(-j*theta)` for the cosine `c` and sine `d` (R196). -/
def mixWith (c d : Int) (y : Dat) : Dat :=
  ⟨toLane (y.cx.re * c + y.cx.im * d) 16, toLane (y.cx.im * c - y.cx.re * d) 16⟩

/-- The sample `nco_mix(y)` returns: mixed with the phase held before the advance (R196). -/
def ncoMixed (P : Params) (y : Dat) (s : State) : Dat :=
  let t := P.sincos s.nco.theta
  mixWith t.1.toInt t.2.toInt y

/-- The accumulator after `nco_mix`: `wrap_32(nco_theta + nco_nu)` (R196). -/
def ncoAdvance (s : State) : State := { s with nco := { s.nco with theta := s.nco.theta + s.nco.nu } }

/-- A frequency clamped to `±NCO_FMAX` (R200, R203). -/
def clampFreq (c : Cfg) (v : Int) : Int := clamp v (-(cfgNcoFmax c : Int)) (cfgNcoFmax c)

/-- `pll_step(perr)` (R200). -/
def pllStep (perr : BitVec 32) (s : State) : State :=
  let alpha : Int := sel s.bw s.cfg.pllAlpha
  let beta : Int := sel s.bw s.cfg.pllBeta
  { s with nco :=
    { nu := BitVec.ofInt 32 (clampFreq s.cfg (s.nco.nu.toInt + asr (beta * perr.toInt) 16))
      theta := BitVec.ofInt 32 (s.nco.theta.toNat + asr (alpha * perr.toInt) 16) } }

/-- `carrier_seed()` (R203). -/
def carrierSeed (s : State) : State :=
  { s with nco := { nu := BitVec.ofInt 32 (clampFreq s.cfg s.est.dphi.toInt), theta := 0 } }

end Sys2Proof.Machine
end

