-- ==== Sys2Proof/Machine/Timing.lean ====
section
/-! DEFINITION. Symbol timing recovery: the polyphase matched-filter resampler, the timing-error discriminator and
the timing loop (44_symbol_timing.md). -/

namespace Sys2Proof.Machine

/-- The push into DL: `DL[j] <- DL[j-1]` for `j` from `TAPS - 1` down to 1, then `DL[0] <- z` (R68, R216). -/
def dlPush (z : Dat) (s : State) : State :=
  { s with dl := memSetRange Dat.zero s.dl 0 (max s.der.taps.toNat 1) fun j => if j = 0 then z else dlAt s (j - 1) }

/-- `fir` of a bank's coefficients `c` with the delay line `d` over `n` taps (R218). -/
def firSum (c : Nat → Coef) (d : Nat → Dat) (n : Nat) : Dat :=
  let acc := csum (fun j => cscale (c j).toInt (d j).cx) n
  ⟨toLane acc.re 14, toLane acc.im 14⟩

/-- `fir(MF, b)` (R218). -/
def firMf (P : Params) (s : State) (b : Nat) : Dat := firSum (mfAt P s b) (dlAt s) s.der.taps.toNat

/-- `fir(DMF, b)` (R218). -/
def firDmf (P : Params) (s : State) (b : Nat) : Dat := firSum (dmfAt P s b) (dlAt s) s.der.taps.toNat

/-- The timing-error discriminator `e` (R220). -/
def timingError (mf dmf : Dat) : Int := sat 32 (asr (mf.cx.re * dmf.cx.re + mf.cx.im * dmf.cx.im) 12)

/-- The filtered error (R221). -/
def timingFilter (a b : Nat) (q e : Int) : Int := sat 32 (asr ((a : Int) * q) 14 + asr ((b : Int) * e) 14)

/-- The hard index of a soft index before any wrap (R223). -/
def hardIdx (soft : Int) : Int := asr (soft + 2 ^ 23) 24

/-- The three values a wrap moves (R224). -/
structure Wrap where
  idx : Int
  soft : Int
  timer : Int
deriving DecidableEq, Repr

/-- `while idx < 0` of `wrap_idx` (R224), at most `fuel` passes. -/
def wrapUp (npfb : Nat) : Nat → Wrap → Wrap
  | 0, w => w
  | fuel + 1, w =>
    if w.idx < 0 then wrapUp npfb fuel ⟨w.idx + npfb, w.soft + npfb * 2 ^ 24, w.timer - 1⟩ else w

/-- `while idx > NPFB - 1` of `wrap_idx` (R224), at most `fuel` passes. -/
def wrapDown (npfb : Nat) : Nat → Wrap → Wrap
  | 0, w => w
  | fuel + 1, w =>
    if (npfb : Int) - 1 < w.idx then wrapDown npfb fuel ⟨w.idx - npfb, w.soft - npfb * 2 ^ 24, w.timer + 1⟩ else w

/-- `wrap_idx()` (R224). With `NPFB >= 1` each pass moves the index by at least one toward its range, so as many
passes as the index is large end both loops (DEDUCED, log entry 12). -/
def wrapIdx (npfb : Nat) (soft timer : Int) : Wrap :=
  let w : Wrap := ⟨hardIdx soft, soft, timer⟩
  wrapDown npfb (hardIdx soft).natAbs (wrapUp npfb (hardIdx soft).natAbs w)

/-- The timing registers a wrap leaves, the filtered error being `q`. -/
def timingOf (q : Int) (w : Wrap) : Timing :=
  { soft := BitVec.ofInt 32 w.soft, q := BitVec.ofInt 32 q, idx := BitVec.ofInt 8 w.idx,
    timer := BitVec.ofInt 32 w.timer }

/-- The strobe part of `str_step`: the symbol, and the registers after the loop and the reloaded timer (R226). -/
def strobe (P : Params) (s : State) : State × Dat :=
  let mf := firMf P s s.str.idx.toNat
  let dmf := firDmf P s s.str.idx.toNat
  let e := timingError mf dmf
  let q := timingFilter (sel s.bw s.cfg.strA) (sel s.bw s.cfg.strB) s.str.q.toInt e
  let soft := sat 32 (s.str.soft.toInt + q)
  ({ s with str := timingOf q (wrapIdx (cfgBanks s.cfg) soft (cfgSps s.cfg)) }, mf)

/-- `str_timer <- str_timer - 1` (R226). -/
def timerTick (s : State) : State :=
  { s with str := { s.str with timer := BitVec.ofInt 32 (s.str.timer.toInt - 1) } }

/-- `str_step(z)` (R226): the symbol is present exactly on a strobe. -/
def strStep (P : Params) (z : Dat) (s : State) : State × Option Dat :=
  let s1 := dlPush z s
  if s1.str.timer.toInt ≤ 0 then
    let r := strobe P s1
    (timerTick r.1, some r.2)
  else (timerTick s1, none)

/-- `timing_seed()` (R227). -/
def timingSeed (s : State) : State :=
  { s with
    dl := memClear s.dl 0 s.der.taps.toNat
    str := timingOf 0 (wrapIdx (cfgBanks s.cfg) (s.est.tau.toInt * cfgBanks s.cfg) (cfgHdrDly s.cfg)) }

end Sys2Proof.Machine
end

