-- ==== Sys2Proof/Machine/Frame.lean ====
section
/-! DEFINITION. The frame state machine's completions: symbols into buffers, header parsing, buffer growth, payload
decoding and the event record (46_frame_fsm.md, 47_collaborators_events.md). -/

namespace Sys2Proof.Machine

/-- The kinds of event record (R301, R303). -/
inductive EventKind where
  | frameComplete
  | headerFailed
  | unsupported
  | growthFailed
deriving DecidableEq, Repr

/-- The `kind` field (R301). -/
def kindBits : EventKind → BitVec 4
  | .frameComplete => 0
  | .headerFailed => 1
  | .unsupported => 2
  | .growthFailed => 3

/-- The header fields of W0: zero in a record of kind 1, which does not leak an older frame's values (R301, R302). -/
def eventFields (k : EventKind) (h : FrameRegs) : FrameRegs :=
  match k with
  | .headerFailed => hdrReset
  | .frameComplete => h
  | .unsupported => h
  | .growthFailed => h

/-- W0 (R301). -/
def eventW0 (k : EventKind) (hv pv pp : Bool) (h : FrameRegs) : Word :=
  let f := eventFields k h
  0#8 ++ f.ver ++ 0#3 ++ f.fec1 ++ f.fec0 ++ f.crc ++ (f.bps - 1).setWidth 3 ++ f.mod ++ f.len ++ 0#1 ++
    BitVec.ofBool pp ++ BitVec.ofBool pv ++ BitVec.ofBool hv ++ kindBits k

/-- `event(kind, header_valid, payload_valid, payload_present)` from the registers as they stand (R302). -/
def buildEvent (k : EventKind) (hv pv pp : Bool) (s : State) : Event :=
  { w0 := eventW0 k hv pv pp s.hdr
    w1 := s.nco.nu ++ s.agcLvl
    w2 := s.evm.acc
    w3 := s.frameCnt ++ s.evm.cnt }

/-- The end of a frame: `fsm <- RESET`, and its one event (R253, R262, R263). -/
def endFrame (k : EventKind) (hv pv pp : Bool) (s : State) : State :=
  emit (buildEvent k hv pv pp s) { s with fsm := .reset }

/-- Bit `t` from the top of byte `j` of the packed symbols (R252). -/
def packBit (sym : Nat → Byte) (bps j t : Nat) : Bool :=
  let p := 8 * j + t
  (sym (p / bps)).getLsbD (bps - 1 - p % bps)

/-- Byte `j` of the packed symbols, first bit highest (R252). -/
def packByte (sym : Nat → Byte) (bps j : Nat) : Byte :=
  BitVec.ofBool (packBit sym bps j 0) ++ BitVec.ofBool (packBit sym bps j 1) ++ BitVec.ofBool (packBit sym bps j 2) ++
    BitVec.ofBool (packBit sym bps j 3) ++ BitVec.ofBool (packBit sym bps j 4) ++ BitVec.ofBool (packBit sym bps j 5) ++
    BitVec.ofBool (packBit sym bps j 6) ++ BitVec.ofBool (packBit sym bps j 7)

/-- `pack(SYM, bps, nbytes)` (R252). -/
def pack (sym : Nat → Byte) (bps n : Nat) : Bytes n := ⟨(List.range n).map (packByte sym bps), by simp⟩

/-- The header transform chain: deinterleave, FEC-decode, descramble (R253, R107). -/
def headerBytes (P : Params) (s : State) : List Byte :=
  let el := cfgEncBytes s.cfg
  let out := cfgDecBytes s.cfg + cfgKeyBytes s.cfg
  let enc := P.intlvDepermute el (pack (hsymAt s) (cfgHdrBps s.cfg).toNat el)
  (P.scrApply out (P.hdrFecDecode enc.toList out)).toList

/-- The field extraction of R106, `U` user bytes; `p_enc` and `p_nsym` are kept. -/
def parseHeader (u : Nat) (hdr : List Byte) (old : FrameRegs) : FrameRegs :=
  let b (i : Nat) : Byte := hdr.getD (u + i) 0
  { len := b 0 ++ b 1
    mod := (b 2).extractLsb' 3 5
    bps := ((b 2).extractLsb' 0 3).setWidth 4 + 1
    crc := (b 3).extractLsb' 5 3
    fec0 := (b 3).extractLsb' 0 5
    fec1 := (b 4).extractLsb' 0 5
    ver := b 5
    enc := old.enc
    nsym := old.nsym }

/-- `usat_32(ceildiv(8 * p_enc, p_bps))` (R257). -/
def symbolCount (enc bps : Nat) : Nat := min (2 ^ 32 - 1) (ceildiv (8 * enc) bps)

/-- The sizes of R257 put into the frame registers. -/
def sizeFrame (P : Params) (h : FrameRegs) : FrameRegs :=
  let enc := P.pktEncLen h.len h.crc h.fec0 h.fec1
  { h with enc := enc, nsym := BitVec.ofNat 32 (symbolCount enc.toNat h.bps.toNat) }

/-- A need above the physical size of a payload buffer (R258). -/
def growthFails (P : Params) (h : FrameRegs) : Bool :=
  P.paysymMax < h.nsym.toNat || P.payencMax < h.enc.toNat || P.paydecMax < h.len.toNat

/-- One capacity of `grow()` (R259). -/
def growCap (cap need : BitVec 32) : BitVec 32 := if cap.toNat < need.toNat then need else cap

/-- `grow()` (R259): each capacity raised to its need, the new entries 0. -/
def grow (s : State) : State :=
  { s with
    psym := memClear s.psym s.cap.sym.toNat s.hdr.nsym.toNat
    penc := memClear s.penc s.cap.enc.toNat s.hdr.enc.toNat
    pdec := memClear s.pdec s.cap.dec.toNat s.hdr.len.toNat
    cap :=
      { sym := growCap s.cap.sym s.hdr.nsym
        enc := growCap s.cap.enc s.hdr.enc
        dec := growCap s.cap.dec (s.hdr.len.setWidth 32) } }

/-- The encoded payload, packed (R262). -/
def payloadBytes (s : State) : Bytes s.hdr.enc.toNat := pack (psymAt s) s.hdr.bps.toNat s.hdr.enc.toNat

/-- What the packetizer answers for the payload in hand (R262). -/
def decodePayload (P : Params) (s : State) : Bytes s.hdr.len.toNat × Bool :=
  P.pktDecode (payloadBytes s).toList s.hdr.len s.hdr.crc s.hdr.fec0 s.hdr.fec1

/-- PENC and PDEC written with the encoded and the decoded payload (R262). -/
def storePayload (enc dec : List Byte) (s : State) : State :=
  { s with
    penc := memSetRange 0 s.penc 0 s.hdr.enc.toNat (fun i => enc.getD i 0)
    pdec := memSetRange 0 s.pdec 0 s.hdr.len.toNat (fun i => dec.getD i 0) }

/-- `payload_complete()` (R262). -/
def payloadComplete (P : Params) (s : State) : State :=
  endFrame .frameComplete true (decodePayload P s).2 true
    (storePayload (payloadBytes s).toList (decodePayload P s).1.toList s)

/-- HDEC written with the decoded header bytes, valid or not (R253, R254). -/
def storeHeader (hdr : List Byte) (s : State) : State :=
  { s with hdec := memSetRange 0 s.hdec 0 (cfgDecBytes s.cfg) fun i => hdr.getD i 0 }

/-- The verdict on the decoded header (R253). -/
def headerValid (P : Params) (s : State) : Bool :=
  P.crcValidate ((headerBytes P s).take (cfgDecBytes s.cfg)) ((headerBytes P s).drop (cfgDecBytes s.cfg))

/-- The header as parsed when its check value is right (R253, R255). -/
def parsed (P : Params) (s : State) : FrameRegs :=
  parseHeader (cfgUserBytes s.cfg) ((headerBytes P s).take (cfgDecBytes s.cfg)) s.hdr

/-- The identifiers of a header are supported (R256). -/
def supported (P : Params) (h : FrameRegs) : Bool := P.modSupported h.mod h.bps && P.codecSupported h.crc h.fec0 h.fec1

/-- The state with the decoded header in HDEC (R253, R254). -/
def withHeader (P : Params) (s : State) : State := storeHeader ((headerBytes P s).take (cfgDecBytes s.cfg)) s

/-- The frame registers written. -/
def setHdr (h : FrameRegs) (s : State) : State := { s with hdr := h }

/-- `F_UNSUP <- 1` (R256). -/
def flagUnsup (s : State) : State := { s with fUnsup := true }

/-- `F_GROWTH <- 1` (R258). -/
def flagGrowth (s : State) : State := { s with fGrowth := true }

/-- `sym_cnt <- 0 ; fsm <- RXPAYLOAD` (R253). -/
def openPayload (s : State) : State := { s with symCnt := 0, fsm := .rxpayload }

/-- The rest of `header_complete` once the sizes are known and within the buffers: growth, RXPAYLOAD, and the
completion in the same step of a payload of no symbols (R253, R259, R260). -/
def startPayload (P : Params) (s : State) : State × Bool :=
  if s.hdr.nsym = 0 then (payloadComplete P (openPayload (grow s)), true) else (openPayload (grow s), false)

/-- `header_complete()` (R253): the state, and whether it emitted its event. -/
def headerComplete (P : Params) (s : State) : State × Bool :=
  if headerValid P s then
    if supported P (parsed P s) then
      if growthFails P (sizeFrame P (parsed P s)) then
        (endFrame .growthFailed true false false (flagGrowth (setHdr (sizeFrame P (parsed P s)) (withHeader P s))), true)
      else startPayload P (setHdr (sizeFrame P (parsed P s)) (withHeader P s))
    else (endFrame .unsupported false false false (flagUnsup (setHdr (parsed P s) (withHeader P s))), true)
  else (endFrame .headerFailed false false false (withHeader P s), true)

/-- The accumulation of one symbol's squared error (R251). -/
def evmAdd (err2 : BitVec 32) (s : State) : State :=
  { s with evm := { acc := s.evm.acc + err2.setWidth 64, cnt := s.evm.cnt + 1 } }

/-- The loop and the quality accumulators after a symbol of which the modem said `d` (R251). -/
def demodded (d : Demod) (s : State) : State := evmAdd d.err2 (pllStep d.perr s)

/-- `HSYM[sym_cnt] <- sym ; sym_cnt <- sym_cnt + 1` (R251). -/
def storeHdrSym (sym : Byte) (s : State) : State :=
  { s with hsym := memWrite 0 s.hsym s.symCnt.toNat sym, symCnt := s.symCnt + 1 }

/-- `PSYM[sym_cnt] <- sym ; sym_cnt <- sym_cnt + 1` (R251). -/
def storePaySym (sym : Byte) (s : State) : State :=
  { s with psym := memWrite 0 s.psym s.symCnt.toNat sym, symCnt := s.symCnt + 1 }

/-- `on_symbol(s)` in RXHEADER (R251): the state, and whether it emitted an event. -/
def onHdrSym (P : Params) (y : Dat) (s : State) : State × Bool :=
  let d := P.modem (cfgHdrScheme s.cfg) (cfgHdrBps s.cfg) y
  let t := storeHdrSym d.sym (demodded d s)
  if t.symCnt.toNat = cfgHdrSyms t.cfg then headerComplete P t else (t, false)

/-- `on_symbol(s)` in RXPAYLOAD (R251): the state, and whether it emitted an event. -/
def onPaySym (P : Params) (y : Dat) (s : State) : State × Bool :=
  let d := P.modem s.hdr.mod s.hdr.bps y
  let t := storePaySym d.sym (demodded d s)
  if t.symCnt = t.hdr.nsym then (payloadComplete P t, true) else (t, false)

/-- `on_symbol(s)` (R251). -/
def onSymbol (P : Params) (y : Dat) (s : State) : State × Bool :=
  if s.fsm = .rxheader then onHdrSym P y s else onPaySym P y s

/-- The three seeds of a detection (R250). -/
def seedLoops (s : State) : State := agcSeed (timingSeed (carrierSeed s))

/-- The loops closed, the counters at 0, RXHEADER, one more frame (R250). -/
def enterHeader (s : State) : State :=
  { s with
    bw := .closedBw
    symCnt := 0
    evm := ⟨0, 0⟩
    sq := { cnt := 0, closed := s.sq.closed }
    fsm := .rxheader
    frameCnt := s.frameCnt + 1 }

/-- `on_detect()` (R250). -/
def onDetect (s : State) : State := enterHeader (seedLoops s)

end Sys2Proof.Machine
end

