-- ==== Sys2Proof/Machine/Squelch.lean ====
section
/-! DEFINITION. The squelch (45_squelch.md). -/

namespace Sys2Proof.Machine

/-- The count after one more sample below the threshold, saturating (R237, R238). -/
def sqCount (cnt : BitVec 32) : BitVec 32 := BitVec.ofNat 32 (min (cnt.toNat + 1) (2 ^ 32 - 1))

/-- A sample below the threshold while not squelched (R237, R238): counts it, and at the timeout closes the squelch
and resets the acquisition loops. -/
def sqBelow (s : State) : State :=
  if cfgSqTimeout s.cfg ≤ (sqCount s.sq.cnt).toNat then
    acqReset { s with sq := { cnt := sqCount s.sq.cnt, closed := true } }
  else { s with sq := { cnt := sqCount s.sq.cnt, closed := s.sq.closed } }

/-- `squelch_update()` (R237). -/
def squelchUpdate (s : State) : State :=
  if s.agcLvl.toNat < cfgSqThresh s.cfg then
    if s.sq.closed then s else sqBelow s
  else if cfgSqThresh s.cfg < s.agcLvl.toNat then { s with sq := { cnt := 0, closed := false } }
  else { s with sq := { cnt := 0, closed := s.sq.closed } }

end Sys2Proof.Machine
end

