-- ==== Sys2Proof/Machine/Push.lean ====
section
/-! DEFINITION. The PUSH command (46_frame_fsm.md R245). -/

namespace Sys2Proof.Machine

/-- What a PUSH reports beside the state (R100). -/
structure PushFlags where
  det : Bool
  strobe : Bool
  evt : Bool
deriving DecidableEq, Repr

/-- The `data` of an OK response to PUSH (R100). -/
def pushData (f : PushFlags) (q : Fsm) : BitVec 32 :=
  0#27 ++ fsmCode q ++ BitVec.ofBool f.evt ++ BitVec.ofBool f.strobe ++ BitVec.ofBool f.det

/-- `fsm <- DETECT` (R261). -/
def toDetect (s : State) : State := { s with fsm := .detect }

/-- RESET, left by the next PUSH before it handles its sample (R261). -/
def leaveReset (s : State) : State := if s.fsm = .reset then toDetect (acqReset s) else s

/-- A sample in DETECT (R247): the squelch gates the detector on the same sample. -/
def detectSample (P : Params) (x : Smp) (s : State) : State × PushFlags :=
  let s1 := squelchUpdate s
  if s1.sq.closed then (s1, ⟨false, false, false⟩)
  else
    let r := detectorStep P x s1
    if r.2 then (onDetect r.1, ⟨true, false, false⟩) else (r.1, ⟨false, false, false⟩)

/-- A sample in RXHEADER or RXPAYLOAD (R248): gain, mixer, timing unit, and on a strobe the symbol. -/
def frameSample (P : Params) (x : Smp) (s : State) : State × PushFlags :=
  let y := agcApply (agcGain s.agcLvl.toNat) x
  let z := ncoMixed P y s
  let r := strStep P z (ncoAdvance s)
  match r.2 with
  | none => (r.1, ⟨false, false, false⟩)
  | some sym =>
    let u := onSymbol P sym r.1
    (u.1, ⟨false, true, u.2⟩)

/-- The action of an accepted PUSH (R245). -/
def pushSample (P : Params) (x : Smp) (s : State) : State × PushFlags :=
  let s1 := agcTrack x (leaveReset s)
  if s1.fsm = .detect then detectSample P x s1 else frameSample P x s1

/-- PUSH (R245), with the build's parameters as an argument. -/
def pushWith (P : Params) (x : Smp) (s : State) : State :=
  if running s then
    let r := pushSample P x s
    respond .ok (pushData r.2 r.1.fsm) r.1
  else raise .errState s

/-- PUSH (R245). -/
def execPush (re im : BitVec 16) (s : State) : Host.Outcome State Fault Refusal :=
  .next (pushWith build (smpOf re im) s)

end Sys2Proof.Machine
end

