-- ==== Sys2Proof/Machine/Dispatch.lean ====
section
/-! DEFINITION. The dispatch: one meaning per command. -/

namespace Sys2Proof.Machine

def exec (i : Instr) (s : State) : Host.Outcome State Fault Refusal :=
  match i with
  | .nop => Sys2Proof.Machine.execNop s
  | .init => Sys2Proof.Machine.execInit s
  | .srst => Sys2Proof.Machine.execSrst s
  | .dstr => Sys2Proof.Machine.execDstr s
  | .wrcfg addr data => Sys2Proof.Machine.execWrcfg addr data s
  | .wrref addr re im => Sys2Proof.Machine.execWrref addr re im s
  | .wrmf bank tap coef => Sys2Proof.Machine.execWrmf bank tap coef s
  | .wrdmf bank tap coef => Sys2Proof.Machine.execWrdmf bank tap coef s
  | .rdreg addr => Sys2Proof.Machine.execRdreg addr s
  | .rdref addr => Sys2Proof.Machine.execRdref addr s
  | .rdmf bank tap => Sys2Proof.Machine.execRdmf bank tap s
  | .rddmf bank tap => Sys2Proof.Machine.execRddmf bank tap s
  | .rdhdr addr => Sys2Proof.Machine.execRdhdr addr s
  | .rdpay addr => Sys2Proof.Machine.execRdpay addr s
  | .push re im => Sys2Proof.Machine.execPush re im s

end Sys2Proof.Machine
end

