-- ==== Sys2Proof/Machine/Step.lean ====
section
/-! DEFINITION. One step: the host's next input, a command (R103) or the hardware reset (R361). -/

namespace Sys2Proof.Machine

/-- One step (R70, R103). The next input of the command port is taken; an ILLEGAL word answers ERR_OPCODE and
changes nothing (R102); with nothing pending the core holds its state and its ports are idle (R347). -/
def step (s : State) : Host.Outcome State Fault Refusal :=
  match s.inputs with
  | [] => .next (waitForCommand s)
  | .hreset :: rest => .next (hardReset rest s)
  | .command w :: rest =>
    match decode w with
    | .ok i => exec i (beginCommand rest s)
    | .error _ => .next (answerIllegal (beginCommand rest s))

/-- The word of an opcode-table row put where the next step takes its command: at the head of the command port. -/
def State.withFetchWord (s : State) (nbits w : Nat) : State :=
  { s with inputs := .command (BitVec.ofNat 64 (w % 2 ^ nbits)) :: s.inputs }

end Sys2Proof.Machine
end

