-- ==== Sys2Proof/Safety.lean ====
section
/-! DEFINITION. What a sound state of the core is: the invariants R57 lists, with the ones the other rules state
between steps, for the parameters `P` of a build. -/

namespace Sys2Proof.Machine

/-- Every listed index of a memory is below `b` (R60: the physical size). -/
abbrev MemBelow {α : Type} (b : Nat) (m : Mem α) : Prop := ∀ c ∈ m, c.1 < b

/-- No bit outside its mask is set in a configuration register (R30 to R49). -/
def CfgMasked (c : Cfg) : Prop := ∀ r : CfgReg, cfgGet c r &&& cfgMask r = cfgGet c r

/-- The loaded tables list entries of REF, MF and DMF only, in their canonical form (R60, R96). -/
structure TablesOk (P : Params) (s : State) : Prop where
  refSorted : MemSorted s.ref
  mfSorted : MemSorted s.mf
  dmfSorted : MemSorted s.dmf
  refBelow : MemBelow P.nMax s.ref
  mfIn : ∀ c ∈ s.mf, c.1 / 256 < P.npfbMax ∧ c.1 % 256 < P.tapsMax
  dmfIn : ∀ c ∈ s.dmf, c.1 / 256 < P.npfbMax ∧ c.1 % 256 < P.tapsMax

/-- The core's own buffers are in canonical form and within their sizes (R60). -/
structure BuffersOk (P : Params) (s : State) : Prop where
  winWf : MemWf Smp.zero s.win
  dlWf : MemWf Dat.zero s.dl
  hsymWf : MemWf 0 s.hsym
  psymWf : MemWf 0 s.psym
  pencWf : MemWf 0 s.penc
  hdecWf : MemWf 0 s.hdec
  pdecWf : MemWf 0 s.pdec
  winBelow : MemBelow P.nMax s.win
  dlBelow : MemBelow P.tapsMax s.dl
  hsymBelow : MemBelow P.hsymMax s.hsym
  psymBelow : MemBelow P.paysymMax s.psym
  pencBelow : MemBelow P.payencMax s.penc
  hdecBelow : MemBelow P.hbufMax s.hdec
  pdecBelow : MemBelow P.paydecMax s.pdec

/-- What holds of the registers in every status: the ranges of R28, R29 and R224, the capacities within the buffers
(R258), the squelch closed only in DETECT (R57), the zeros a DETECT state keeps (R247), the bandwidth flag (R57). -/
structure RegsOk (P : Params) (s : State) : Prop where
  tauLo : -2 ^ 23 ≤ s.est.tau.toInt
  tauHi : s.est.tau.toInt ≤ 2 ^ 23 - 1
  bpsPos : 1 ≤ s.hdr.bps.toNat
  bpsLe : s.hdr.bps.toNat ≤ 8
  capSym : s.cap.sym.toNat ≤ P.paysymMax
  capEnc : s.cap.enc.toNat ≤ P.payencMax
  capDec : s.cap.dec.toNat ≤ P.paydecMax
  hardIndex : hardIdx s.str.soft.toInt = s.str.idx.toNat
  bwClosed : s.bw = .closedBw ↔ s.fsm ≠ .detect
  squelched : s.sq.closed = true → s.fsm = .detect ∧ s.det = detReset
  detectZero : s.fsm = .detect → s.nco = ⟨0, 0⟩ ∧ s.str = ⟨0, 0, 0, 0⟩ ∧ s.symCnt = 0 ∧ s.evm = ⟨0, 0⟩
  dlZero : s.fsm = .detect → ∀ j < s.der.taps.toNat, dlAt s j = Dat.zero
  seeking : s.fsm ≠ .detect → s.det.mode = .seek

/-- What R57 and the rules it names say of status RUN. -/
structure RunOk (P : Params) (s : State) : Prop where
  legal : configCheck P s = 0
  derived : s.der = derive P s
  noCause : s.cfgCause = 0
  wptrLt : s.det.wptr.toNat < cfgWindow s.cfg
  energy : s.det.ex.toNat = nsum (fun i => mag2 (winAt s i).cx) (cfgWindow s.cfg)
  ageLt : s.det.mode = .findPeak → s.det.age.toNat < cfgDebounce s.cfg
  idxLt : s.str.idx.toNat < cfgBanks s.cfg
  nuLo : -(cfgNcoFmax s.cfg : Int) ≤ s.nco.nu.toInt
  nuHi : s.nco.nu.toInt ≤ cfgNcoFmax s.cfg
  headerCnt : s.fsm = .rxheader → s.symCnt.toNat < cfgHdrSyms s.cfg ∧ s.evm.cnt = s.symCnt
  payloadCnt : s.fsm = .rxpayload → s.symCnt.toNat < s.hdr.nsym.toNat ∧
    s.evm.cnt = BitVec.ofNat 32 (cfgHdrSyms s.cfg) + s.symCnt
  payloadFits : s.fsm = .rxpayload → s.hdr.nsym.toNat ≤ s.cap.sym.toNat ∧ s.hdr.enc.toNat ≤ s.cap.enc.toNat ∧
    s.hdr.len.toNat ≤ s.cap.dec.toNat

/-- What holds outside RUN: no object is constructed, and every run register is as `run_init` leaves it (R52, R56). -/
structure IdleOk (s : State) : Prop where
  cause : s.cfgCause = 0 ↔ s.status = .uninit
  detect : s.fsm = .detect
  level : s.agcLvl = 0
  squelch : s.sq = ⟨0, false⟩
  detector : s.det = detReset
  estimate : s.est = ⟨0, 0, 0⟩
  frame : s.hdr = hdrReset
  noCap : s.cap = ⟨0, 0, 0⟩
  noDerived : s.der = ⟨0, 0, 0, 0⟩

/-- A sound state (R57). -/
structure Sound (P : Params) (s : State) : Prop where
  masked : CfgMasked s.cfg
  tables : TablesOk P s
  buffers : BuffersOk P s
  regs : RegsOk P s
  run : s.status = .run → RunOk P s
  idle : s.status ≠ .run → IdleOk s

/-! ### The checks of a command, in their order (R330) -/

/-- Which status accepts which command: the table of R121. -/
def statusAccepts : Instr → Status → Bool
  | .nop, _ => true
  | .init, st => st != .run
  | .srst, st => st == .run
  | .dstr, st => st != .uninit
  | .wrcfg _ _, st => st != .run
  | .wrref _ _ _, st => st != .run
  | .wrmf _ _ _, st => st != .run
  | .wrdmf _ _ _, st => st != .run
  | .rdreg _, _ => true
  | .rdref _, _ => true
  | .rdmf _ _, _ => true
  | .rddmf _ _, _ => true
  | .rdhdr _, st => st == .run
  | .rdpay _, st => st == .run
  | .push _ _, st => st == .run

/-- An address of a configuration register (R96, R130). -/
def configAddress (addr : BitVec 16) : Bool :=
  addr.toNat ≤ 0x0D || (0x10 ≤ addr.toNat && addr.toNat ≤ 0x15)

/-- An address RDREG accepts (R96, R134). -/
def readableAddress (addr : BitVec 16) : Bool := configAddress addr || (0x40 ≤ addr.toNat && addr.toNat ≤ 0x68)

/-- The address check of a command: the table of R96. -/
def addressAccepts (P : Params) (s : State) : Instr → Bool
  | .wrcfg addr _ => configAddress addr
  | .rdreg addr => readableAddress addr
  | .wrref addr _ _ => addr.toNat < P.nMax
  | .rdref addr => addr.toNat < P.nMax
  | .wrmf bank tap _ => bank.toNat < P.npfbMax && tap.toNat < P.tapsMax
  | .wrdmf bank tap _ => bank.toNat < P.npfbMax && tap.toNat < P.tapsMax
  | .rdmf bank tap => bank.toNat < P.npfbMax && tap.toNat < P.tapsMax
  | .rddmf bank tap => bank.toNat < P.npfbMax && tap.toNat < P.tapsMax
  | .rdhdr addr => addr.toNat < cfgUserBytes s.cfg + 6
  | .rdpay addr => addr.toNat < s.cap.dec.toNat
  | .nop => true
  | .init => true
  | .srst => true
  | .dstr => true
  | .push _ _ => true

/-- The code of a decoded command's response: the first check that fails gives it (R330). -/
def answerCode (P : Params) (i : Instr) (s : State) : Code :=
  if statusAccepts i s.status then
    if addressAccepts P s i then if i = .init ∧ configCheck P s ≠ 0 then .errCfg else .ok else .errAddr
  else .errState

/-- Every test of `config_check` but the one that asks the modem (R124). -/
def geometryOk (P : Params) (s : State) : Bool :=
  2 ≤ cfgSps s.cfg && !badFilter P s.cfg && !badPreamble P s.cfg && !badBanks P s.cfg && !badEnergy P s &&
    !badHeader P s.cfg && cfgDebounce s.cfg != 0

/-! ### What the reset procedures leave (R56) -/

/-- The run registers as `acq_reset` leaves them (R126). -/
def AcqFresh (t : State) : Prop :=
  t.bw = .openBw ∧ t.nco = ⟨0, 0⟩ ∧ t.str = ⟨0, 0, 0, 0⟩ ∧ t.symCnt = 0 ∧ t.evm = ⟨0, 0⟩ ∧ t.det = detReset

/-- The run registers as `run_init` leaves them (R125). -/
def RunFresh (t : State) : Prop :=
  AcqFresh t ∧ t.agcLvl = 0 ∧ t.sq = ⟨0, false⟩ ∧ t.fsm = .detect ∧ t.est = ⟨0, 0, 0⟩ ∧ t.hdr = hdrReset

/-- A memory read of `t` is `z` below `n` and what `s` reads from `n` on. -/
def ClearedBelow {α : Type} (n : Nat) (z : α) (before after : Nat → α) : Prop :=
  ∀ i, after i = if i < n then z else before i

/-- Nothing the host loads, and no port but the response, differs. -/
def SameTables (s t : State) : Prop :=
  t.cfg = s.cfg ∧ t.ref = s.ref ∧ t.mf = s.mf ∧ t.dmf = s.dmf ∧ t.inputs = s.inputs ∧ t.hresets = s.hresets

/-! ### The formulas of the estimators and filters, over sums of integers -/

/-- The real lane of `rA`, `rB` or `r`: the sum over `i` in `[a, b)` of `w[i] * conj(REF[i])`, the window in time
order from its oldest entry (R153, R154). -/
def corrRe (P : Params) (u : State) (a b : Nat) : Int :=
  ∑ i ∈ Finset.Ico a b,
    let w := winAt u ((u.det.wptr.toNat + i) % u.der.n.toNat)
    let r := refAt P u i
    w.re.toInt * r.re.toInt + w.im.toInt * r.im.toInt

/-- The imaginary lane of the same sum (R154). -/
def corrIm (P : Params) (u : State) (a b : Nat) : Int :=
  ∑ i ∈ Finset.Ico a b,
    let w := winAt u ((u.det.wptr.toNat + i) % u.der.n.toNat)
    let r := refAt P u i
    w.im.toInt * r.re.toInt - w.re.toInt * r.im.toInt

/-- `v` is `ARGN(re, im)` (R17): 0 at the origin, else `ARG` of the two components scaled so that the larger, of
`b + 1` bits, has 30. -/
def ScaledArg (P : Params) (re im : Int) (v : BitVec 32) : Prop :=
  (re = 0 → im = 0 → v = 0) ∧
  ∀ b : Nat, 2 ^ b ≤ max |re| |im| → max |re| |im| < 2 ^ (b + 1) →
    v = if 30 ≤ b then P.arg (re / 2 ^ (b - 29)) (im / 2 ^ (b - 29)) else P.arg (re * 2 ^ (29 - b)) (im * 2 ^ (29 - b))

/-- `m` is what the detector measures of the window of `u`: `rho2` (R156), `rho` (R157), `dphi` (R159 to R161) and
`gamma` (R162) of the two half correlations (R154). -/
def Measured (P : Params) (u : State) (m : Metric) : Prop :=
  let n := u.der.n.toNat
  let ex : Int := u.det.ex.toNat
  let es : Int := u.der.es.toNat
  let ar := corrRe P u 0 (n / 2)
  let ai := corrIm P u 0 (n / 2)
  let br := corrRe P u (n / 2) n
  let bi := corrIm P u (n / 2) n
  let r2 := (ar + br) ^ 2 + (ai + bi) ^ 2
  (m.rho2 : Int) = (if ex * es = 0 then 0 else r2 * 2 ^ 32 / (ex * es)) ∧
  m.rho ^ 2 ≤ m.rho2 * 2 ^ 16 ∧ m.rho2 * 2 ^ 16 < (m.rho + 1) ^ 2 ∧
  (∃ phi, ScaledArg P (br * ar + bi * ai) (bi * ar - br * ai) phi ∧ m.dphi = Int.fdiv (2 * phi.toInt) n) ∧
  ∃ g : Nat, (g : Int) ^ 2 ≤ r2 * 2 ^ 48 / (es * es) ∧ r2 * 2 ^ 48 / (es * es) < ((g : Int) + 1) ^ 2 ∧
    m.gamma = min (2 ^ 32 - 1) g

/-- `sat_24(rnd(v, n))` (R12): the rounding and saturation that end every `dat` lane. -/
def roundedLane (v : Int) (n : Nat) : Int := max (-2 ^ 23) (min (2 ^ 23 - 1) ((v + 2 ^ (n - 1)) / 2 ^ n))

/-- A lane is the inner product of the coefficients `c` with the lane `d` of the delay line over `n` taps (R218). -/
def FirLane (c : Nat → Coef) (d : Nat → BitVec 24) (n : Nat) (lane : BitVec 24) : Prop :=
  lane.toInt = roundedLane (∑ j ∈ Finset.range n, (c j).toInt * (d j).toInt) 14

/-! ### Runs of samples -/

/-- The state after the samples `xs` were pushed one by one (R111 EXEC). -/
def pushAll (P : Params) : List Smp → State → State
  | [], s => s
  | x :: xs, s => pushAll P xs (pushSample P x s).1

/-- The state with a further block of inputs delivered behind the pending ones (R70). -/
def deliver (ys : List Input) (s : State) : State := { s with inputs := s.inputs ++ ys }

/-- The state with another value in `BETA` (R32). -/
def withBeta (v : BitVec 32) (s : State) : State := { s with cfg := { s.cfg with beta := v } }

/-- The level after the tracker saw a sample (R181). -/
def levelAfter (x : Smp) (s : State) : BitVec 32 := (agcTrack x s).agcLvl

/-- The sample the timing unit takes in a frame, scaled by the new level's gain and mixed (R184, R196). -/
def timingInput (P : Params) (x : Smp) (s : State) : Dat :=
  let t := P.sincos s.nco.theta
  mixWith t.1.toInt t.2.toInt (agcApply (agcGain (levelAfter x s).toNat) x)

/-- The strobe of a frame sample: the state before the modem is asked, and the symbol (R226). -/
def strobeOf (P : Params) (x : Smp) (s : State) : State × Dat :=
  let r := strobe P (dlPush (timingInput P x s) (ncoAdvance (agcTrack x s)))
  (timerTick r.1, r.2)

end Sys2Proof.Machine
end

