-- ==== Sys2Proof/Certificates/Slice0/Obligations.lean ====
section
/-! DEFINITION. The statements for the provers, from the numbered rules of spec/. -/

open Sys2Proof Sys2Proof.Machine

/-! ### Encoding -/

/-- R90 to R97, R101: the decoder reads every command back from its word, every operand at every value, and a word
that decodes is the one encoding of its command. -/
def Obligations.DecodeAndEncodeAgree : Prop :=
  (∀ i : Instr, i.wellFormed = true → decode (encode i) = .ok i) ∧
  ∀ (w : Word) (i : Instr), decode w = .ok i → encode i = w

/-- R101 to R103: the words that decode are those a row of the opcode map accepts; an unassigned opcode and a set
reserved bit are told apart; no two rows share an opcode. -/
def Obligations.LegalWordsAreTheOpcodeMap : Prop :=
  (∀ w : Word, (∃ i, decode w = .ok i) ↔ ∃ r ∈ opTable, r.accepts w = true) ∧
  (∀ (w : Word) (i : Instr), decode w = .ok i → i.row ∈ opTable ∧ i.row.accepts w = true) ∧
  (∀ w : Word, decode w = .error .unassignedOpcode ↔ ∀ r ∈ opTable, field w 56 8 ≠ r.opcode) ∧
  (∀ w : Word, decode w = .error .reservedBit ↔ ∃ r ∈ opTable, field w 56 8 = r.opcode ∧ r.accepts w = false) ∧
  opTable.Pairwise fun r q => r.opcode ≠ q.opcode

/-- R110, R122, R131 to R137, R350: words the spec writes out, with the commands they stand for. -/
def Obligations.WrittenWordsDecode : Prop :=
  decode 0x0000000000000000 = .ok .nop ∧ decode 0x1000000500008000 = .ok (.wrcfg 0x05 0x00008000) ∧
  decode 0x11000003C0000000 = .ok (.wrref 3 (-16384) 0) ∧ decode 0x1200010200004000 = .ok (.wrmf 1 2 16384) ∧
  decode 0x130000000000FFFF = .ok (.wrdmf 0 0 (-1)) ∧ decode 0x1800004000000000 = .ok (.rdreg 0x40) ∧
  decode 0x1A00010200000000 = .ok (.rdmf 1 2) ∧ decode 0x200000004000C000 = .ok (.push 16384 (-16384)) ∧
  decode 0x0000000000000001 = .error .reservedBit ∧ decode 0x1001000000000001 = .error .reservedBit ∧
  decode 0x2000000100000000 = .error .reservedBit ∧ decode 0x0400000000000000 = .error .unassignedOpcode

/-- R111: each pseudo-instruction expands to the commands listed for it, element for element, in order. -/
def Obligations.PseudoInstructionsExpand : Prop :=
  Pseudo.reset.expand = [.srst] ∧ Pseudo.create.expand = [.init] ∧ Pseudo.destroy.expand = [.dstr] ∧
  (∀ (xs : List Smp) (n : Nat), (Pseudo.exec xs).expand[n]? = (xs[n]?).map fun x => .push x.re x.im) ∧
  (∀ (vs : List Smp) (n : Nat), (Pseudo.loadref vs).wellFormed = true →
    (Pseudo.loadref vs).expand[n]? = (vs[n]?).map (fun v => .wrref (BitVec.ofNat 16 n) v.re v.im) ∧
      (n < vs.length → (BitVec.ofNat 16 n).toNat = n)) ∧
  (∀ (b : BitVec 8) (cs : List Coef) (n : Nat), (Pseudo.loadmf b cs).wellFormed = true →
    (Pseudo.loadmf b cs).expand[n]? = (cs[n]?).map (fun c => .wrmf b (BitVec.ofNat 8 n) c) ∧
      (n < cs.length → (BitVec.ofNat 8 n).toNat = n)) ∧
  ∀ (b : BitVec 8) (cs : List Coef) (n : Nat), (Pseudo.loaddmf b cs).wellFormed = true →
    (Pseudo.loaddmf b cs).expand[n]? = (cs[n]?).map (fun c => .wrdmf b (BitVec.ofNat 8 n) c) ∧
      (n < cs.length → (BitVec.ofNat 8 n).toNat = n)

/-! ### The step -/

/-- R70, R103: the step takes the next command word, empties the ports and runs the decoded command. -/
def Obligations.StepRunsTheDecodedCommand : Prop :=
  ∀ (s : State) (w : Word) (rest : List Input) (i : Instr), s.inputs = .command w :: rest → decode w = .ok i →
    i.wellFormed = true → step s = exec i { s with inputs := rest, resp := none, evt := none }

/-- R102, R103: an ILLEGAL word answers ERR_OPCODE with data 0 and changes nothing. -/
def Obligations.IllegalWordOnlyAnswers : Prop :=
  ∀ (s : State) (w : Word) (rest : List Input) (e : DecodeError), s.inputs = .command w :: rest →
    decode w = .error e →
    step s = .next { s with inputs := rest, resp := some 0x0100000000000000, evt := none }

/-- R347 and the model's choice of log entry 2: with nothing pending the core holds its state, its ports idle. -/
def Obligations.IdleCoreHoldsItsState : Prop :=
  ∀ s : State, s.inputs = [] → step s = .next { s with resp := none, evt := none }

/-- R361, R56: the hardware reset leaves every register at its reset value; the inputs not yet delivered stay with
the host and the unwritten tables get a new image (log entries 4 and 5). -/
def Obligations.HardwareResetLeavesResetValues : Prop :=
  ∀ (s : State) (rest : List Input), s.inputs = .hreset :: rest → ∃ t, step s = .next t ∧ t.inputs = rest ∧
    t.hresets = s.hresets + 1 ∧ t.resp = none ∧ t.evt = none ∧ t.cfg = cfgReset ∧ t.status = .uninit ∧
    t.cfgCause = 0 ∧ t.fGrowth = false ∧ t.fUnsup = false ∧ t.der = ⟨0, 0, 0, 0⟩ ∧ t.cap = ⟨0, 0, 0⟩ ∧
    t.frameCnt = 0 ∧ RunFresh t

/-- R30 to R50: the register at every configuration address, by name, with its write mask and reset value; what the
rules read from each; and the open and the closed half of a coefficient register (R51). -/
def Obligations.ConfigurationRegisterMap : Prop :=
  (∀ s : State, ∀ c ∈ ([
      (0x00, .k, s.cfg.k, 0x000000FF, 2), (0x01, .m, s.cfg.m, 0x000000FF, 3),
      (0x02, .beta, s.cfg.beta, 0x0000FFFF, 0), (0x03, .npfb, s.cfg.npfb, 0x000000FF, 32),
      (0x04, .plen, s.cfg.plen, 0x0000FFFF, 64), (0x05, .thresh, s.cfg.thresh, 0x0001FFFF, 0x00008000),
      (0x06, .dphiMax, s.cfg.dphiMax, 0x7FFFFFFF, 0x7FFFFFFF), (0x07, .sqThresh, s.cfg.sqThresh, 0xFFFFFFFF, 0),
      (0x08, .sqTimeout, s.cfg.sqTimeout, 0xFFFFFFFF, 0), (0x09, .debounce, s.cfg.debounce, 0x0000FFFF, 1),
      (0x0A, .hdrDly, s.cfg.hdrDly, 0x0000FFFF, 0), (0x0B, .hdrNsym, s.cfg.hdrNsym, 0x0000FFFF, 128),
      (0x0C, .hdrMod, s.cfg.hdrMod, 0x0000071F, 0), (0x0D, .hdrLen, s.cfg.hdrLen, 0xFFFFFFFF, 0x00100208),
      (0x10, .agcAlpha, s.cfg.agcAlpha, 0xFFFFFFFF, 0x01000800), (0x11, .pllAlpha, s.cfg.pllAlpha, 0xFFFFFFFF, 0x04001000),
      (0x12, .pllBeta, s.cfg.pllBeta, 0xFFFFFFFF, 0x00100100), (0x13, .strA, s.cfg.strA, 0xFFFFFFFF, 0x3F803C00),
      (0x14, .strB, s.cfg.strB, 0xFFFFFFFF, 0x04004000), (0x15, .ncoFmax, s.cfg.ncoFmax, 0x7FFFFFFF, 0x20000000) ] :
        List (BitVec 16 × CfgReg × BitVec 32 × BitVec 32 × BitVec 32)),
    cfgRegAt c.1 = some c.2.1 ∧ cfgGet s.cfg c.2.1 = c.2.2.1 ∧ readReg s c.1 = some c.2.2.1 ∧
      cfgMask c.2.1 = c.2.2.2.1 ∧ cfgGet cfgReset c.2.1 = c.2.2.2.2) ∧
  (∀ c : Cfg, cfgSps c = c.k.toNat % 2 ^ 8 ∧ cfgSemi c = c.m.toNat % 2 ^ 8 ∧ cfgBanks c = c.npfb.toNat % 2 ^ 8 ∧
    cfgPreLen c = c.plen.toNat % 2 ^ 16 ∧ cfgThresh c = c.thresh.toNat % 2 ^ 17 ∧
    cfgDphiMax c = c.dphiMax.toNat % 2 ^ 31 ∧ cfgSqThresh c = c.sqThresh.toNat ∧
    cfgSqTimeout c = c.sqTimeout.toNat ∧ cfgDebounce c = c.debounce.toNat % 2 ^ 16 ∧
    cfgHdrDly c = c.hdrDly.toNat % 2 ^ 16 ∧ cfgHdrSyms c = c.hdrNsym.toNat % 2 ^ 16 ∧
    (cfgHdrScheme c).toNat = c.hdrMod.toNat % 2 ^ 5 ∧ (cfgHdrBps c).toNat = c.hdrMod.toNat / 2 ^ 8 % 2 ^ 3 + 1 ∧
    cfgUserBytes c = c.hdrLen.toNat % 2 ^ 8 ∧ cfgKeyBytes c = c.hdrLen.toNat / 2 ^ 8 % 2 ^ 8 ∧
    cfgEncBytes c = c.hdrLen.toNat / 2 ^ 16 ∧ cfgNcoFmax c = c.ncoFmax.toNat % 2 ^ 31) ∧
  ∀ r : BitVec 32, sel .openBw r = r.toNat % 2 ^ 16 ∧ sel .closedBw r = r.toNat / 2 ^ 16

/-- R362: the state after hardware reset as a host reads it. -/
def Obligations.HardwareResetReads : Prop :=
  ∀ (n : Nat) (ins : List Input), let s : State := { State.reset with hresets := n, inputs := ins }
    (∀ addr : BitVec 16, 0x40 ≤ addr.toNat → addr.toNat ≤ 0x68 →
      exec (.rdreg addr) s = .next { s with resp := some (respWord .ok (if addr = 0x42 then 0x10000000 else 0)) }) ∧
    (∀ (addr : BitVec 16) (r : CfgReg), cfgRegAt addr = some r →
      exec (.rdreg addr) s = .next { s with resp := some (respWord .ok (cfgGet cfgReset r)) }) ∧
    (∀ addr : BitVec 16, addr.toNat < build.nMax →
      ∃ v, exec (.rdref addr) s = .next { s with resp := some (respWord .ok v) }) ∧
    (∀ b t : BitVec 8, b.toNat < build.npfbMax → t.toNat < build.tapsMax →
      (∃ v, exec (.rdmf b t) s = .next { s with resp := some (respWord .ok v) }) ∧
      ∃ v, exec (.rddmf b t) s = .next { s with resp := some (respWord .ok v) }) ∧
    (∀ (i : Instr), ((∃ a, i = .rdhdr a) ∨ (∃ a, i = .rdpay a) ∨ (∃ x y, i = .push x y) ∨ i = .srst ∨ i = .dstr) →
      exec i s = .next { s with resp := some 0x0200000000000000 })

/-! ### The common frame of the commands -/

/-- R98, R120, R121, R330: every command ends in one response, whose code is that of the first check that fails. -/
def Obligations.ResponseFollowsTheCheckOrder : Prop :=
  ∀ (i : Instr) (s : State), ∃ t d, exec i s = .next t ∧ t.resp = some (respWord (answerCode build i s) d)

/-- R120, R321, R333: an error response writes no state, but that a failed INIT writes `status` and `cfg_cause`. -/
def Obligations.ErrorAnswersWriteNothing : Prop :=
  ∀ (i : Instr) (s : State),
    (answerCode build i s = .errState → exec i s = .next { s with resp := some 0x0200000000000000 }) ∧
    (answerCode build i s = .errAddr → exec i s = .next { s with resp := some 0x0300000000000000 }) ∧
    (answerCode build i s = .errCfg → exec i s = .next
      { s with
        status := .dead
        cfgCause := configCheck build s
        resp := some (respWord .errCfg ((configCheck build s).setWidth 32)) })

/-- R65, R73: in RUN no command changes the configuration or a loaded table, and only DSTR leaves RUN or changes the
derived constants. -/
def Obligations.ConfigurationIsLockedInRun : Prop :=
  ∀ (i : Instr) (s t : State), s.status = .run → exec i s = .next t →
    SameTables s t ∧ (i ≠ .dstr → t.status = .run ∧ t.der = s.der ∧ t.cfgCause = s.cfgCause)

/-- R300, R320: no command but an accepted PUSH puts a record on the event port. -/
def Obligations.OnlyPushEmits : Prop :=
  ∀ (i : Instr) (s t : State), exec i s = .next t → ((∀ re im, i ≠ .push re im) ∨ s.status ≠ .run) → t.evt = s.evt

/-- R29, R259: no command but DSTR and INIT lowers a capacity. -/
def Obligations.CapacitiesNeverShrink : Prop :=
  ∀ (i : Instr) (s t : State), exec i s = .next t → i ≠ .dstr → i ≠ .init →
    s.cap.sym.toNat ≤ t.cap.sym.toNat ∧ s.cap.enc.toNat ≤ t.cap.enc.toNat ∧ s.cap.dec.toNat ≤ t.cap.dec.toNat

/-! ### Control commands -/

/-- R122: NOP answers OK in every status; the word with a reserved bit set is ILLEGAL. -/
def Obligations.NopOnlyAnswersOk : Prop :=
  (∀ s : State, exec .nop s = .next { s with resp := some 0 }) ∧ decode 0 = .ok .nop ∧
  ∀ (s : State) (rest : List Input), s.inputs = .command 1 :: rest →
    step s = .next { s with inputs := rest, resp := some 0x0100000000000000, evt := none }

/-- R124: every cause bit is its test. -/
def Obligations.ConfigCheckHasOneBitPerCause : Prop :=
  ∀ (P : Params) (s : State),
    let n := cfgPreLen s.cfg * cfgSps s.cfg
    let taps := 2 * cfgSps s.cfg * cfgSemi s.cfg + 1
    let h := cfgHdrSyms s.cfg
    let cause := configCheck P s
    (cause.getLsbD 0 = true ↔ cfgSps s.cfg < 2) ∧
    (cause.getLsbD 1 = true ↔ cfgSemi s.cfg = 0 ∨ taps > P.tapsMax) ∧
    (cause.getLsbD 2 = true ↔ cfgPreLen s.cfg = 0 ∨ n > P.nMax) ∧
    (cause.getLsbD 3 = true ↔ cfgBanks s.cfg = 0 ∨ cfgBanks s.cfg > P.npfbMax) ∧
    (cause.getLsbD 4 = true ↔ n ≤ P.nMax ∧ nsum (fun i => mag2 (refAt P s i).cx) n = 0) ∧
    (cause.getLsbD 5 = true ↔ h = 0 ∨ h > P.hsymMax ∨ cfgEncBytes s.cfg = 0 ∨ cfgEncBytes s.cfg > P.hbufMax ∨
      cfgUserBytes s.cfg + 6 + cfgKeyBytes s.cfg > P.hbufMax ∨
      h ≠ ceildiv (8 * cfgEncBytes s.cfg) (cfgHdrBps s.cfg).toNat) ∧
    (cause.getLsbD 6 = true ↔ P.modSupported (cfgHdrScheme s.cfg) (cfgHdrBps s.cfg) = false) ∧
    (cause.getLsbD 7 = true ↔ cfgDebounce s.cfg = 0)

/-- R123, R52, R125: INIT of a configuration with no other fault constructs the object, or answers the one cause bit
of an unsupported header scheme, as the modem says (log entry 10). That HSYM, PSYM, PENC and PDEC, which R56 calls
unspecified here, are kept is the model's choice (log entry 7). -/
def Obligations.InitConstructsTheObject : Prop :=
  ∀ s : State, s.status ≠ .run → geometryOk build s = true → ∃ t, exec .init s = .next t ∧
    if build.modSupported (cfgHdrScheme s.cfg) (cfgHdrBps s.cfg) = true then
      t.resp = some 0 ∧ t.evt = s.evt ∧ SameTables s t ∧ t.status = .run ∧ t.cfgCause = 0 ∧ t.fGrowth = false ∧
      t.fUnsup = false ∧ t.cap = ⟨0, 0, 0⟩ ∧ t.frameCnt = 0 ∧ RunFresh t ∧
      t.der.n.toNat = cfgPreLen s.cfg * cfgSps s.cfg ∧ t.der.taps.toNat = 2 * cfgSps s.cfg * cfgSemi s.cfg + 1 ∧
      t.der.es.toNat = nsum (fun i => mag2 (refAt build s i).cx) t.der.n.toNat ∧
      t.der.pref.toNat = t.der.es.toNat / 64 / t.der.n.toNat ∧
      ClearedBelow t.der.n.toNat Smp.zero (winAt s) (winAt t) ∧
      ClearedBelow t.der.taps.toNat Dat.zero (dlAt s) (dlAt t) ∧
      ClearedBelow (cfgUserBytes s.cfg + 6) 0 (hdecAt s) (hdecAt t) ∧
      t.hsym = s.hsym ∧ t.psym = s.psym ∧ t.penc = s.penc ∧ t.pdec = s.pdec
    else t = { s with status := .dead, cfgCause := 0x40, resp := some 0x0400000000000040 }

/-- R127: SRST in RUN leaves a fresh object and keeps the configuration, the derived constants, the capacities,
`frame_cnt`, the sticky flags and the decoded bytes. That HSYM, PSYM and PENC, which R56 calls unspecified here, are
kept too is the model's choice (log entry 7). -/
def Obligations.SrstRestartsTheObject : Prop :=
  ∀ s : State, s.status = .run → ∃ t, exec .srst s = .next t ∧ t.resp = some 0 ∧ t.evt = s.evt ∧ SameTables s t ∧
    RunFresh t ∧ t.status = .run ∧ t.cfgCause = s.cfgCause ∧ t.fGrowth = s.fGrowth ∧ t.fUnsup = s.fUnsup ∧
    t.der = s.der ∧ t.cap = s.cap ∧ t.frameCnt = s.frameCnt ∧
    ClearedBelow s.der.n.toNat Smp.zero (winAt s) (winAt t) ∧
    ClearedBelow s.der.taps.toNat Dat.zero (dlAt s) (dlAt t) ∧
    t.hsym = s.hsym ∧ t.psym = s.psym ∧ t.penc = s.penc ∧ t.hdec = s.hdec ∧ t.pdec = s.pdec

/-- R128: DSTR in RUN or DEAD leaves no object; the configuration, the tables, `frame_cnt` and the sticky flags are
kept. That the core's own buffers, which R56 calls unspecified here, are kept is the model's choice (log entry 7). -/
def Obligations.DstrDestroysTheObject : Prop :=
  ∀ s : State, s.status ≠ .uninit → ∃ t, exec .dstr s = .next t ∧ t.resp = some 0 ∧ t.evt = s.evt ∧ SameTables s t ∧
    RunFresh t ∧ t.status = .uninit ∧ t.cfgCause = 0 ∧ t.cap = ⟨0, 0, 0⟩ ∧ t.der = ⟨0, 0, 0, 0⟩ ∧
    t.fGrowth = s.fGrowth ∧ t.fUnsup = s.fUnsup ∧ t.frameCnt = s.frameCnt ∧ t.win = s.win ∧ t.dl = s.dl ∧
    t.hsym = s.hsym ∧ t.psym = s.psym ∧ t.penc = s.penc ∧ t.hdec = s.hdec ∧ t.pdec = s.pdec

/-! ### Access commands -/

/-- R130: WRCFG, in the order of its checks. -/
def Obligations.WrcfgStoresMaskedData : Prop :=
  ∀ (addr : BitVec 16) (data : BitVec 32) (s : State),
    (s.status = .run → exec (.wrcfg addr data) s = .next { s with resp := some (respWord .errState 0) }) ∧
    (s.status ≠ .run → configAddress addr = false →
      exec (.wrcfg addr data) s = .next { s with resp := some (respWord .errAddr 0) }) ∧
    (s.status ≠ .run → configAddress addr = true → ∃ r c, cfgRegAt addr = some r ∧
      exec (.wrcfg addr data) s = .next { s with cfg := c, resp := some (respWord .ok 0) } ∧
      ∀ q, cfgGet c q = if q = r then data &&& cfgMask r else cfgGet s.cfg q)

/-- R131, R129: WRREF, in the order of its checks; every other entry of REF reads as before. -/
def Obligations.WrrefStoresOneEntry : Prop :=
  ∀ (addr re im : BitVec 16) (s : State),
    (s.status = .run → exec (.wrref addr re im) s = .next { s with resp := some (respWord .errState 0) }) ∧
    (s.status ≠ .run → build.nMax ≤ addr.toNat →
      exec (.wrref addr re im) s = .next { s with resp := some (respWord .errAddr 0) }) ∧
    (s.status ≠ .run → addr.toNat < build.nMax → ∃ t, exec (.wrref addr re im) s = .next t ∧
      t = { s with ref := t.ref, resp := some (respWord .ok 0) } ∧
      ∀ i, refAt build t i = if i = addr.toNat then ⟨re, im⟩ else refAt build s i)

/-- R132, R133, R129: WRMF and WRDMF, in the order of their checks; every other coefficient reads as before. -/
def Obligations.WrmfWrdmfStoreOneCoefficient : Prop :=
  ∀ (bank tap : BitVec 8) (coef : BitVec 16) (s : State),
    (s.status = .run →
      exec (.wrmf bank tap coef) s = .next { s with resp := some (respWord .errState 0) } ∧
      exec (.wrdmf bank tap coef) s = .next { s with resp := some (respWord .errState 0) }) ∧
    (s.status ≠ .run → build.npfbMax ≤ bank.toNat ∨ build.tapsMax ≤ tap.toNat →
      exec (.wrmf bank tap coef) s = .next { s with resp := some (respWord .errAddr 0) } ∧
      exec (.wrdmf bank tap coef) s = .next { s with resp := some (respWord .errAddr 0) }) ∧
    (s.status ≠ .run → bank.toNat < build.npfbMax → tap.toNat < build.tapsMax →
      (∃ t, exec (.wrmf bank tap coef) s = .next t ∧ t = { s with mf := t.mf, resp := some (respWord .ok 0) } ∧
        ∀ b j, j < 256 → mfAt build t b j = if b = bank.toNat ∧ j = tap.toNat then coef else mfAt build s b j) ∧
      ∃ t, exec (.wrdmf bank tap coef) s = .next t ∧ t = { s with dmf := t.dmf, resp := some (respWord .ok 0) } ∧
        ∀ b j, j < 256 → dmfAt build t b j = if b = bank.toNat ∧ j = tap.toNat then coef else dmfAt build s b j)

/-- R134, R53: RDREG answers the register of every address that has one, ERR_ADDR elsewhere, and changes nothing. -/
def Obligations.RdregAnswersTheRegister : Prop :=
  ∀ (addr : BitVec 16) (s : State),
    (readableAddress addr = false →
      exec (.rdreg addr) s = .next { s with resp := some (respWord .errAddr 0) }) ∧
    (readableAddress addr = true → ∃ v, readReg s addr = some v ∧
      exec (.rdreg addr) s = .next { s with resp := some (respWord .ok v) } ∧
      ∀ r, cfgRegAt addr = some r → v = cfgGet s.cfg r)

/-- R53: what each read-only register of at most 32 bits reads as. -/
def Obligations.RunRegisterMap : Prop :=
  ∀ s : State, readReg s 0x41 = some s.agcLvl ∧ readReg s 0x42 = some (BitVec.ofNat 32 (agcGain s.agcLvl.toNat)) ∧
    readReg s 0x43 = some s.nco.theta ∧ readReg s 0x44 = some s.nco.nu ∧ readReg s 0x45 = some s.str.soft ∧
    readReg s 0x46 = some s.str.q ∧ readReg s 0x47 = some (0#24 ++ s.str.idx) ∧ readReg s 0x48 = some s.str.timer ∧
    readReg s 0x49 = some s.symCnt ∧ readReg s 0x4A = some s.sq.cnt ∧ readReg s 0x4B = some s.est.tau ∧
    readReg s 0x4C = some s.est.dphi ∧ readReg s 0x4D = some s.est.gamma ∧ readReg s 0x4E = some s.cap.sym ∧
    readReg s 0x4F = some s.cap.enc ∧ readReg s 0x50 = some s.cap.dec ∧ readReg s 0x51 = some s.frameCnt ∧
    readReg s 0x52 = some s.der.n ∧ readReg s 0x53 = some (0#16 ++ s.der.taps) ∧ readReg s 0x56 = some s.der.pref ∧
    readReg s 0x57 = some (0#16 ++ s.hdr.len) ∧
    readReg s 0x58 = some (s.hdr.ver ++ 0#3 ++ s.hdr.fec1 ++ s.hdr.fec0 ++ s.hdr.crc ++
      (s.hdr.bps - 1).setWidth 3 ++ s.hdr.mod) ∧
    readReg s 0x59 = some s.hdr.enc ∧ readReg s 0x5A = some s.hdr.nsym ∧ readReg s 0x5D = some s.evm.cnt ∧
    readReg s 0x60 = some s.det.rhoPrev ∧ readReg s 0x61 = some (s.det.wptr ++ s.det.age) ∧
    readReg s 0x62 = some s.det.candM0 ∧ readReg s 0x63 = some s.det.candM1 ∧ readReg s 0x64 = some s.det.candM2 ∧
    readReg s 0x67 = some s.det.candDphi ∧ readReg s 0x68 = some s.det.candGamma

/-- R53, R63 (c): STATUS bit by bit, and each wide register whole in its LO and HI addresses. -/
def Obligations.StatusAndWideRegistersRead : Prop :=
  ∀ s : State,
    (∃ v, readReg s 0x40 = some v ∧ v.extractLsb' 0 2 = statusCode s.status ∧ v.extractLsb' 2 2 = fsmCode s.fsm ∧
      (v.getLsbD 4 = true ↔ s.bw = .closedBw) ∧ v.getLsbD 5 = s.sq.closed ∧
      (v.getLsbD 6 = true ↔ s.det.mode = .findPeak) ∧ v.getLsbD 7 = false ∧ v.extractLsb' 8 8 = s.cfgCause ∧
      v.getLsbD 16 = s.fGrowth ∧ v.getLsbD 17 = s.fUnsup ∧ v.extractLsb' 18 14 = 0) ∧
    (∃ lo hi, readReg s 0x54 = some lo ∧ readReg s 0x55 = some hi ∧ hi ++ lo = s.der.es.setWidth 64) ∧
    (∃ lo hi, readReg s 0x5B = some lo ∧ readReg s 0x5C = some hi ∧ hi ++ lo = s.evm.acc) ∧
    (∃ lo hi, readReg s 0x5E = some lo ∧ readReg s 0x5F = some hi ∧ hi ++ lo = s.det.ex.setWidth 64) ∧
    ∃ lo hi, readReg s 0x65 = some lo ∧ readReg s 0x66 = some hi ∧ hi ++ lo = s.det.candRho2.setWidth 64

/-- R135 to R137, R129: the table reads answer the entry packed or zero-extended, in every status, and change
nothing. -/
def Obligations.TableReadsAnswerTheEntry : Prop :=
  ∀ s : State,
    (∀ addr : BitVec 16, exec (.rdref addr) s = .next (
      if addr.toNat < build.nMax then
        { s with resp := some (respWord .ok ((refAt build s addr.toNat).re ++ (refAt build s addr.toNat).im)) }
      else { s with resp := some (respWord .errAddr 0) })) ∧
    ∀ bank tap : BitVec 8,
      exec (.rdmf bank tap) s = .next (
        if bank.toNat < build.npfbMax ∧ tap.toNat < build.tapsMax then
          { s with resp := some (respWord .ok (0#16 ++ mfAt build s bank.toNat tap.toNat)) }
        else { s with resp := some (respWord .errAddr 0) }) ∧
      exec (.rddmf bank tap) s = .next (
        if bank.toNat < build.npfbMax ∧ tap.toNat < build.tapsMax then
          { s with resp := some (respWord .ok (0#16 ++ dmfAt build s bank.toNat tap.toNat)) }
        else { s with resp := some (respWord .errAddr 0) })

/-- R138, R139, R129: RDHDR and RDPAY answer a decoded byte in RUN only, within the header and the capacity, and
change nothing. -/
def Obligations.DecodedBytesReadInRunOnly : Prop :=
  ∀ (addr : BitVec 16) (s : State),
    (s.status ≠ .run →
      exec (.rdhdr addr) s = .next { s with resp := some (respWord .errState 0) } ∧
      exec (.rdpay addr) s = .next { s with resp := some (respWord .errState 0) }) ∧
    (s.status = .run →
      exec (.rdhdr addr) s = .next (
        if addr.toNat < cfgUserBytes s.cfg + 6 then
          { s with resp := some (respWord .ok (0#24 ++ hdecAt s addr.toNat)) }
        else { s with resp := some (respWord .errAddr 0) }) ∧
      exec (.rdpay addr) s = .next (
        if addr.toNat < s.cap.dec.toNat then
          { s with resp := some (respWord .ok (0#24 ++ pdecAt s addr.toNat)) }
        else { s with resp := some (respWord .errAddr 0) }))

/-- R70, R131 to R137: what a write command stored, the read command that follows it answers. -/
def Obligations.WrittenEntriesReadBack : Prop :=
  ∀ s : State, s.status ≠ .run →
    (∀ addr re im : BitVec 16, addr.toNat < build.nMax → ∃ t,
      Host.Core.run core 2
        { s with inputs := [.command (encode (.wrref addr re im)), .command (encode (.rdref addr))] } = .next t ∧
      t.resp = some (respWord .ok (re ++ im))) ∧
    ∀ (bank tap : BitVec 8) (coef : BitVec 16), bank.toNat < build.npfbMax → tap.toNat < build.tapsMax →
      (∃ t, Host.Core.run core 2
        { s with inputs := [.command (encode (.wrmf bank tap coef)), .command (encode (.rdmf bank tap))] } = .next t ∧
        t.resp = some (respWord .ok (0#16 ++ coef))) ∧
      ∃ t, Host.Core.run core 2
        { s with inputs := [.command (encode (.wrdmf bank tap coef)), .command (encode (.rddmf bank tap))] } = .next t ∧
        t.resp = some (respWord .ok (0#16 ++ coef))

/-! ### The AGC -/

/-- R181: the new level is exact, between the old level and the sample's power, and moves as the rule says. -/
def Obligations.LevelTracksThePower : Prop :=
  ∀ (x : Smp) (s : State),
    let alpha : Int := sel s.bw s.cfg.agcAlpha
    let p24 : Int := asr (mag2 x.cx) 6
    let old : Int := s.agcLvl.toNat
    let new : Int := (agcTrack x s).agcLvl.toNat
    0 ≤ p24 ∧ p24 ≤ 2 ^ 25 ∧ new = old + asr (alpha * (p24 - old)) 16 ∧ min old p24 ≤ new ∧ new ≤ max old p24 ∧
    (alpha = 0 → new = old) ∧ (0 < alpha → p24 < old → new < old) ∧
    (old < p24 → alpha * (p24 - old) < 2 ^ 16 → new = old)

/-- R183: the gain is the integer reciprocal square root of the level, a zero level taken as 1, with its largest and
smallest values; RDREG 0x42 answers it. -/
def Obligations.GainIsTheReciprocalRoot : Prop :=
  (∀ lvl : BitVec 32,
    let g := agcGain lvl.toNat
    let m := max lvl.toNat 1
    g * g * m ≤ 2 ^ 56 ∧ 2 ^ 56 < (g + 1) * (g + 1) * m ∧ 4096 ≤ g ∧ g ≤ 2 ^ 28) ∧
  agcGain (2 ^ 24) = 65536 ∧ agcGain (2 ^ 22) = 131072 ∧ agcGain 0 = 2 ^ 28 ∧ agcGain (2 ^ 32 - 1) = 4096 ∧
  ∀ s : State, exec (.rdreg 0x42) s =
    .next { s with resp := some (respWord .ok (BitVec.ofNat 32 (agcGain s.agcLvl.toNat))) }

/-! ### PUSH in DETECT -/

/-- R240, R237: while squelched, a PUSH whose level does not exceed the threshold tracks the level, clears the count
when the level equals the threshold, and does nothing else. -/
def Obligations.SquelchedPushOnlyTracks : Prop :=
  ∀ (re im : BitVec 16) (s : State), s.status = .run → s.fsm = .detect → s.sq.closed = true →
    (levelAfter ⟨re, im⟩ s).toNat ≤ cfgSqThresh s.cfg →
    exec (.push re im) s = .next
      { s with
        agcLvl := levelAfter ⟨re, im⟩ s
        sq := ⟨if (levelAfter ⟨re, im⟩ s).toNat = cfgSqThresh s.cfg then 0 else s.sq.cnt, true⟩
        resp := some 0 }

/-- R238, R126: the sample that brings the count to the timeout closes the squelch, resets the acquisition loops, and
is not given to the detector. -/
def Obligations.SquelchTimeoutResetsTheLoops : Prop :=
  ∀ (re im : BitVec 16) (s : State), s.status = .run → s.fsm = .detect → s.sq.closed = false →
    (levelAfter ⟨re, im⟩ s).toNat < cfgSqThresh s.cfg → cfgSqTimeout s.cfg ≤ min (s.sq.cnt.toNat + 1) (2 ^ 32 - 1) →
    ∃ t, exec (.push re im) s = .next t ∧ t.resp = some 0 ∧ AcqFresh t ∧ t.agcLvl = levelAfter ⟨re, im⟩ s ∧
      t.sq.closed = true ∧ t.sq.cnt.toNat = min (s.sq.cnt.toNat + 1) (2 ^ 32 - 1) ∧
      ClearedBelow s.der.n.toNat Smp.zero (winAt s) (winAt t) ∧
      ClearedBelow s.der.taps.toNat Dat.zero (dlAt s) (dlAt t) ∧
      t = { s with agcLvl := t.agcLvl, sq := t.sq, bw := t.bw, nco := t.nco, str := t.str, symCnt := t.symCnt,
                   evm := t.evm, det := t.det, win := t.win, dl := t.dl, resp := t.resp }

/-- R153 to R164, R167, R237 to R239: a DETECT sample that leaves the squelch open and does not declare: below the
threshold and short of the timeout the squelch counts it, at the threshold the count is 0, above it the count is 0 and
the squelch opens; the window slides and keeps its energy, and the metric is measured and latched; in SEEK a first
candidate is captured exactly when it passes; in FINDPEAK a candidate it beats is replaced, and any other ages. -/
def Obligations.DetectSampleSlidesTheWindow : Prop :=
  ∀ (re im : BitVec 16) (s : State), s.status = .run → s.fsm = .detect → 0 < s.der.n.toNat →
    s.der.n.toNat ≤ 65536 →
    let lvl := (levelAfter ⟨re, im⟩ s).toNat
    let thr := cfgSqThresh s.cfg
    let cnt := min (s.sq.cnt.toNat + 1) (2 ^ 32 - 1)
    thr < lvl ∨ s.sq.closed = false ∧ (lvl = thr ∨ lvl < thr ∧ cnt < cfgSqTimeout s.cfg) →
    let old := winAt s s.det.wptr.toNat
    let m := measure build (winPush ⟨re, im⟩ s)
    let pass : Prop := cfgThresh s.cfg * cfgThresh s.cfg < m.rho2 ∧ |m.dphi| ≤ cfgDphiMax s.cfg
    (s.det.mode = .findPeak →
      pass ∧ s.det.candRho2.toNat < m.rho2 ∨ (s.det.age + 1).toNat < cfgDebounce s.cfg) →
    ∃ t, exec (.push re im) s = .next t ∧ t.resp = some 0 ∧ t.agcLvl = levelAfter ⟨re, im⟩ s ∧
      t.sq.closed = false ∧ t.sq.cnt.toNat = (if lvl < thr then cnt else 0) ∧
      (∀ i, winAt t i = if i = s.det.wptr.toNat then ⟨re, im⟩ else winAt s i) ∧
      t.det.wptr.toNat = (s.det.wptr.toNat + 1) % s.der.n.toNat ∧
      t.det.ex = BitVec.ofInt 48 (s.det.ex.toNat - (old.re.toInt ^ 2 + old.im.toInt ^ 2) +
        (re.toInt ^ 2 + im.toInt ^ 2)) ∧
      Measured build t m ∧ t.det.rhoPrev = BitVec.ofNat 32 m.rho ∧
      (pass → s.det.mode = .seek ∨ s.det.candRho2.toNat < m.rho2 →
        t.det.mode = .findPeak ∧ t.det.age = 0 ∧ t.det.candM0 = s.det.rhoPrev ∧
        t.det.candM1 = BitVec.ofNat 32 m.rho ∧ t.det.candM2 = 0 ∧ t.det.candRho2 = BitVec.ofNat 33 m.rho2 ∧
        t.det.candDphi = BitVec.ofInt 32 m.dphi ∧ t.det.candGamma = BitVec.ofNat 32 m.gamma) ∧
      (s.det.mode = .seek → ¬pass →
        t.det = { s.det with wptr := t.det.wptr, ex := t.det.ex, rhoPrev := t.det.rhoPrev }) ∧
      (s.det.mode = .findPeak → ¬(pass ∧ s.det.candRho2.toNat < m.rho2) →
        t.det = { s.det with
          wptr := t.det.wptr
          ex := t.det.ex
          rhoPrev := t.det.rhoPrev
          age := s.det.age + 1
          candM2 := if s.det.age + 1 = 1 then BitVec.ofNat 32 m.rho else s.det.candM2 }) ∧
      t = { s with agcLvl := t.agcLvl, sq := t.sq, win := t.win, det := t.det, resp := t.resp }

/-- R163, R165, R186, R203, R227, R250: the step that declares seeds the loops from the candidate, closes the
bandwidths and enters RXHEADER; the detector keeps its candidate and returns to SEEK. -/
def Obligations.DetectionSeedsTheFrame : Prop :=
  ∀ (re im : BitVec 16) (s : State), s.status = .run → s.fsm = .detect → s.det.mode = .findPeak →
    1 ≤ cfgBanks s.cfg → cfgBanks s.cfg ≤ 128 → cfgDebounce s.cfg ≤ (s.det.age + 1).toNat →
    let lvl := (levelAfter ⟨re, im⟩ s).toNat
    let thr := cfgSqThresh s.cfg
    let cnt := min (s.sq.cnt.toNat + 1) (2 ^ 32 - 1)
    thr < lvl ∨ s.sq.closed = false ∧ (lvl = thr ∨ lvl < thr ∧ cnt < cfgSqTimeout s.cfg) →
    let old := winAt s s.det.wptr.toNat
    let m := measure build (winPush ⟨re, im⟩ s)
    let pass : Prop := cfgThresh s.cfg * cfgThresh s.cfg < m.rho2 ∧ |m.dphi| ≤ cfgDphiMax s.cfg
    ¬(pass ∧ s.det.candRho2.toNat < m.rho2) →
    let after : BitVec 32 := if s.det.age + 1 = 1 then BitVec.ofNat 32 m.rho else s.det.candM2
    ∃ t, exec (.push re im) s = .next t ∧ t.resp = some 9 ∧ t.fsm = .rxheader ∧ t.bw = .closedBw ∧ t.symCnt = 0 ∧
      t.evm = ⟨0, 0⟩ ∧ t.sq = ⟨0, false⟩ ∧ t.frameCnt = s.frameCnt + 1 ∧ Measured build t m ∧
      t.det = { s.det with
        mode := .seek
        wptr := BitVec.ofNat 16 ((s.det.wptr.toNat + 1) % s.der.n.toNat)
        ex := BitVec.ofInt 48 (s.det.ex.toNat - (old.re.toInt ^ 2 + old.im.toInt ^ 2) +
          (re.toInt ^ 2 + im.toInt ^ 2))
        rhoPrev := BitVec.ofNat 32 m.rho
        age := s.det.age + 1
        candM2 := after } ∧
      t.est.tau.toInt = tauOf s.det.candM0.toNat s.det.candM1.toNat after.toNat ∧
      t.est.dphi = s.det.candDphi ∧ t.est.gamma = s.det.candGamma ∧ t.nco.theta = 0 ∧
      t.nco.nu.toInt = max (-(cfgNcoFmax s.cfg : Int)) (min (cfgNcoFmax s.cfg) t.est.dphi.toInt) ∧
      t.agcLvl.toNat = min (2 ^ 32 - 1) (t.est.gamma.toNat * t.est.gamma.toNat / 2 ^ 24 * s.der.pref.toNat / 2 ^ 24) ∧
      (let n : Int := cfgBanks s.cfg
       let soft := t.est.tau.toInt * n
       let idx := (soft + 2 ^ 23) / 2 ^ 24
       t.str.q = 0 ∧ (t.str.idx.toNat : Int) = idx % n ∧ t.str.soft.toInt = soft - idx / n * n * 2 ^ 24 ∧
       t.str.timer.toInt = cfgHdrDly s.cfg + idx / n) ∧
      ClearedBelow s.der.taps.toNat Dat.zero (dlAt s) (dlAt t) ∧
      (∀ i, winAt t i = if i = s.det.wptr.toNat then ⟨re, im⟩ else winAt s i) ∧
      t = { s with fsm := t.fsm, bw := t.bw, symCnt := t.symCnt, evm := t.evm, sq := t.sq, frameCnt := t.frameCnt,
                   det := t.det, est := t.est, nco := t.nco, agcLvl := t.agcLvl, str := t.str, dl := t.dl,
                   win := t.win, resp := t.resp }

/-- R261, R126, R168: in RESET a PUSH first reopens the loops and clears the window, then handles its sample as a
DETECT sample, which cannot be a detection. -/
def Obligations.ResetPushIsADetectPush : Prop :=
  ∀ (re im : BitVec 16) (s : State), s.status = .run → s.fsm = .reset →
    exec (.push re im) s = exec (.push re im)
      { s with fsm := .detect, bw := .openBw, nco := ⟨0, 0⟩, str := ⟨0, 0, 0, 0⟩, symCnt := 0, evm := ⟨0, 0⟩,
               det := detReset, win := memClear s.win 0 s.der.n.toNat, dl := memClear s.dl 0 s.der.taps.toNat } ∧
    ∃ t, exec (.push re im) s = .next t ∧ t.fsm = .detect ∧ t.bw = .openBw ∧ t.resp = some 0 ∧
      t.frameCnt = s.frameCnt ∧ t.est = s.est ∧ t.hdr = s.hdr ∧ t.cap = s.cap ∧ t.nco = ⟨0, 0⟩ ∧ t.evm = ⟨0, 0⟩

/-! ### PUSH in a frame -/

/-- R184, R196, R226, R248, R68: the sample the timing unit takes is scaled by the gain of the new level and mixed
with the phase held before the advance, as integers, in every build; and a frame sample with the timer running is
shifted into DL so, and nothing else happens but the countdown. -/
def Obligations.FrameSampleWithoutStrobe : Prop :=
  (∀ (P : Params) (x : Smp) (s : State),
    let g : Int := agcGain (levelAfter x s).toNat
    let c := (P.sincos s.nco.theta).1.toInt
    let d := (P.sincos s.nco.theta).2.toInt
    let yr := roundedLane (g * x.re.toInt) 13
    let yi := roundedLane (g * x.im.toInt) 13
    (timingInput P x s).re.toInt = roundedLane (yr * c + yi * d) 16 ∧
    (timingInput P x s).im.toInt = roundedLane (yi * c - yr * d) 16) ∧
  ∀ (re im : BitVec 16) (s : State), s.status = .run → (s.fsm = .rxheader ∨ s.fsm = .rxpayload) →
    0 < s.str.timer.toInt → 0 < s.der.taps.toNat →
    ∃ t, exec (.push re im) s = .next t ∧ t.resp = some (respWord .ok (if s.fsm = .rxheader then 8 else 16)) ∧
      t.agcLvl = levelAfter ⟨re, im⟩ s ∧ t.nco.theta = s.nco.theta + s.nco.nu ∧ t.nco.nu = s.nco.nu ∧
      t.str.timer.toInt = s.str.timer.toInt - 1 ∧ t.str.soft = s.str.soft ∧ t.str.q = s.str.q ∧
      t.str.idx = s.str.idx ∧
      (∀ j, dlAt t j = if j < s.der.taps.toNat then
        (if j = 0 then timingInput build ⟨re, im⟩ s else dlAt s (j - 1)) else dlAt s j) ∧
      t = { s with agcLvl := t.agcLvl, nco := t.nco, str := t.str, dl := t.dl, resp := t.resp }

/-- R251, R226: a strobe in RXHEADER that is not the `H`-th stores the header symbol, steps the PLL and counts. -/
def Obligations.HeaderSymbolIsStored : Prop :=
  ∀ (re im : BitVec 16) (s : State), s.status = .run → s.fsm = .rxheader → s.str.timer.toInt ≤ 0 →
    (s.symCnt + 1).toNat ≠ cfgHdrSyms s.cfg →
    let u := (strobeOf build ⟨re, im⟩ s).1
    let d := build.modem (cfgHdrScheme s.cfg) (cfgHdrBps s.cfg) (strobeOf build ⟨re, im⟩ s).2
    ∃ t, exec (.push re im) s = .next t ∧ t.resp = some (respWord .ok 10) ∧
      (∀ i, hsymAt t i = if i = s.symCnt.toNat then d.sym else hsymAt s i) ∧ t.symCnt = s.symCnt + 1 ∧
      t.evm.acc = s.evm.acc + d.err2.setWidth 64 ∧ t.evm.cnt = s.evm.cnt + 1 ∧ t.nco = (pllStep d.perr u).nco ∧
      t.agcLvl = levelAfter ⟨re, im⟩ s ∧ t.str = u.str ∧ t.dl = u.dl ∧
      t = { s with hsym := t.hsym, symCnt := t.symCnt, evm := t.evm, nco := t.nco, agcLvl := t.agcLvl, str := t.str,
                   dl := t.dl, resp := t.resp }

/-- R251, R226: a strobe in RXPAYLOAD that is not the last stores the payload symbol, demodulated with the scheme the
header named, steps the PLL and counts. -/
def Obligations.PayloadSymbolIsStored : Prop :=
  ∀ (re im : BitVec 16) (s : State), s.status = .run → s.fsm = .rxpayload → s.str.timer.toInt ≤ 0 →
    s.symCnt + 1 ≠ s.hdr.nsym →
    let u := (strobeOf build ⟨re, im⟩ s).1
    let d := build.modem s.hdr.mod s.hdr.bps (strobeOf build ⟨re, im⟩ s).2
    ∃ t, exec (.push re im) s = .next t ∧ t.resp = some (respWord .ok 18) ∧
      (∀ i, psymAt t i = if i = s.symCnt.toNat then d.sym else psymAt s i) ∧ t.symCnt = s.symCnt + 1 ∧
      t.evm.acc = s.evm.acc + d.err2.setWidth 64 ∧ t.evm.cnt = s.evm.cnt + 1 ∧ t.nco = (pllStep d.perr u).nco ∧
      t.agcLvl = levelAfter ⟨re, im⟩ s ∧ t.str = u.str ∧ t.dl = u.dl ∧
      t = { s with psym := t.psym, symCnt := t.symCnt, evm := t.evm, nco := t.nco, agcLvl := t.agcLvl, str := t.str,
                   dl := t.dl, resp := t.resp }

/-- R251, R253, R262, R71: the last symbol of the header completes the header inside the PUSH, the last symbol of the
payload the payload. -/
def Obligations.LastSymbolCompletesInThePush : Prop :=
  ∀ (re im : BitVec 16) (s : State), s.status = .run → s.str.timer.toInt ≤ 0 →
    let u := (strobeOf build ⟨re, im⟩ s).1
    let y := (strobeOf build ⟨re, im⟩ s).2
    (s.fsm = .rxheader → (s.symCnt + 1).toNat = cfgHdrSyms s.cfg →
      let d := build.modem (cfgHdrScheme s.cfg) (cfgHdrBps s.cfg) y
      let r := headerComplete build (storeHdrSym d.sym (demodded d u))
      exec (.push re im) s = .next { r.1 with resp := some (respWord .ok (pushData ⟨false, true, r.2⟩ r.1.fsm)) }) ∧
    (s.fsm = .rxpayload → s.symCnt + 1 = s.hdr.nsym →
      let d := build.modem s.hdr.mod s.hdr.bps y
      let t := payloadComplete build (storePaySym d.sym (demodded d u))
      exec (.push re im) s = .next { t with resp := some (respWord .ok 0x1E) })

/-- R253 to R260, R331: the outcomes of a completed header, in the order of the tests, for every build: what each
writes, the event it emits, and that HDEC holds the decoded bytes in every one; where the buffers grow, each is what
`grow()` leaves, and a payload of no symbols is decoded from no bytes, at once. -/
def Obligations.HeaderCompletionOutcomes : Prop :=
  ∀ (P : Params) (s : State),
    let r := headerComplete P s
    let t := r.1
    let h := parsed P s
    (∀ i, hdecAt t i = if i < cfgUserBytes s.cfg + 6 then ((headerBytes P s).take (cfgDecBytes s.cfg)).getD i 0
      else hdecAt s i) ∧
    (headerValid P s = false → r.2 = true ∧ t.evt = some (buildEvent .headerFailed false false false s) ∧
      t = { s with fsm := .reset, hdec := t.hdec, evt := t.evt }) ∧
    (headerValid P s = true → supported P h = false → r.2 = true ∧
      t.evt = some (buildEvent .unsupported false false false { s with hdr := h }) ∧
      h.enc = s.hdr.enc ∧ h.nsym = s.hdr.nsym ∧
      t = { s with fsm := .reset, fUnsup := true, hdr := h, hdec := t.hdec, evt := t.evt }) ∧
    (headerValid P s = true → supported P h = true →
      let need := P.pktEncLen h.len h.crc h.fec0 h.fec1
      let syms := min (2 ^ 32 - 1) (ceildiv (8 * need.toNat) h.bps.toNat)
      let g : FrameRegs := { h with enc := need, nsym := BitVec.ofNat 32 syms }
      (syms > P.paysymMax ∨ need.toNat > P.payencMax ∨ h.len.toNat > P.paydecMax → r.2 = true ∧
        t.evt = some (buildEvent .growthFailed true false false { s with hdr := g }) ∧
        t = { s with fsm := .reset, fGrowth := true, hdr := g, hdec := t.hdec, evt := t.evt }) ∧
      (syms ≤ P.paysymMax → need.toNat ≤ P.payencMax → h.len.toNat ≤ P.paydecMax →
        let u := grow { s with hdr := g }
        (syms ≠ 0 → r.2 = false ∧ t = { u with fsm := .rxpayload, symCnt := 0, hdec := t.hdec }) ∧
        (syms = 0 →
          let dec := P.pktDecode [] h.len h.crc h.fec0 h.fec1
          r.2 = true ∧ need = 0 ∧ (∀ i, pdecAt t i = if i < h.len.toNat then dec.1.toList.getD i 0 else pdecAt u i) ∧
          t.evt = some (buildEvent .frameComplete true dec.2 true { s with hdr := g }) ∧
          t = { u with fsm := .reset, symCnt := 0, hdec := t.hdec, pdec := t.pdec, evt := t.evt })))

/-- R262, R252: a completed payload is packed, decoded and delivered, valid or not, with its one event. -/
def Obligations.PayloadCompletionDeliversTheBytes : Prop :=
  ∀ (P : Params) (s : State),
    let t := payloadComplete P s
    let enc := (pack (psymAt s) s.hdr.bps.toNat s.hdr.enc.toNat).toList
    let dec := P.pktDecode enc s.hdr.len s.hdr.crc s.hdr.fec0 s.hdr.fec1
    (∀ i, pencAt t i = if i < s.hdr.enc.toNat then packByte (psymAt s) s.hdr.bps.toNat i else pencAt s i) ∧
    (∀ i, pdecAt t i = if i < s.hdr.len.toNat then dec.1.toList.getD i 0 else pdecAt s i) ∧
    t.evt = some (buildEvent .frameComplete true dec.2 true s) ∧
    t = { s with fsm := .reset, penc := t.penc, pdec := t.pdec, evt := t.evt }

/-- R259: `grow()`. -/
def Obligations.GrowthRaisesCapacities : Prop :=
  ∀ s : State,
    let t := grow s
    t.cap.sym.toNat = max s.cap.sym.toNat s.hdr.nsym.toNat ∧ t.cap.enc.toNat = max s.cap.enc.toNat s.hdr.enc.toNat ∧
    t.cap.dec.toNat = max s.cap.dec.toNat s.hdr.len.toNat ∧
    (∀ i, psymAt t i = if s.cap.sym.toNat ≤ i ∧ i < s.hdr.nsym.toNat then 0 else psymAt s i) ∧
    (∀ i, pencAt t i = if s.cap.enc.toNat ≤ i ∧ i < s.hdr.enc.toNat then 0 else pencAt s i) ∧
    (∀ i, pdecAt t i = if s.cap.dec.toNat ≤ i ∧ i < s.hdr.len.toNat then 0 else pdecAt s i) ∧
    t = { s with cap := t.cap, psym := t.psym, penc := t.penc, pdec := t.pdec }

/-- R252: every bit of the packed bytes, and the symbols they are read from. -/
def Obligations.PackingIsMostSignificantFirst : Prop :=
  ∀ (sym : Nat → Byte) (bps n : Nat), 1 ≤ bps → bps ≤ 8 →
    (∀ j t, j < n → t < 8 →
      ((pack sym bps n).toList.getD j 0).getLsbD (7 - t) = (sym ((8 * j + t) / bps)).getLsbD (bps - 1 - (8 * j + t) % bps)) ∧
    (∀ sym' : Nat → Byte, (∀ i, i < ceildiv (8 * n) bps → sym' i = sym i) → pack sym' bps n = pack sym bps n)

/-- R106: the field extraction from a decoded header of `U + 6` bytes or more. -/
def Obligations.HeaderFieldsAreParsed : Prop :=
  ∀ (u : Nat) (hdr : List Byte) (old : FrameRegs),
    let b := fun i => hdr.getD (u + i) 0
    let h := parseHeader u hdr old
    h.len.toNat = (b 0).toNat * 256 + (b 1).toNat ∧ h.mod.toNat = (b 2).toNat / 8 ∧
    h.bps.toNat = (b 2).toNat % 8 + 1 ∧ h.crc.toNat = (b 3).toNat / 32 ∧ h.fec0.toNat = (b 3).toNat % 32 ∧
    h.fec1.toNat = (b 4).toNat % 32 ∧ h.ver = b 5 ∧ h.enc = old.enc ∧ h.nsym = old.nsym

/-- R301, R302: every field of the event record. -/
def Obligations.EventRecordFields : Prop :=
  ∀ (k : EventKind) (hv pv pp : Bool) (s : State),
    let e := buildEvent k hv pv pp s
    let z := k = .headerFailed
    e.w0.extractLsb' 0 4 = kindBits k ∧ e.w0.getLsbD 4 = hv ∧ e.w0.getLsbD 5 = pv ∧ e.w0.getLsbD 6 = pp ∧
    e.w0.getLsbD 7 = false ∧ (z → e.w0.extractLsb' 8 56 = 0) ∧
    (¬z → e.w0.extractLsb' 8 16 = s.hdr.len ∧ e.w0.extractLsb' 24 5 = s.hdr.mod ∧
      e.w0.extractLsb' 29 3 = (s.hdr.bps - 1).setWidth 3 ∧ e.w0.extractLsb' 32 3 = s.hdr.crc ∧
      e.w0.extractLsb' 35 5 = s.hdr.fec0 ∧ e.w0.extractLsb' 40 5 = s.hdr.fec1 ∧ e.w0.extractLsb' 45 3 = 0 ∧
      e.w0.extractLsb' 48 8 = s.hdr.ver ∧ e.w0.extractLsb' 56 8 = 0) ∧
    e.w1.extractLsb' 0 32 = s.agcLvl ∧ e.w1.extractLsb' 32 32 = s.nco.nu ∧ e.w2 = s.evm.acc ∧
    e.w3.extractLsb' 0 32 = s.evm.cnt ∧ e.w3.extractLsb' 32 32 = s.frameCnt

/-! ### The frame machine over every command -/

/-- R246: every transition of `fsm` any command can make. -/
def Obligations.FrameMachineTransitions : Prop :=
  ∀ (i : Instr) (s t : State), exec i s = .next t →
    (t.fsm ≠ s.fsm → (i = .init ∨ i = .srst ∨ i = .dstr) ∧ t.fsm = .detect ∨ (∃ re im, i = .push re im) ∧ s.status = .run) ∧
    ((∃ re im, i = .push re im) → s.status = .run →
      (s.fsm = .detect → t.fsm = .detect ∨ t.fsm = .rxheader) ∧
      (s.fsm = .rxheader → t.fsm = .rxheader ∨ t.fsm = .rxpayload ∨ t.fsm = .reset) ∧
      (s.fsm = .rxpayload → t.fsm = .rxpayload ∨ t.fsm = .reset) ∧ (s.fsm = .reset → t.fsm = .detect))

/-- R245, R100, R332: what an accepted PUSH reports: never a detection and a symbol at once, an event only with a
symbol and into RESET, and the event port exactly when it says so. -/
def Obligations.PushReportsWhatHappened : Prop :=
  (∀ (f : PushFlags) (q : Fsm), (pushData f q).getLsbD 0 = f.det ∧ (pushData f q).getLsbD 1 = f.strobe ∧
    (pushData f q).getLsbD 2 = f.evt ∧ (pushData f q).extractLsb' 3 2 = fsmCode q ∧
    (pushData f q).extractLsb' 5 27 = 0) ∧
  ∀ (re im : BitVec 16) (s : State), s.status = .run → s.evt = none →
    ∃ t f, exec (.push re im) s = .next t ∧ t.resp = some (respWord .ok (pushData f t.fsm)) ∧
      ¬(f.det = true ∧ f.strobe = true) ∧ (f.evt = true → f.strobe = true ∧ t.fsm = .reset) ∧
      t.evt.isSome = f.evt ∧ (f.det = true → s.fsm = .detect ∧ t.fsm = .rxheader ∧ t.frameCnt = s.frameCnt + 1) ∧
      (f.det = false → t.frameCnt = s.frameCnt) ∧
      (f.strobe = true ↔ (s.fsm = .rxheader ∨ s.fsm = .rxpayload) ∧ s.str.timer.toInt ≤ 0)

/-- R227, R225: with the sample timer at `v` in a frame, the first strobe is that of the PUSH number
`max(v, 0) + 1`. -/
def Obligations.FirstStrobeWhenTheTimerEnds : Prop :=
  ∀ (P : Params) (xs : List Smp) (x : Smp) (s : State), (s.fsm = .rxheader ∨ s.fsm = .rxpayload) →
    (xs.length : Int) ≤ max s.str.timer.toInt 0 →
    (pushSample P x (pushAll P xs s)).2.strobe = decide (s.str.timer.toInt ≤ xs.length)

/-- R305, R253, R262: in a sound state of any build, `evm_cnt` of the record a PUSH emits is `H`, and `H + p_nsym` in
a record of kind 0. -/
def Obligations.EventCountsItsSymbols : Prop :=
  ∀ (P : Params) (x : Smp) (s : State) (e : Event), P.SizesOk → Sound P s → s.status = .run → s.evt = none →
    let t := pushWith P x s
    t.evt = some e →
    e.w3.extractLsb' 0 32 =
      BitVec.ofNat 32 (cfgHdrSyms s.cfg) + (if e.w0.extractLsb' 0 4 = 0 then t.hdr.nsym else 0)

/-! ### The loops -/

/-- R200, R203: the PLL step, its frequency clamped and its phase wrapped, and the seeding of the carrier. -/
def Obligations.FrequencyStaysClamped : Prop :=
  ∀ (perr : BitVec 32) (s : State),
    let f : Int := cfgNcoFmax s.cfg
    let t := pllStep perr s
    t.nco.nu.toInt = min f (max (-f) (s.nco.nu.toInt + sel s.bw s.cfg.pllBeta * perr.toInt / 2 ^ 16)) ∧
    (t.nco.theta.toNat : Int) = (s.nco.theta.toNat + sel s.bw s.cfg.pllAlpha * perr.toInt / 2 ^ 16) % 2 ^ 32 ∧
    t = { s with nco := t.nco } ∧ (carrierSeed s).nco.nu.toInt = min f (max (-f) s.est.dphi.toInt) ∧
    (carrierSeed s).nco.theta = 0

/-- R218 to R226: the two filter outputs, the registers a strobe leaves, as integers, and the symbol it produces. -/
def Obligations.StrobeRunsTheTimingLoop : Prop :=
  ∀ (P : Params) (s : State), 1 ≤ cfgBanks s.cfg → cfgBanks s.cfg ≤ 128 →
    let b := s.str.idx.toNat
    let taps := s.der.taps.toNat
    let mf := firMf P s b
    let dmf := firDmf P s b
    let sat32 : Int → Int := fun v => max (-2 ^ 31) (min (2 ^ 31 - 1) v)
    let e := sat32 ((mf.re.toInt * dmf.re.toInt + mf.im.toInt * dmf.im.toInt) / 2 ^ 12)
    let q := sat32 (sel s.bw s.cfg.strA * s.str.q.toInt / 2 ^ 14 + sel s.bw s.cfg.strB * e / 2 ^ 14)
    let soft := sat32 (s.str.soft.toInt + q)
    let idx := (soft + 2 ^ 23) / 2 ^ 24
    let n : Int := cfgBanks s.cfg
    let t := (strobe P s).1
    FirLane (mfAt P s b) (fun j => (dlAt s j).re) taps mf.re ∧
    FirLane (mfAt P s b) (fun j => (dlAt s j).im) taps mf.im ∧
    FirLane (dmfAt P s b) (fun j => (dlAt s j).re) taps dmf.re ∧
    FirLane (dmfAt P s b) (fun j => (dlAt s j).im) taps dmf.im ∧
    (strobe P s).2 = mf ∧ t.str.q.toInt = q ∧ (t.str.idx.toNat : Int) = idx % n ∧
    t.str.soft.toInt = soft - idx / n * n * 2 ^ 24 ∧ t.str.timer.toInt = cfgSps s.cfg + idx / n ∧
    t = { s with str := t.str }

/-- R224: `wrap_idx`. -/
def Obligations.WrapMovesTheIndexIntoRange : Prop :=
  ∀ (n : Nat) (soft timer : Int), 1 ≤ n →
    let w := wrapIdx n soft timer
    0 ≤ w.idx ∧ w.idx ≤ (n : Int) - 1 ∧ hardIdx w.soft = w.idx ∧ -2 ^ 23 ≤ w.soft ∧ w.soft < n * 2 ^ 24 - 2 ^ 23 ∧
    ∃ k : Int, w.idx = hardIdx soft + k * n ∧ w.soft = soft + k * n * 2 ^ 24 ∧ w.timer = timer - k

/-- R166: the timing estimate is the clamped vertex, in `[-2^23, 2^23 - 1]`, and 0 where there is no maximum. -/
def Obligations.TimingEstimateIsTheClampedVertex : Prop :=
  ∀ m0 m1 m2 : Nat,
    let num : Int := m0 - m2
    let dn : Int := 2 * (m0 - 2 * m1 + m2)
    tauOf m0 m1 m2 ≤ 2 ^ 23 - 1 ∧ -2 ^ 23 ≤ tauOf m0 m1 m2 ∧
    (dn < 0 → tauOf m0 m1 m2 = min (2 ^ 23 - 1) (max (-2 ^ 23) (Int.fdiv (num * 2 ^ 24) dn))) ∧
    (0 ≤ dn → tauOf m0 m1 m2 = 0) ∧ (m0 = m2 → tauOf m0 m1 m2 = 0)

/-- R156 to R158: in a sound state the correlation obeys the Cauchy-Schwarz bound, so `rho2` is at most 1.0, `rho` at
most 1.0, and a threshold of 1.0 or more lets nothing pass. -/
def Obligations.CorrelationIsBounded : Prop :=
  ∀ (P : Params) (x : Smp) (s : State), P.SizesOk → Sound P s → s.status = .run →
    let u := winPush x s
    let m := measure P u
    mag2 (corr P u 0 u.der.n.toNat) ≤ u.det.ex.toNat * u.der.es.toNat ∧ m.rho2 ≤ 2 ^ 32 ∧ m.rho ≤ 2 ^ 24 ∧
    (0x10000 ≤ cfgThresh s.cfg → passes s.cfg m = false)

/-- R16, R17: the build's SINCOS and ARG meet what the rules ask of every realization. -/
def Obligations.TrigContractsHold : Prop :=
  build.SincosOk ∧ build.ArgOk

/-! ### Whole-machine statements -/

/-- U13, R32: no step but a read or a write of `BETA` itself depends on `BETA`. -/
def Obligations.BetaHasNoEffect : Prop :=
  ∀ (i : Instr) (v : BitVec 32) (s t : State), i ≠ .rdreg 0x02 → (∀ d, i ≠ .wrcfg 0x02 d) → exec i s = .next t →
    exec i (withBeta v s) = .next (withBeta v t)

/-- R70, R111: how the host cuts its inputs into blocks does not matter: `n` steps with a further block already
delivered behind the pending inputs are `n` steps and then the delivery. That the commands and resets not yet taken
stand in a queue of the state, and that undelivered ones survive a hardware reset among the `n` steps, are the model's
choices, not the spec's (log entries 1 and 4). -/
def Obligations.BlockCutsDoNotMatter : Prop :=
  ∀ (n : Nat) (ys : List Input) (s : State), n ≤ s.inputs.length → ∃ t, Host.Core.run core n s = .next t ∧
    Host.Core.run core n (deliver ys s) = .next (deliver ys t)

/-- The state after hardware reset is sound (R57, R361). -/
def Obligations.SoundAtReset : Prop :=
  Sound build State.reset

/-- R57: every step, in every sound state and on every input, answers a next state, and that state is sound; and in
every build INIT and PUSH keep a sound state sound, whatever the collaborators answer. -/
def Obligations.SoundIsKeptByEveryStep : Prop :=
  (∀ s : State, Sound build s → ∃ t, step s = .next t ∧ Sound build t) ∧
  ∀ (P : Params) (x : Smp) (s : State), P.SizesOk → Sound P s → Sound P (initWith P s) ∧ Sound P (pushWith P x s)
end

