-- ==== Sys2Proof/Laws/Mem.lean ====
section
/-! SUPPORT. The laws of the memory operations (R60, R62): what a read after each of them gives, and that each keeps
the canonical form. -/

namespace Sys2Proof.Machine

variable {α : Type}

/-! ### Reads -/

@[simp] theorem memFind_nil (i : Nat) : memFind ([] : Mem α) i = none := rfl

theorem memFind_insert (m : Mem α) (i j : Nat) (v : α) :
    memFind (memInsert m i v) j = if j = i then some v else memFind m j := by
  induction m with
  | nil => rfl
  | cons c m ih =>
    obtain ⟨k, w⟩ := c
    unfold memInsert
    split
    · rfl
    · split
      · subst_vars
        simp only [memFind]
        split <;> rfl
      · simp only [memFind, ih]
        split
        · rw [if_neg (by omega)]
        · rfl

theorem memFind_filter (p : Nat → Bool) (m : Mem α) (i : Nat) :
    memFind (m.filter fun c => p c.1) i = if p i then memFind m i else none := by
  induction m with
  | nil => simp
  | cons c m ih =>
    obtain ⟨k, w⟩ := c
    by_cases hk : p k
    · rw [List.filter_cons_of_pos (by simpa using hk)]
      simp only [memFind, ih]
      split
      · subst_vars; rw [if_pos hk]
      · rfl
    · rw [List.filter_cons_of_neg (by simpa using hk), ih]
      simp only [memFind]
      by_cases hi : i = k
      · subst hi; rw [if_neg hk, if_neg hk]
      · rw [if_neg hi]

theorem memFind_append (m n : Mem α) (i : Nat) :
    memFind (m ++ n) i = (memFind m i).or (memFind n i) := by
  induction m with
  | nil => simp
  | cons c m ih =>
    obtain ⟨k, w⟩ := c
    simp only [List.cons_append, memFind, ih]
    split <;> simp

theorem memFind_clear (m : Mem α) (a b i : Nat) :
    memFind (memClear m a b) i = if a ≤ i ∧ i < b then none else memFind m i := by
  unfold memClear
  rw [memFind_filter fun k => k < a || b ≤ k]
  by_cases h : a ≤ i ∧ i < b
  · rw [if_pos h, if_neg (by simp; omega)]
  · rw [if_neg h, if_pos (by simp; omega)]

theorem memFind_cells [DecidableEq α] (z : α) (f : Nat → α) (a n i : Nat) :
    memFind (memCells z f a n) i = if a ≤ i ∧ i < a + n ∧ f i ≠ z then some (f i) else none := by
  induction n generalizing a with
  | zero => rw [if_neg (by omega)]; rfl
  | succ n ih =>
    have ih' := ih (a + 1)
    unfold memCells at ih' ⊢
    rw [List.range'_succ]
    by_cases hz : f a = z
    · rw [List.filterMap_cons_none (by simp [hz]), ih']
      by_cases hi : i = a
      · subst hi; rw [if_neg (by omega), if_neg (by simp [hz])]
      · have : (a + 1 ≤ i ∧ i < a + 1 + n ∧ f i ≠ z) ↔ (a ≤ i ∧ i < a + (n + 1) ∧ f i ≠ z) := by
          constructor <;> rintro ⟨h1, h2, h3⟩ <;> exact ⟨by omega, by omega, h3⟩
        simp only [this]
    · rw [List.filterMap_cons_some (b := (a, f a)) (by simp [hz])]
      simp only [memFind, ih']
      by_cases hi : i = a
      · subst hi; rw [if_pos rfl, if_pos ⟨by omega, by omega, hz⟩]
      · rw [if_neg hi]
        have : (a + 1 ≤ i ∧ i < a + 1 + n ∧ f i ≠ z) ↔ (a ≤ i ∧ i < a + (n + 1) ∧ f i ≠ z) := by
          constructor <;> rintro ⟨h1, h2, h3⟩ <;> exact ⟨by omega, by omega, h3⟩
        simp only [this]

@[simp] theorem memRead_nil (z : α) (i : Nat) : memRead z [] i = z := rfl

/-- A read after a write (R62): the value written there, what was there elsewhere. -/
theorem memRead_write [DecidableEq α] (z : α) (m : Mem α) (i j : Nat) (v : α) :
    memRead z (memWrite z m i v) j = if j = i then v else memRead z m j := by
  unfold memRead memWrite
  split
  · subst_vars
    rw [memFind_clear]
    by_cases h : j = i
    · rw [if_pos (by omega), if_pos h]; rfl
    · rw [if_neg (by omega), if_neg h]
  · rw [memFind_insert]
    split <;> rfl

/-- A read after clearing `[a, b)`. -/
theorem memRead_clear (z : α) (m : Mem α) (a b i : Nat) :
    memRead z (memClear m a b) i = if a ≤ i ∧ i < b then z else memRead z m i := by
  unfold memRead
  rw [memFind_clear]
  split <;> rfl

/-- A read after setting `[a, a + n)`. -/
theorem memRead_setRange [DecidableEq α] (z : α) (m : Mem α) (a n i : Nat) (f : Nat → α) :
    memRead z (memSetRange z m a n f) i = if a ≤ i ∧ i < a + n then f i else memRead z m i := by
  unfold memRead memSetRange
  rw [memFind_append, memFind_append, memFind_filter (fun k => k < a), memFind_filter (fun k => a + n ≤ k),
    memFind_cells]
  by_cases h : a ≤ i ∧ i < a + n
  · rw [if_pos h, if_neg (by simp; omega), if_neg (show ¬ (decide (a + n ≤ i)) = true by simp; omega)]
    by_cases hz : f i = z
    · rw [if_neg (by simp [hz])]; simp [hz]
    · rw [if_pos ⟨h.1, h.2, hz⟩]; rfl
  · rw [if_neg h, if_neg (show ¬ (a ≤ i ∧ i < a + n ∧ f i ≠ z) from fun hh => h ⟨hh.1, hh.2.1⟩)]
    by_cases h1 : i < a
    · rw [if_pos (by simpa using h1), if_neg (by simp; omega)]
      cases memFind m i <;> rfl
    · rw [if_neg (by simpa using h1), if_pos (by simp; omega)]
      cases memFind m i <;> rfl

/-! ### The canonical form -/

theorem memSorted_nil : MemSorted ([] : Mem α) := List.Pairwise.nil

theorem memSorted_filter {p : Nat × α → Bool} {m : Mem α} (h : MemSorted m) : MemSorted (m.filter p) :=
  List.Pairwise.sublist (List.Sublist.map _ List.filter_sublist) h

theorem memSorted_clear {m : Mem α} {a b : Nat} (h : MemSorted m) : MemSorted (memClear m a b) := memSorted_filter h

theorem mem_insert_fst {m : Mem α} {i : Nat} {v : α} {c : Nat × α} (h : c ∈ memInsert m i v) :
    c = (i, v) ∨ c ∈ m := by
  induction m with
  | nil => simpa [memInsert] using h
  | cons d m ih =>
    obtain ⟨k, w⟩ := d
    unfold memInsert at h
    split at h
    · simpa using h
    · split at h
      · rcases List.mem_cons.1 h with h | h
        · exact .inl h
        · exact .inr (List.mem_cons_of_mem _ h)
      · rcases List.mem_cons.1 h with h | h
        · exact .inr (by simp [h])
        · rcases ih h with h | h
          · exact .inl h
          · exact .inr (List.mem_cons_of_mem _ h)

theorem memSorted_insert {m : Mem α} {i : Nat} {v : α} (h : MemSorted m) : MemSorted (memInsert m i v) := by
  induction m with
  | nil => simp [memInsert, MemSorted]
  | cons d m ih =>
    obtain ⟨k, w⟩ := d
    simp only [MemSorted, List.map_cons, List.pairwise_cons] at h
    obtain ⟨hk, hm⟩ := h
    unfold memInsert
    split
    · rename_i hi
      simp only [MemSorted, List.map_cons, List.pairwise_cons, List.mem_cons]
      refine ⟨?_, hk, hm⟩
      rintro a (rfl | ha)
      · exact hi
      · exact lt_trans hi (hk a ha)
    · split
      · subst_vars
        exact List.pairwise_cons.2 ⟨hk, hm⟩
      · rename_i h1 h2
        refine List.pairwise_cons.2 ⟨?_, ih hm⟩
        intro a ha
        obtain ⟨c, hc, rfl⟩ := List.mem_map.1 ha
        rcases mem_insert_fst hc with rfl | hc
        · show k < i; omega
        · exact hk _ (List.mem_map_of_mem hc)

theorem mem_cells [DecidableEq α] {z : α} {f : Nat → α} {a n : Nat} {c : Nat × α} (h : c ∈ memCells z f a n) :
    a ≤ c.1 ∧ c.1 < a + n ∧ c.2 = f c.1 ∧ c.2 ≠ z := by
  obtain ⟨i, hi, he⟩ := List.mem_filterMap.1 h
  rw [List.mem_range'_1] at hi
  split at he
  · simp at he
  · simp only [Option.some.injEq] at he
    subst he
    exact ⟨hi.1, hi.2, rfl, ‹_›⟩

theorem memSorted_cells [DecidableEq α] (z : α) (f : Nat → α) (a n : Nat) : MemSorted (memCells z f a n) := by
  induction n generalizing a with
  | zero => exact List.Pairwise.nil
  | succ n ih =>
    have ih' := ih (a + 1)
    have hm : ∀ c ∈ memCells z f (a + 1) n, a + 1 ≤ c.1 := fun c hc => (mem_cells hc).1
    unfold memCells at ih' hm ⊢
    rw [List.range'_succ]
    by_cases hz : f a = z
    · rw [List.filterMap_cons_none (by simp [hz])]; exact ih'
    · rw [List.filterMap_cons_some (b := (a, f a)) (by simp [hz])]
      refine List.pairwise_cons.2 ⟨?_, ih'⟩
      intro k hk
      obtain ⟨c, hc, rfl⟩ := List.mem_map.1 hk
      exact hm c hc

theorem memSorted_setRange [DecidableEq α] {z : α} {m : Mem α} {a n : Nat} {f : Nat → α} (h : MemSorted m) :
    MemSorted (memSetRange z m a n f) := by
  unfold memSetRange MemSorted
  rw [List.map_append, List.map_append, List.pairwise_append, List.pairwise_append]
  refine ⟨⟨memSorted_filter h, memSorted_cells z f a n, ?_⟩, memSorted_filter h, ?_⟩
  · intro x hx y hy
    obtain ⟨c, hc, rfl⟩ := List.mem_map.1 hx
    obtain ⟨d, hd, rfl⟩ := List.mem_map.1 hy
    have h1 := (List.mem_filter.1 hc).2
    have h2 := (mem_cells hd).1
    simp only [decide_eq_true_eq] at h1
    omega
  · intro x hx y hy
    obtain ⟨d, hd, rfl⟩ := List.mem_map.1 hy
    have h2 := (List.mem_filter.1 hd).2
    simp only [decide_eq_true_eq] at h2
    rcases List.mem_append.1 hx with hx | hx
    · obtain ⟨c, hc, rfl⟩ := List.mem_map.1 hx
      have h1 := (List.mem_filter.1 hc).2
      simp only [decide_eq_true_eq] at h1
      omega
    · obtain ⟨c, hc, rfl⟩ := List.mem_map.1 hx
      have h1 := (mem_cells hc).2.1
      omega

theorem memWf_nil [DecidableEq α] (z : α) : MemWf z ([] : Mem α) := ⟨memSorted_nil, by simp⟩

theorem memWf_clear [DecidableEq α] {z : α} {m : Mem α} {a b : Nat} (h : MemWf z m) : MemWf z (memClear m a b) :=
  ⟨memSorted_clear h.1, fun c hc => h.2 c (List.mem_filter.1 hc).1⟩

/-- A write keeps the canonical form. -/
theorem memWf_write [DecidableEq α] {z : α} {m : Mem α} {i : Nat} {v : α} (h : MemWf z m) :
    MemWf z (memWrite z m i v) := by
  unfold memWrite
  split
  · exact memWf_clear h
  · refine ⟨memSorted_insert h.1, fun c hc => ?_⟩
    rcases mem_insert_fst hc with rfl | hc
    · assumption
    · exact h.2 c hc

theorem memWf_setRange [DecidableEq α] {z : α} {m : Mem α} {a n : Nat} {f : Nat → α} (h : MemWf z m) :
    MemWf z (memSetRange z m a n f) := by
  refine ⟨memSorted_setRange h.1, fun c hc => ?_⟩
  rcases List.mem_append.1 hc with hc | hc
  · rcases List.mem_append.1 hc with hc | hc
    · exact h.2 c (List.mem_filter.1 hc).1
    · exact (mem_cells hc).2.2.2
  · exact h.2 c (List.mem_filter.1 hc).1

/-! ### The indices listed stay within a bound -/

theorem memBelow_nil (b : Nat) : MemBelow b ([] : Mem α) := by simp

theorem memBelow_clear {b : Nat} {m : Mem α} {a c : Nat} (h : MemBelow b m) : MemBelow b (memClear m a c) :=
  fun d hd => h d (List.mem_filter.1 hd).1

theorem memBelow_insert {b : Nat} {m : Mem α} {i : Nat} {v : α} (h : MemBelow b m) (hi : i < b) :
    MemBelow b (memInsert m i v) := fun c hc => by
  rcases mem_insert_fst hc with rfl | hc
  · exact hi
  · exact h c hc

theorem memBelow_write [DecidableEq α] {b : Nat} {z : α} {m : Mem α} {i : Nat} {v : α} (h : MemBelow b m)
    (hi : i < b) : MemBelow b (memWrite z m i v) := by
  unfold memWrite
  split
  · exact memBelow_clear h
  · exact memBelow_insert h hi

theorem memBelow_setRange [DecidableEq α] {b : Nat} {z : α} {m : Mem α} {a n : Nat} {f : Nat → α}
    (h : MemBelow b m) (hn : a + n ≤ b) : MemBelow b (memSetRange z m a n f) := fun c hc => by
  rcases List.mem_append.1 hc with hc | hc
  · rcases List.mem_append.1 hc with hc | hc
    · exact h c (List.mem_filter.1 hc).1
    · have := (mem_cells hc).2.1; omega
  · exact h c (List.mem_filter.1 hc).1

/-- Two buffers in canonical form that read alike are equal. -/
theorem memWf_ext [DecidableEq α] {z : α} {m n : Mem α} (hm : MemWf z m) (hn : MemWf z n)
    (h : ∀ i, memRead z m i = memRead z n i) : m = n := by
  have find_ne : ∀ {l : Mem α} {k : Nat}, (∀ c ∈ l, k < c.1) → memFind l k = none := by
    intro l k hl
    induction l with
    | nil => rfl
    | cons c l ih =>
      obtain ⟨a, v⟩ := c
      have := hl (a, v) (by simp)
      simp only [memFind]
      rw [if_neg (by simp only at this; omega), ih fun c hc => hl c (List.mem_cons_of_mem _ hc)]
  have below : ∀ {k : Nat} {v : α} {l : Mem α}, MemWf z ((k, v) :: l) → ∀ c ∈ l, k < c.1 := by
    intro k v l hl c hc
    exact (List.pairwise_cons.1 hl.1).1 _ (List.mem_map_of_mem hc)
  have tail : ∀ {c : Nat × α} {l : Mem α}, MemWf z (c :: l) → MemWf z l := fun hl =>
    ⟨(List.pairwise_cons.1 hl.1).2, fun d hd => hl.2 d (List.mem_cons_of_mem _ hd)⟩
  have head : ∀ {k : Nat} {v : α} {l : Mem α}, memRead z ((k, v) :: l) k = v := by
    intro k v l; simp [memRead, memFind]
  induction m generalizing n with
  | nil =>
    cases n with
    | nil => rfl
    | cons c n =>
      obtain ⟨k, v⟩ := c
      have := h k
      rw [head] at this
      exact absurd this.symm (hn.2 (k, v) (by simp))
  | cons c m ih =>
    obtain ⟨k, v⟩ := c
    cases n with
    | nil =>
      have := h k
      rw [head] at this
      exact absurd this (hm.2 (k, v) (by simp))
    | cons d n =>
      obtain ⟨l, w⟩ := d
      have hk : k = l := by
        by_contra hne
        rcases Nat.lt_or_ge k l with hlt | hge
        · have := h k
          rw [head] at this
          have hz : memRead z ((l, w) :: n) k = z := by
            unfold memRead
            rw [find_ne fun c hc => ?_]; rfl
            rcases List.mem_cons.1 hc with rfl | hc
            · exact hlt
            · exact lt_trans hlt (below hn c hc)
          rw [hz] at this
          exact hm.2 (k, v) (by simp) this
        · have := h l
          rw [head] at this
          have hz : memRead z ((k, v) :: m) l = z := by
            unfold memRead
            rw [find_ne fun c hc => ?_]; rfl
            rcases List.mem_cons.1 hc with rfl | hc
            · show l < k; omega
            · have := below hm c hc; omega
          rw [hz] at this
          exact hn.2 (l, w) (by simp) this.symm
      subst hk
      have hv : v = w := by have := h k; rwa [head, head] at this
      subst hv
      rw [ih (tail hm) (tail hn) fun i => ?_]
      by_cases hi : i = k
      · subst hi
        unfold memRead
        rw [find_ne (below hm), find_ne (below hn)]
      · have := h i
        unfold memRead at this ⊢
        simpa [memFind, hi] using this

end Sys2Proof.Machine
end

