-- ==== Sys2Proof/Laws/Access.lean ====
section
/-! SUPPORT. The register space and the access commands: which addresses answer (R96, R134), a configuration register
after a write (R130), and the halves of a wide register (R63 c). -/

namespace Sys2Proof.Machine

/-- The addresses of R50 are those of the configuration registers. -/
theorem cfgRegAt_isSome (addr : BitVec 16) : (cfgRegAt addr).isSome = configAddress addr := by
  unfold cfgRegAt configAddress
  generalize addr.toNat = n
  by_cases h : n ≤ 0x15
  · interval_cases n <;> rfl
  · simp only [cfgRegs, atAddr]
    repeat (rw [if_neg (by omega)])
    simp; omega

/-- The addresses of R53 are 0x40 to 0x68, without a gap. -/
theorem runRegs_isSome (s : State) (n : Nat) :
    (atAddr (runRegs s) n).isSome = (decide (0x40 ≤ n) && decide (n ≤ 0x68)) := by
  by_cases h : 0x40 ≤ n ∧ n ≤ 0x68
  · obtain ⟨h1, h2⟩ := h
    interval_cases n <;> rfl
  · rw [Bool.eq_false_iff.2 (by simp; omega : ¬(decide (0x40 ≤ n) && decide (n ≤ 0x68)) = true)]
    simp only [runRegs, atAddr]
    repeat (rw [if_neg (by omega)])
    rfl

/-- RDREG has a value at exactly the addresses of R96. -/
theorem readReg_isSome (s : State) (addr : BitVec 16) : (readReg s addr).isSome = readableAddress addr := by
  unfold readReg readableAddress
  rw [← cfgRegAt_isSome, ← runRegs_isSome s]
  cases cfgRegAt addr <;> simp

/-- A register after a write of a register. -/
theorem cfgGet_cfgPut (c : Cfg) (r q : CfgReg) (v : BitVec 32) :
    cfgGet (cfgPut c r v) q = if q = r then v else cfgGet c q := by
  cases r <;> cases q <;> rfl

/-- Two places of a coefficient table are the same only for the same bank and tap. -/
theorem coefKey_inj {b j : Nat} {bank tap : BitVec 8} (hj : j < 256) :
    coefKey b j = coefKey bank.toNat tap.toNat ↔ b = bank.toNat ∧ j = tap.toNat := by
  unfold coefKey; omega

/-- The write frame (R129): status, address, write. -/
theorem writeFrame_eq (ok : Bool) (act s : State) :
    writeFrame ok act s =
      if s.status ≠ .run then if ok then respond .ok 0 act else raise .errAddr s else raise .errState s := by
  unfold writeFrame notRunning; cases s.status <;> simp

/-- The reads of R138 and R139: status, then as the other reads. -/
theorem readInRun_eq (v : Option (BitVec 32)) (s : State) :
    readInRun v s = if s.status = .run then readFrame v s else raise .errState s := by
  unfold readInRun running; cases s.status <;> simp

@[simp] theorem guarded_isSome (b : Bool) (v : BitVec 32) : (guarded b v).isSome = b := by cases b <;> rfl

/-- A read whose address is good answers the value. -/
theorem readFrame_eq (v : Option (BitVec 32)) (s : State) :
    readFrame v s = if v.isSome then respond .ok (v.getD 0) s else raise .errAddr s := by
  cases v <;> rfl

end Sys2Proof.Machine
end

