-- ==== Sys2Proof/Laws/Arith.lean ====
section
/-! SUPPORT. The small lemmas of the integer and complex primitives (R12, R13). -/

namespace Sys2Proof.Machine

/-! ### Registers that hold an exact integer -/

theorem toNat_ofInt_of_range {w : Nat} {v : Int} (h0 : 0 ≤ v) (h1 : v < 2 ^ w) :
    ((BitVec.ofInt w v).toNat : Int) = v := by
  rw [BitVec.toNat_ofInt, Int.toNat_of_nonneg (Int.emod_nonneg _ (by positivity))]
  exact Int.emod_eq_of_lt h0 (by exact_mod_cast h1)

theorem toInt_ofInt_of_range {w : Nat} {v : Int} (h0 : -2 ^ (w - 1) ≤ v) (h1 : v < 2 ^ (w - 1)) (hw : 0 < w) :
    (BitVec.ofInt w v).toInt = v := by
  obtain ⟨k, rfl⟩ : ∃ k, w = k + 1 := ⟨w - 1, by omega⟩
  simp only [Nat.add_sub_cancel] at h0 h1
  have e : (((2 ^ (k + 1) : Nat) : Int)) = 2 * 2 ^ k := by push_cast; ring
  rw [BitVec.toInt_ofInt]
  refine Int.bmod_eq_of_le ?_ ?_ <;> rw [e] <;> omega

theorem toNat_ofNat_of_lt {w n : Nat} (h : n < 2 ^ w) : (BitVec.ofNat w n).toNat = n := by
  simp [Nat.mod_eq_of_lt h]

/-! ### Shifts, saturation, clamps -/

theorem asr_nonneg {v : Int} {n : Nat} (h : 0 ≤ v) : 0 ≤ asr v n := Int.ediv_nonneg h (by positivity)

theorem asr_mono {v w : Int} {n : Nat} (h : v ≤ w) : asr v n ≤ asr w n := Int.ediv_le_ediv (by positivity) h

theorem asr_le_self {v : Int} {n : Nat} (h : 0 ≤ v) : asr v n ≤ v := Int.ediv_le_self _ h

theorem clamp_mem {v lo hi : Int} (h : lo ≤ hi) : lo ≤ clamp v lo hi ∧ clamp v lo hi ≤ hi := by
  unfold clamp; omega

theorem clamp_of_mem {v lo hi : Int} (h0 : lo ≤ v) (h1 : v ≤ hi) : clamp v lo hi = v := by
  unfold clamp; omega

theorem sat_mem {n : Nat} {v : Int} : -2 ^ (n - 1) ≤ sat n v ∧ sat n v < 2 ^ (n - 1) := by
  have h : (0 : Int) < 2 ^ (n - 1) := by positivity
  unfold sat; omega

theorem sat_of_mem {n : Nat} {v : Int} (h0 : -2 ^ (n - 1) ≤ v) (h1 : v < 2 ^ (n - 1)) : sat n v = v := by
  unfold sat; omega

/-- A lane holds the rounded, saturated value exactly (R12). -/
theorem toLane_toInt (v : Int) (n : Nat) : (toLane v n).toInt = sat 24 (rnd v n) :=
  toInt_ofInt_of_range sat_mem.1 sat_mem.2 (by norm_num)

theorem usat_mem {n : Nat} {v : Int} : 0 ≤ usat n v ∧ usat n v < 2 ^ n := by
  have h : (0 : Int) < 2 ^ n := by positivity
  unfold usat; omega

/-! ### The integer square root -/

theorem isqrtBits_spec (n k r : Nat) (h0 : r * r ≤ n) (h1 : n < (r + 2 ^ k) * (r + 2 ^ k)) :
    isqrtBits n k r * isqrtBits n k r ≤ n ∧ n < (isqrtBits n k r + 1) * (isqrtBits n k r + 1) := by
  induction k generalizing r with
  | zero => exact ⟨h0, by simpa [isqrtBits] using h1⟩
  | succ k ih =>
    unfold isqrtBits
    split
    · rename_i h
      refine ih _ h ?_
      rw [show r + 2 ^ k + 2 ^ k = r + 2 ^ (k + 1) by ring]
      exact h1
    · rename_i h
      exact ih _ h0 (by omega)

theorem lt_two_pow_log2_half (n : Nat) : n < 2 ^ (n.log2 / 2 + 1) * 2 ^ (n.log2 / 2 + 1) := by
  rcases Nat.eq_zero_or_pos n with rfl | h
  · simp
  · have h1 : n < 2 ^ (n.log2 + 1) := Nat.lt_log2_self
    refine lt_of_lt_of_le h1 ?_
    rw [← pow_add]
    exact Nat.pow_le_pow_right (by norm_num) (by omega)

/-- `isqrt` is the integer square root (R12). -/
theorem isqrt_spec (n : Nat) : isqrt n * isqrt n ≤ n ∧ n < (isqrt n + 1) * (isqrt n + 1) :=
  isqrtBits_spec n _ 0 (by simp) (by simpa using lt_two_pow_log2_half n)

theorem isqrt_le_of_lt {n b : Nat} (h : n < b * b) : isqrt n < b := by
  by_contra hb
  have := (isqrt_spec n).1
  have : b * b ≤ isqrt n * isqrt n := Nat.mul_le_mul (by omega) (by omega)
  omega

theorem le_isqrt {n b : Nat} (h : b * b ≤ n) : b ≤ isqrt n := by
  by_contra hb
  have := (isqrt_spec n).2
  have : (isqrt n + 1) * (isqrt n + 1) ≤ b * b := Nat.mul_le_mul (by omega) (by omega)
  omega

/-! ### Bit lengths -/

/-- A value between `2^b` and `2^(b+1)` has `b + 1` bits (R12). -/
theorem bitlen_of_range {v : Int} {b : Nat} (h0 : 2 ^ b ≤ v) (h1 : v < 2 ^ (b + 1)) : bitlen v = b + 1 := by
  obtain ⟨n, rfl⟩ := Int.eq_ofNat_of_zero_le (le_trans (by positivity) h0)
  have h0 : 2 ^ b ≤ n := by exact_mod_cast h0
  have h1 : n < 2 ^ (b + 1) := by exact_mod_cast h1
  have hn : n ≠ 0 := by have := Nat.two_pow_pos b; omega
  have hl : n.log2 = b := (Nat.log2_eq_iff hn).2 ⟨h0, h1⟩
  simp [bitlen, hn, hl]

/-! ### Complex sums -/

@[simp] theorem cadd_re (a b : Cx) : (cadd a b).re = a.re + b.re := rfl
@[simp] theorem cadd_im (a b : Cx) : (cadd a b).im = a.im + b.im := rfl

theorem mag2_cast (a : Cx) : (mag2 a : Int) = a.re * a.re + a.im * a.im := by
  unfold mag2
  exact Int.toNat_of_nonneg (add_nonneg (mul_self_nonneg _) (mul_self_nonneg _))

theorem csum_re (f : Nat → Cx) (n : Nat) : (csum f n).re = ∑ i ∈ Finset.range n, (f i).re := by
  induction n with
  | zero => rfl
  | succ n ih => rw [Finset.sum_range_succ, ← ih]; rfl

theorem csum_im (f : Nat → Cx) (n : Nat) : (csum f n).im = ∑ i ∈ Finset.range n, (f i).im := by
  induction n with
  | zero => rfl
  | succ n ih => rw [Finset.sum_range_succ, ← ih]; rfl

/-- A squared sample magnitude is at most `2^31` (R155). -/
theorem mag2_smp_le (x : Smp) : mag2 x.cx ≤ 2 ^ 31 := by
  have hr := BitVec.le_toInt x.re
  have hr' := BitVec.toInt_lt (x := x.re)
  have hi := BitVec.le_toInt x.im
  have hi' := BitVec.toInt_lt (x := x.im)
  have h := mag2_cast x.cx
  simp only [Smp.cx] at h ⊢
  norm_num at hr hr' hi hi'
  have : ((mag2 ⟨x.re.toInt, x.im.toInt⟩ : Nat) : Int) ≤ 2 ^ 31 := by rw [h]; nlinarith
  exact_mod_cast this

theorem nsum_congr {f g : Nat → Nat} {n : Nat} (h : ∀ i < n, f i = g i) : nsum f n = nsum g n := by
  induction n with
  | zero => rfl
  | succ n ih =>
    unfold nsum
    rw [ih fun i hi => h i (by omega), h n (by omega)]

theorem nsum_zero {n : Nat} : nsum (fun _ => 0) n = 0 := by
  induction n with
  | zero => rfl
  | succ n ih => simp [nsum, ih]

theorem nsum_le {f : Nat → Nat} {n b : Nat} (h : ∀ i < n, f i ≤ b) : nsum f n ≤ n * b := by
  induction n with
  | zero => simp [nsum]
  | succ n ih =>
    have h1 := ih fun i hi => h i (by omega)
    have h2 := h n (by omega)
    unfold nsum
    rw [Nat.succ_mul]
    omega

/-- Replacing one term of a sum. -/
theorem nsum_update {f : Nat → Nat} {n i v : Nat} (h : i < n) :
    nsum (fun j => if j = i then v else f j) n + f i = nsum f n + v := by
  induction n with
  | zero => omega
  | succ n ih =>
    unfold nsum
    rcases Nat.lt_or_ge i n with hi | hi
    · have := ih hi
      rw [if_neg (by omega)]
      omega
    · obtain rfl : i = n := by omega
      rw [if_pos rfl, nsum_congr (g := f) fun j hj => if_neg (by omega)]
      omega

theorem le_nsum {f : Nat → Nat} {n i : Nat} (h : i < n) : f i ≤ nsum f n := by
  induction n with
  | zero => omega
  | succ n ih =>
    unfold nsum
    rcases Nat.lt_or_ge i n with hi | hi
    · have := ih hi; omega
    · obtain rfl : i = n := by omega
      omega

end Sys2Proof.Machine
end

