-- ==== Sys2Proof/Laws/Build.lean ====
section
/-! SUPPORT. The build meets what R8 asks of its sizes. -/

namespace Sys2Proof.Machine

theorem build_sizesOk : build.SizesOk := by decide

end Sys2Proof.Machine
end

