-- ==== Sys2Proof/Laws/State.lean ====
section
/-! SUPPORT. One lemma per field of State and per named update: what the update leaves there. -/

namespace Sys2Proof.Machine

/-! ### `respond` -/

@[simp] theorem respond_status (c : Code) (d : BitVec 32) (s : State) : (respond c d s).status = s.status := by rfl
@[simp] theorem respond_cfgCause (c : Code) (d : BitVec 32) (s : State) :
    (respond c d s).cfgCause = s.cfgCause := by rfl
@[simp] theorem respond_fGrowth (c : Code) (d : BitVec 32) (s : State) : (respond c d s).fGrowth = s.fGrowth := by rfl
@[simp] theorem respond_fUnsup (c : Code) (d : BitVec 32) (s : State) : (respond c d s).fUnsup = s.fUnsup := by rfl
@[simp] theorem respond_fsm (c : Code) (d : BitVec 32) (s : State) : (respond c d s).fsm = s.fsm := by rfl
@[simp] theorem respond_symCnt (c : Code) (d : BitVec 32) (s : State) : (respond c d s).symCnt = s.symCnt := by rfl
@[simp] theorem respond_bw (c : Code) (d : BitVec 32) (s : State) : (respond c d s).bw = s.bw := by rfl
@[simp] theorem respond_agcLvl (c : Code) (d : BitVec 32) (s : State) : (respond c d s).agcLvl = s.agcLvl := by rfl
@[simp] theorem respond_nco (c : Code) (d : BitVec 32) (s : State) : (respond c d s).nco = s.nco := by rfl
@[simp] theorem respond_str (c : Code) (d : BitVec 32) (s : State) : (respond c d s).str = s.str := by rfl
@[simp] theorem respond_sq (c : Code) (d : BitVec 32) (s : State) : (respond c d s).sq = s.sq := by rfl
@[simp] theorem respond_det (c : Code) (d : BitVec 32) (s : State) : (respond c d s).det = s.det := by rfl
@[simp] theorem respond_est (c : Code) (d : BitVec 32) (s : State) : (respond c d s).est = s.est := by rfl
@[simp] theorem respond_hdr (c : Code) (d : BitVec 32) (s : State) : (respond c d s).hdr = s.hdr := by rfl
@[simp] theorem respond_evm (c : Code) (d : BitVec 32) (s : State) : (respond c d s).evm = s.evm := by rfl
@[simp] theorem respond_frameCnt (c : Code) (d : BitVec 32) (s : State) :
    (respond c d s).frameCnt = s.frameCnt := by rfl
@[simp] theorem respond_cap (c : Code) (d : BitVec 32) (s : State) : (respond c d s).cap = s.cap := by rfl
@[simp] theorem respond_der (c : Code) (d : BitVec 32) (s : State) : (respond c d s).der = s.der := by rfl
@[simp] theorem respond_cfg (c : Code) (d : BitVec 32) (s : State) : (respond c d s).cfg = s.cfg := by rfl
@[simp] theorem respond_ref (c : Code) (d : BitVec 32) (s : State) : (respond c d s).ref = s.ref := by rfl
@[simp] theorem respond_mf (c : Code) (d : BitVec 32) (s : State) : (respond c d s).mf = s.mf := by rfl
@[simp] theorem respond_dmf (c : Code) (d : BitVec 32) (s : State) : (respond c d s).dmf = s.dmf := by rfl
@[simp] theorem respond_win (c : Code) (d : BitVec 32) (s : State) : (respond c d s).win = s.win := by rfl
@[simp] theorem respond_dl (c : Code) (d : BitVec 32) (s : State) : (respond c d s).dl = s.dl := by rfl
@[simp] theorem respond_hsym (c : Code) (d : BitVec 32) (s : State) : (respond c d s).hsym = s.hsym := by rfl
@[simp] theorem respond_psym (c : Code) (d : BitVec 32) (s : State) : (respond c d s).psym = s.psym := by rfl
@[simp] theorem respond_penc (c : Code) (d : BitVec 32) (s : State) : (respond c d s).penc = s.penc := by rfl
@[simp] theorem respond_hdec (c : Code) (d : BitVec 32) (s : State) : (respond c d s).hdec = s.hdec := by rfl
@[simp] theorem respond_pdec (c : Code) (d : BitVec 32) (s : State) : (respond c d s).pdec = s.pdec := by rfl
@[simp] theorem respond_inputs (c : Code) (d : BitVec 32) (s : State) : (respond c d s).inputs = s.inputs := by rfl
@[simp] theorem respond_resp (c : Code) (d : BitVec 32) (s : State) :
    (respond c d s).resp = some (respWord c d) := by rfl
@[simp] theorem respond_evt (c : Code) (d : BitVec 32) (s : State) : (respond c d s).evt = s.evt := by rfl
@[simp] theorem respond_hresets (c : Code) (d : BitVec 32) (s : State) : (respond c d s).hresets = s.hresets := by rfl

/-! ### `raise` -/

@[simp] theorem raise_status (c : Code) (s : State) : (raise c s).status = s.status := by rfl
@[simp] theorem raise_cfgCause (c : Code) (s : State) : (raise c s).cfgCause = s.cfgCause := by rfl
@[simp] theorem raise_fGrowth (c : Code) (s : State) : (raise c s).fGrowth = s.fGrowth := by rfl
@[simp] theorem raise_fUnsup (c : Code) (s : State) : (raise c s).fUnsup = s.fUnsup := by rfl
@[simp] theorem raise_fsm (c : Code) (s : State) : (raise c s).fsm = s.fsm := by rfl
@[simp] theorem raise_symCnt (c : Code) (s : State) : (raise c s).symCnt = s.symCnt := by rfl
@[simp] theorem raise_bw (c : Code) (s : State) : (raise c s).bw = s.bw := by rfl
@[simp] theorem raise_agcLvl (c : Code) (s : State) : (raise c s).agcLvl = s.agcLvl := by rfl
@[simp] theorem raise_nco (c : Code) (s : State) : (raise c s).nco = s.nco := by rfl
@[simp] theorem raise_str (c : Code) (s : State) : (raise c s).str = s.str := by rfl
@[simp] theorem raise_sq (c : Code) (s : State) : (raise c s).sq = s.sq := by rfl
@[simp] theorem raise_det (c : Code) (s : State) : (raise c s).det = s.det := by rfl
@[simp] theorem raise_est (c : Code) (s : State) : (raise c s).est = s.est := by rfl
@[simp] theorem raise_hdr (c : Code) (s : State) : (raise c s).hdr = s.hdr := by rfl
@[simp] theorem raise_evm (c : Code) (s : State) : (raise c s).evm = s.evm := by rfl
@[simp] theorem raise_frameCnt (c : Code) (s : State) : (raise c s).frameCnt = s.frameCnt := by rfl
@[simp] theorem raise_cap (c : Code) (s : State) : (raise c s).cap = s.cap := by rfl
@[simp] theorem raise_der (c : Code) (s : State) : (raise c s).der = s.der := by rfl
@[simp] theorem raise_cfg (c : Code) (s : State) : (raise c s).cfg = s.cfg := by rfl
@[simp] theorem raise_ref (c : Code) (s : State) : (raise c s).ref = s.ref := by rfl
@[simp] theorem raise_mf (c : Code) (s : State) : (raise c s).mf = s.mf := by rfl
@[simp] theorem raise_dmf (c : Code) (s : State) : (raise c s).dmf = s.dmf := by rfl
@[simp] theorem raise_win (c : Code) (s : State) : (raise c s).win = s.win := by rfl
@[simp] theorem raise_dl (c : Code) (s : State) : (raise c s).dl = s.dl := by rfl
@[simp] theorem raise_hsym (c : Code) (s : State) : (raise c s).hsym = s.hsym := by rfl
@[simp] theorem raise_psym (c : Code) (s : State) : (raise c s).psym = s.psym := by rfl
@[simp] theorem raise_penc (c : Code) (s : State) : (raise c s).penc = s.penc := by rfl
@[simp] theorem raise_hdec (c : Code) (s : State) : (raise c s).hdec = s.hdec := by rfl
@[simp] theorem raise_pdec (c : Code) (s : State) : (raise c s).pdec = s.pdec := by rfl
@[simp] theorem raise_inputs (c : Code) (s : State) : (raise c s).inputs = s.inputs := by rfl
@[simp] theorem raise_resp (c : Code) (s : State) : (raise c s).resp = some (respWord c 0) := by rfl
@[simp] theorem raise_evt (c : Code) (s : State) : (raise c s).evt = s.evt := by rfl
@[simp] theorem raise_hresets (c : Code) (s : State) : (raise c s).hresets = s.hresets := by rfl

/-! ### `emit` -/

@[simp] theorem emit_status (e : Event) (s : State) : (emit e s).status = s.status := by rfl
@[simp] theorem emit_cfgCause (e : Event) (s : State) : (emit e s).cfgCause = s.cfgCause := by rfl
@[simp] theorem emit_fGrowth (e : Event) (s : State) : (emit e s).fGrowth = s.fGrowth := by rfl
@[simp] theorem emit_fUnsup (e : Event) (s : State) : (emit e s).fUnsup = s.fUnsup := by rfl
@[simp] theorem emit_fsm (e : Event) (s : State) : (emit e s).fsm = s.fsm := by rfl
@[simp] theorem emit_symCnt (e : Event) (s : State) : (emit e s).symCnt = s.symCnt := by rfl
@[simp] theorem emit_bw (e : Event) (s : State) : (emit e s).bw = s.bw := by rfl
@[simp] theorem emit_agcLvl (e : Event) (s : State) : (emit e s).agcLvl = s.agcLvl := by rfl
@[simp] theorem emit_nco (e : Event) (s : State) : (emit e s).nco = s.nco := by rfl
@[simp] theorem emit_str (e : Event) (s : State) : (emit e s).str = s.str := by rfl
@[simp] theorem emit_sq (e : Event) (s : State) : (emit e s).sq = s.sq := by rfl
@[simp] theorem emit_det (e : Event) (s : State) : (emit e s).det = s.det := by rfl
@[simp] theorem emit_est (e : Event) (s : State) : (emit e s).est = s.est := by rfl
@[simp] theorem emit_hdr (e : Event) (s : State) : (emit e s).hdr = s.hdr := by rfl
@[simp] theorem emit_evm (e : Event) (s : State) : (emit e s).evm = s.evm := by rfl
@[simp] theorem emit_frameCnt (e : Event) (s : State) : (emit e s).frameCnt = s.frameCnt := by rfl
@[simp] theorem emit_cap (e : Event) (s : State) : (emit e s).cap = s.cap := by rfl
@[simp] theorem emit_der (e : Event) (s : State) : (emit e s).der = s.der := by rfl
@[simp] theorem emit_cfg (e : Event) (s : State) : (emit e s).cfg = s.cfg := by rfl
@[simp] theorem emit_ref (e : Event) (s : State) : (emit e s).ref = s.ref := by rfl
@[simp] theorem emit_mf (e : Event) (s : State) : (emit e s).mf = s.mf := by rfl
@[simp] theorem emit_dmf (e : Event) (s : State) : (emit e s).dmf = s.dmf := by rfl
@[simp] theorem emit_win (e : Event) (s : State) : (emit e s).win = s.win := by rfl
@[simp] theorem emit_dl (e : Event) (s : State) : (emit e s).dl = s.dl := by rfl
@[simp] theorem emit_hsym (e : Event) (s : State) : (emit e s).hsym = s.hsym := by rfl
@[simp] theorem emit_psym (e : Event) (s : State) : (emit e s).psym = s.psym := by rfl
@[simp] theorem emit_penc (e : Event) (s : State) : (emit e s).penc = s.penc := by rfl
@[simp] theorem emit_hdec (e : Event) (s : State) : (emit e s).hdec = s.hdec := by rfl
@[simp] theorem emit_pdec (e : Event) (s : State) : (emit e s).pdec = s.pdec := by rfl
@[simp] theorem emit_inputs (e : Event) (s : State) : (emit e s).inputs = s.inputs := by rfl
@[simp] theorem emit_resp (e : Event) (s : State) : (emit e s).resp = s.resp := by rfl
@[simp] theorem emit_evt (e : Event) (s : State) : (emit e s).evt = some e := by rfl
@[simp] theorem emit_hresets (e : Event) (s : State) : (emit e s).hresets = s.hresets := by rfl

/-! ### `idlePorts` -/

@[simp] theorem idlePorts_status (s : State) : (idlePorts s).status = s.status := by rfl
@[simp] theorem idlePorts_cfgCause (s : State) : (idlePorts s).cfgCause = s.cfgCause := by rfl
@[simp] theorem idlePorts_fGrowth (s : State) : (idlePorts s).fGrowth = s.fGrowth := by rfl
@[simp] theorem idlePorts_fUnsup (s : State) : (idlePorts s).fUnsup = s.fUnsup := by rfl
@[simp] theorem idlePorts_fsm (s : State) : (idlePorts s).fsm = s.fsm := by rfl
@[simp] theorem idlePorts_symCnt (s : State) : (idlePorts s).symCnt = s.symCnt := by rfl
@[simp] theorem idlePorts_bw (s : State) : (idlePorts s).bw = s.bw := by rfl
@[simp] theorem idlePorts_agcLvl (s : State) : (idlePorts s).agcLvl = s.agcLvl := by rfl
@[simp] theorem idlePorts_nco (s : State) : (idlePorts s).nco = s.nco := by rfl
@[simp] theorem idlePorts_str (s : State) : (idlePorts s).str = s.str := by rfl
@[simp] theorem idlePorts_sq (s : State) : (idlePorts s).sq = s.sq := by rfl
@[simp] theorem idlePorts_det (s : State) : (idlePorts s).det = s.det := by rfl
@[simp] theorem idlePorts_est (s : State) : (idlePorts s).est = s.est := by rfl
@[simp] theorem idlePorts_hdr (s : State) : (idlePorts s).hdr = s.hdr := by rfl
@[simp] theorem idlePorts_evm (s : State) : (idlePorts s).evm = s.evm := by rfl
@[simp] theorem idlePorts_frameCnt (s : State) : (idlePorts s).frameCnt = s.frameCnt := by rfl
@[simp] theorem idlePorts_cap (s : State) : (idlePorts s).cap = s.cap := by rfl
@[simp] theorem idlePorts_der (s : State) : (idlePorts s).der = s.der := by rfl
@[simp] theorem idlePorts_cfg (s : State) : (idlePorts s).cfg = s.cfg := by rfl
@[simp] theorem idlePorts_ref (s : State) : (idlePorts s).ref = s.ref := by rfl
@[simp] theorem idlePorts_mf (s : State) : (idlePorts s).mf = s.mf := by rfl
@[simp] theorem idlePorts_dmf (s : State) : (idlePorts s).dmf = s.dmf := by rfl
@[simp] theorem idlePorts_win (s : State) : (idlePorts s).win = s.win := by rfl
@[simp] theorem idlePorts_dl (s : State) : (idlePorts s).dl = s.dl := by rfl
@[simp] theorem idlePorts_hsym (s : State) : (idlePorts s).hsym = s.hsym := by rfl
@[simp] theorem idlePorts_psym (s : State) : (idlePorts s).psym = s.psym := by rfl
@[simp] theorem idlePorts_penc (s : State) : (idlePorts s).penc = s.penc := by rfl
@[simp] theorem idlePorts_hdec (s : State) : (idlePorts s).hdec = s.hdec := by rfl
@[simp] theorem idlePorts_pdec (s : State) : (idlePorts s).pdec = s.pdec := by rfl
@[simp] theorem idlePorts_inputs (s : State) : (idlePorts s).inputs = s.inputs := by rfl
@[simp] theorem idlePorts_resp (s : State) : (idlePorts s).resp = none := by rfl
@[simp] theorem idlePorts_evt (s : State) : (idlePorts s).evt = none := by rfl
@[simp] theorem idlePorts_hresets (s : State) : (idlePorts s).hresets = s.hresets := by rfl

/-! ### `beginCommand` -/

@[simp] theorem beginCommand_status (rest : List Input) (s : State) :
    (beginCommand rest s).status = s.status := by rfl
@[simp] theorem beginCommand_cfgCause (rest : List Input) (s : State) :
    (beginCommand rest s).cfgCause = s.cfgCause := by rfl
@[simp] theorem beginCommand_fGrowth (rest : List Input) (s : State) :
    (beginCommand rest s).fGrowth = s.fGrowth := by rfl
@[simp] theorem beginCommand_fUnsup (rest : List Input) (s : State) :
    (beginCommand rest s).fUnsup = s.fUnsup := by rfl
@[simp] theorem beginCommand_fsm (rest : List Input) (s : State) : (beginCommand rest s).fsm = s.fsm := by rfl
@[simp] theorem beginCommand_symCnt (rest : List Input) (s : State) :
    (beginCommand rest s).symCnt = s.symCnt := by rfl
@[simp] theorem beginCommand_bw (rest : List Input) (s : State) : (beginCommand rest s).bw = s.bw := by rfl
@[simp] theorem beginCommand_agcLvl (rest : List Input) (s : State) :
    (beginCommand rest s).agcLvl = s.agcLvl := by rfl
@[simp] theorem beginCommand_nco (rest : List Input) (s : State) : (beginCommand rest s).nco = s.nco := by rfl
@[simp] theorem beginCommand_str (rest : List Input) (s : State) : (beginCommand rest s).str = s.str := by rfl
@[simp] theorem beginCommand_sq (rest : List Input) (s : State) : (beginCommand rest s).sq = s.sq := by rfl
@[simp] theorem beginCommand_det (rest : List Input) (s : State) : (beginCommand rest s).det = s.det := by rfl
@[simp] theorem beginCommand_est (rest : List Input) (s : State) : (beginCommand rest s).est = s.est := by rfl
@[simp] theorem beginCommand_hdr (rest : List Input) (s : State) : (beginCommand rest s).hdr = s.hdr := by rfl
@[simp] theorem beginCommand_evm (rest : List Input) (s : State) : (beginCommand rest s).evm = s.evm := by rfl
@[simp] theorem beginCommand_frameCnt (rest : List Input) (s : State) :
    (beginCommand rest s).frameCnt = s.frameCnt := by rfl
@[simp] theorem beginCommand_cap (rest : List Input) (s : State) : (beginCommand rest s).cap = s.cap := by rfl
@[simp] theorem beginCommand_der (rest : List Input) (s : State) : (beginCommand rest s).der = s.der := by rfl
@[simp] theorem beginCommand_cfg (rest : List Input) (s : State) : (beginCommand rest s).cfg = s.cfg := by rfl
@[simp] theorem beginCommand_ref (rest : List Input) (s : State) : (beginCommand rest s).ref = s.ref := by rfl
@[simp] theorem beginCommand_mf (rest : List Input) (s : State) : (beginCommand rest s).mf = s.mf := by rfl
@[simp] theorem beginCommand_dmf (rest : List Input) (s : State) : (beginCommand rest s).dmf = s.dmf := by rfl
@[simp] theorem beginCommand_win (rest : List Input) (s : State) : (beginCommand rest s).win = s.win := by rfl
@[simp] theorem beginCommand_dl (rest : List Input) (s : State) : (beginCommand rest s).dl = s.dl := by rfl
@[simp] theorem beginCommand_hsym (rest : List Input) (s : State) : (beginCommand rest s).hsym = s.hsym := by rfl
@[simp] theorem beginCommand_psym (rest : List Input) (s : State) : (beginCommand rest s).psym = s.psym := by rfl
@[simp] theorem beginCommand_penc (rest : List Input) (s : State) : (beginCommand rest s).penc = s.penc := by rfl
@[simp] theorem beginCommand_hdec (rest : List Input) (s : State) : (beginCommand rest s).hdec = s.hdec := by rfl
@[simp] theorem beginCommand_pdec (rest : List Input) (s : State) : (beginCommand rest s).pdec = s.pdec := by rfl
@[simp] theorem beginCommand_inputs (rest : List Input) (s : State) : (beginCommand rest s).inputs = rest := by rfl
@[simp] theorem beginCommand_resp (rest : List Input) (s : State) : (beginCommand rest s).resp = none := by rfl
@[simp] theorem beginCommand_evt (rest : List Input) (s : State) : (beginCommand rest s).evt = none := by rfl
@[simp] theorem beginCommand_hresets (rest : List Input) (s : State) :
    (beginCommand rest s).hresets = s.hresets := by rfl

/-! ### `answerIllegal` -/

@[simp] theorem answerIllegal_status (s : State) : (answerIllegal s).status = s.status := by rfl
@[simp] theorem answerIllegal_cfgCause (s : State) : (answerIllegal s).cfgCause = s.cfgCause := by rfl
@[simp] theorem answerIllegal_fGrowth (s : State) : (answerIllegal s).fGrowth = s.fGrowth := by rfl
@[simp] theorem answerIllegal_fUnsup (s : State) : (answerIllegal s).fUnsup = s.fUnsup := by rfl
@[simp] theorem answerIllegal_fsm (s : State) : (answerIllegal s).fsm = s.fsm := by rfl
@[simp] theorem answerIllegal_symCnt (s : State) : (answerIllegal s).symCnt = s.symCnt := by rfl
@[simp] theorem answerIllegal_bw (s : State) : (answerIllegal s).bw = s.bw := by rfl
@[simp] theorem answerIllegal_agcLvl (s : State) : (answerIllegal s).agcLvl = s.agcLvl := by rfl
@[simp] theorem answerIllegal_nco (s : State) : (answerIllegal s).nco = s.nco := by rfl
@[simp] theorem answerIllegal_str (s : State) : (answerIllegal s).str = s.str := by rfl
@[simp] theorem answerIllegal_sq (s : State) : (answerIllegal s).sq = s.sq := by rfl
@[simp] theorem answerIllegal_det (s : State) : (answerIllegal s).det = s.det := by rfl
@[simp] theorem answerIllegal_est (s : State) : (answerIllegal s).est = s.est := by rfl
@[simp] theorem answerIllegal_hdr (s : State) : (answerIllegal s).hdr = s.hdr := by rfl
@[simp] theorem answerIllegal_evm (s : State) : (answerIllegal s).evm = s.evm := by rfl
@[simp] theorem answerIllegal_frameCnt (s : State) : (answerIllegal s).frameCnt = s.frameCnt := by rfl
@[simp] theorem answerIllegal_cap (s : State) : (answerIllegal s).cap = s.cap := by rfl
@[simp] theorem answerIllegal_der (s : State) : (answerIllegal s).der = s.der := by rfl
@[simp] theorem answerIllegal_cfg (s : State) : (answerIllegal s).cfg = s.cfg := by rfl
@[simp] theorem answerIllegal_ref (s : State) : (answerIllegal s).ref = s.ref := by rfl
@[simp] theorem answerIllegal_mf (s : State) : (answerIllegal s).mf = s.mf := by rfl
@[simp] theorem answerIllegal_dmf (s : State) : (answerIllegal s).dmf = s.dmf := by rfl
@[simp] theorem answerIllegal_win (s : State) : (answerIllegal s).win = s.win := by rfl
@[simp] theorem answerIllegal_dl (s : State) : (answerIllegal s).dl = s.dl := by rfl
@[simp] theorem answerIllegal_hsym (s : State) : (answerIllegal s).hsym = s.hsym := by rfl
@[simp] theorem answerIllegal_psym (s : State) : (answerIllegal s).psym = s.psym := by rfl
@[simp] theorem answerIllegal_penc (s : State) : (answerIllegal s).penc = s.penc := by rfl
@[simp] theorem answerIllegal_hdec (s : State) : (answerIllegal s).hdec = s.hdec := by rfl
@[simp] theorem answerIllegal_pdec (s : State) : (answerIllegal s).pdec = s.pdec := by rfl
@[simp] theorem answerIllegal_inputs (s : State) : (answerIllegal s).inputs = s.inputs := by rfl
@[simp] theorem answerIllegal_resp (s : State) : (answerIllegal s).resp = some (respWord .errOpcode 0) := by rfl
@[simp] theorem answerIllegal_evt (s : State) : (answerIllegal s).evt = s.evt := by rfl
@[simp] theorem answerIllegal_hresets (s : State) : (answerIllegal s).hresets = s.hresets := by rfl

/-! ### `waitForCommand` -/

@[simp] theorem waitForCommand_status (s : State) : (waitForCommand s).status = s.status := by rfl
@[simp] theorem waitForCommand_cfgCause (s : State) : (waitForCommand s).cfgCause = s.cfgCause := by rfl
@[simp] theorem waitForCommand_fGrowth (s : State) : (waitForCommand s).fGrowth = s.fGrowth := by rfl
@[simp] theorem waitForCommand_fUnsup (s : State) : (waitForCommand s).fUnsup = s.fUnsup := by rfl
@[simp] theorem waitForCommand_fsm (s : State) : (waitForCommand s).fsm = s.fsm := by rfl
@[simp] theorem waitForCommand_symCnt (s : State) : (waitForCommand s).symCnt = s.symCnt := by rfl
@[simp] theorem waitForCommand_bw (s : State) : (waitForCommand s).bw = s.bw := by rfl
@[simp] theorem waitForCommand_agcLvl (s : State) : (waitForCommand s).agcLvl = s.agcLvl := by rfl
@[simp] theorem waitForCommand_nco (s : State) : (waitForCommand s).nco = s.nco := by rfl
@[simp] theorem waitForCommand_str (s : State) : (waitForCommand s).str = s.str := by rfl
@[simp] theorem waitForCommand_sq (s : State) : (waitForCommand s).sq = s.sq := by rfl
@[simp] theorem waitForCommand_det (s : State) : (waitForCommand s).det = s.det := by rfl
@[simp] theorem waitForCommand_est (s : State) : (waitForCommand s).est = s.est := by rfl
@[simp] theorem waitForCommand_hdr (s : State) : (waitForCommand s).hdr = s.hdr := by rfl
@[simp] theorem waitForCommand_evm (s : State) : (waitForCommand s).evm = s.evm := by rfl
@[simp] theorem waitForCommand_frameCnt (s : State) : (waitForCommand s).frameCnt = s.frameCnt := by rfl
@[simp] theorem waitForCommand_cap (s : State) : (waitForCommand s).cap = s.cap := by rfl
@[simp] theorem waitForCommand_der (s : State) : (waitForCommand s).der = s.der := by rfl
@[simp] theorem waitForCommand_cfg (s : State) : (waitForCommand s).cfg = s.cfg := by rfl
@[simp] theorem waitForCommand_ref (s : State) : (waitForCommand s).ref = s.ref := by rfl
@[simp] theorem waitForCommand_mf (s : State) : (waitForCommand s).mf = s.mf := by rfl
@[simp] theorem waitForCommand_dmf (s : State) : (waitForCommand s).dmf = s.dmf := by rfl
@[simp] theorem waitForCommand_win (s : State) : (waitForCommand s).win = s.win := by rfl
@[simp] theorem waitForCommand_dl (s : State) : (waitForCommand s).dl = s.dl := by rfl
@[simp] theorem waitForCommand_hsym (s : State) : (waitForCommand s).hsym = s.hsym := by rfl
@[simp] theorem waitForCommand_psym (s : State) : (waitForCommand s).psym = s.psym := by rfl
@[simp] theorem waitForCommand_penc (s : State) : (waitForCommand s).penc = s.penc := by rfl
@[simp] theorem waitForCommand_hdec (s : State) : (waitForCommand s).hdec = s.hdec := by rfl
@[simp] theorem waitForCommand_pdec (s : State) : (waitForCommand s).pdec = s.pdec := by rfl
@[simp] theorem waitForCommand_inputs (s : State) : (waitForCommand s).inputs = s.inputs := by rfl
@[simp] theorem waitForCommand_resp (s : State) : (waitForCommand s).resp = none := by rfl
@[simp] theorem waitForCommand_evt (s : State) : (waitForCommand s).evt = none := by rfl
@[simp] theorem waitForCommand_hresets (s : State) : (waitForCommand s).hresets = s.hresets := by rfl

/-! ### `acqReset` -/

@[simp] theorem acqReset_status (s : State) : (acqReset s).status = s.status := by rfl
@[simp] theorem acqReset_cfgCause (s : State) : (acqReset s).cfgCause = s.cfgCause := by rfl
@[simp] theorem acqReset_fGrowth (s : State) : (acqReset s).fGrowth = s.fGrowth := by rfl
@[simp] theorem acqReset_fUnsup (s : State) : (acqReset s).fUnsup = s.fUnsup := by rfl
@[simp] theorem acqReset_fsm (s : State) : (acqReset s).fsm = s.fsm := by rfl
@[simp] theorem acqReset_symCnt (s : State) : (acqReset s).symCnt = 0 := by rfl
@[simp] theorem acqReset_bw (s : State) : (acqReset s).bw = .openBw := by rfl
@[simp] theorem acqReset_agcLvl (s : State) : (acqReset s).agcLvl = s.agcLvl := by rfl
@[simp] theorem acqReset_nco (s : State) : (acqReset s).nco = ⟨0, 0⟩ := by rfl
@[simp] theorem acqReset_str (s : State) : (acqReset s).str = ⟨0, 0, 0, 0⟩ := by rfl
@[simp] theorem acqReset_sq (s : State) : (acqReset s).sq = s.sq := by rfl
@[simp] theorem acqReset_det (s : State) : (acqReset s).det = detReset := by rfl
@[simp] theorem acqReset_est (s : State) : (acqReset s).est = s.est := by rfl
@[simp] theorem acqReset_hdr (s : State) : (acqReset s).hdr = s.hdr := by rfl
@[simp] theorem acqReset_evm (s : State) : (acqReset s).evm = ⟨0, 0⟩ := by rfl
@[simp] theorem acqReset_frameCnt (s : State) : (acqReset s).frameCnt = s.frameCnt := by rfl
@[simp] theorem acqReset_cap (s : State) : (acqReset s).cap = s.cap := by rfl
@[simp] theorem acqReset_der (s : State) : (acqReset s).der = s.der := by rfl
@[simp] theorem acqReset_cfg (s : State) : (acqReset s).cfg = s.cfg := by rfl
@[simp] theorem acqReset_ref (s : State) : (acqReset s).ref = s.ref := by rfl
@[simp] theorem acqReset_mf (s : State) : (acqReset s).mf = s.mf := by rfl
@[simp] theorem acqReset_dmf (s : State) : (acqReset s).dmf = s.dmf := by rfl
@[simp] theorem acqReset_win (s : State) : (acqReset s).win = memClear s.win 0 s.der.n.toNat := by rfl
@[simp] theorem acqReset_dl (s : State) : (acqReset s).dl = memClear s.dl 0 s.der.taps.toNat := by rfl
@[simp] theorem acqReset_hsym (s : State) : (acqReset s).hsym = s.hsym := by rfl
@[simp] theorem acqReset_psym (s : State) : (acqReset s).psym = s.psym := by rfl
@[simp] theorem acqReset_penc (s : State) : (acqReset s).penc = s.penc := by rfl
@[simp] theorem acqReset_hdec (s : State) : (acqReset s).hdec = s.hdec := by rfl
@[simp] theorem acqReset_pdec (s : State) : (acqReset s).pdec = s.pdec := by rfl
@[simp] theorem acqReset_inputs (s : State) : (acqReset s).inputs = s.inputs := by rfl
@[simp] theorem acqReset_resp (s : State) : (acqReset s).resp = s.resp := by rfl
@[simp] theorem acqReset_evt (s : State) : (acqReset s).evt = s.evt := by rfl
@[simp] theorem acqReset_hresets (s : State) : (acqReset s).hresets = s.hresets := by rfl

/-! ### `runInit` -/

@[simp] theorem runInit_status (s : State) : (runInit s).status = s.status := by rfl
@[simp] theorem runInit_cfgCause (s : State) : (runInit s).cfgCause = s.cfgCause := by rfl
@[simp] theorem runInit_fGrowth (s : State) : (runInit s).fGrowth = s.fGrowth := by rfl
@[simp] theorem runInit_fUnsup (s : State) : (runInit s).fUnsup = s.fUnsup := by rfl
@[simp] theorem runInit_fsm (s : State) : (runInit s).fsm = .detect := by rfl
@[simp] theorem runInit_symCnt (s : State) : (runInit s).symCnt = 0 := by rfl
@[simp] theorem runInit_bw (s : State) : (runInit s).bw = .openBw := by rfl
@[simp] theorem runInit_agcLvl (s : State) : (runInit s).agcLvl = 0 := by rfl
@[simp] theorem runInit_nco (s : State) : (runInit s).nco = ⟨0, 0⟩ := by rfl
@[simp] theorem runInit_str (s : State) : (runInit s).str = ⟨0, 0, 0, 0⟩ := by rfl
@[simp] theorem runInit_sq (s : State) : (runInit s).sq = ⟨0, false⟩ := by rfl
@[simp] theorem runInit_det (s : State) : (runInit s).det = detReset := by rfl
@[simp] theorem runInit_est (s : State) : (runInit s).est = ⟨0, 0, 0⟩ := by rfl
@[simp] theorem runInit_hdr (s : State) : (runInit s).hdr = hdrReset := by rfl
@[simp] theorem runInit_evm (s : State) : (runInit s).evm = ⟨0, 0⟩ := by rfl
@[simp] theorem runInit_frameCnt (s : State) : (runInit s).frameCnt = s.frameCnt := by rfl
@[simp] theorem runInit_cap (s : State) : (runInit s).cap = s.cap := by rfl
@[simp] theorem runInit_der (s : State) : (runInit s).der = s.der := by rfl
@[simp] theorem runInit_cfg (s : State) : (runInit s).cfg = s.cfg := by rfl
@[simp] theorem runInit_ref (s : State) : (runInit s).ref = s.ref := by rfl
@[simp] theorem runInit_mf (s : State) : (runInit s).mf = s.mf := by rfl
@[simp] theorem runInit_dmf (s : State) : (runInit s).dmf = s.dmf := by rfl
@[simp] theorem runInit_win (s : State) : (runInit s).win = memClear s.win 0 s.der.n.toNat := by rfl
@[simp] theorem runInit_dl (s : State) : (runInit s).dl = memClear s.dl 0 s.der.taps.toNat := by rfl
@[simp] theorem runInit_hsym (s : State) : (runInit s).hsym = s.hsym := by rfl
@[simp] theorem runInit_psym (s : State) : (runInit s).psym = s.psym := by rfl
@[simp] theorem runInit_penc (s : State) : (runInit s).penc = s.penc := by rfl
@[simp] theorem runInit_hdec (s : State) : (runInit s).hdec = s.hdec := by rfl
@[simp] theorem runInit_pdec (s : State) : (runInit s).pdec = s.pdec := by rfl
@[simp] theorem runInit_inputs (s : State) : (runInit s).inputs = s.inputs := by rfl
@[simp] theorem runInit_resp (s : State) : (runInit s).resp = s.resp := by rfl
@[simp] theorem runInit_evt (s : State) : (runInit s).evt = s.evt := by rfl
@[simp] theorem runInit_hresets (s : State) : (runInit s).hresets = s.hresets := by rfl

/-! ### `destroy` -/

@[simp] theorem destroy_status (s : State) : (destroy s).status = .uninit := by rfl
@[simp] theorem destroy_cfgCause (s : State) : (destroy s).cfgCause = 0 := by rfl
@[simp] theorem destroy_fGrowth (s : State) : (destroy s).fGrowth = s.fGrowth := by rfl
@[simp] theorem destroy_fUnsup (s : State) : (destroy s).fUnsup = s.fUnsup := by rfl
@[simp] theorem destroy_fsm (s : State) : (destroy s).fsm = .detect := by rfl
@[simp] theorem destroy_symCnt (s : State) : (destroy s).symCnt = 0 := by rfl
@[simp] theorem destroy_bw (s : State) : (destroy s).bw = .openBw := by rfl
@[simp] theorem destroy_agcLvl (s : State) : (destroy s).agcLvl = 0 := by rfl
@[simp] theorem destroy_nco (s : State) : (destroy s).nco = ⟨0, 0⟩ := by rfl
@[simp] theorem destroy_str (s : State) : (destroy s).str = ⟨0, 0, 0, 0⟩ := by rfl
@[simp] theorem destroy_sq (s : State) : (destroy s).sq = ⟨0, false⟩ := by rfl
@[simp] theorem destroy_det (s : State) : (destroy s).det = detReset := by rfl
@[simp] theorem destroy_est (s : State) : (destroy s).est = ⟨0, 0, 0⟩ := by rfl
@[simp] theorem destroy_hdr (s : State) : (destroy s).hdr = hdrReset := by rfl
@[simp] theorem destroy_evm (s : State) : (destroy s).evm = ⟨0, 0⟩ := by rfl
@[simp] theorem destroy_frameCnt (s : State) : (destroy s).frameCnt = s.frameCnt := by rfl
@[simp] theorem destroy_cap (s : State) : (destroy s).cap = ⟨0, 0, 0⟩ := by rfl
@[simp] theorem destroy_der (s : State) : (destroy s).der = ⟨0, 0, 0, 0⟩ := by rfl
@[simp] theorem destroy_cfg (s : State) : (destroy s).cfg = s.cfg := by rfl
@[simp] theorem destroy_ref (s : State) : (destroy s).ref = s.ref := by rfl
@[simp] theorem destroy_mf (s : State) : (destroy s).mf = s.mf := by rfl
@[simp] theorem destroy_dmf (s : State) : (destroy s).dmf = s.dmf := by rfl
@[simp] theorem destroy_win (s : State) : (destroy s).win = memClear s.win 0 0 := by rfl
@[simp] theorem destroy_dl (s : State) : (destroy s).dl = memClear s.dl 0 0 := by rfl
@[simp] theorem destroy_hsym (s : State) : (destroy s).hsym = s.hsym := by rfl
@[simp] theorem destroy_psym (s : State) : (destroy s).psym = s.psym := by rfl
@[simp] theorem destroy_penc (s : State) : (destroy s).penc = s.penc := by rfl
@[simp] theorem destroy_hdec (s : State) : (destroy s).hdec = s.hdec := by rfl
@[simp] theorem destroy_pdec (s : State) : (destroy s).pdec = s.pdec := by rfl
@[simp] theorem destroy_inputs (s : State) : (destroy s).inputs = s.inputs := by rfl
@[simp] theorem destroy_resp (s : State) : (destroy s).resp = s.resp := by rfl
@[simp] theorem destroy_evt (s : State) : (destroy s).evt = s.evt := by rfl
@[simp] theorem destroy_hresets (s : State) : (destroy s).hresets = s.hresets := by rfl

/-! ### `construct` -/

@[simp] theorem construct_status (P : Params) (s : State) : (construct P s).status = .run := by rfl
@[simp] theorem construct_cfgCause (P : Params) (s : State) : (construct P s).cfgCause = 0 := by rfl
@[simp] theorem construct_fGrowth (P : Params) (s : State) : (construct P s).fGrowth = false := by rfl
@[simp] theorem construct_fUnsup (P : Params) (s : State) : (construct P s).fUnsup = false := by rfl
@[simp] theorem construct_fsm (P : Params) (s : State) : (construct P s).fsm = .detect := by rfl
@[simp] theorem construct_symCnt (P : Params) (s : State) : (construct P s).symCnt = 0 := by rfl
@[simp] theorem construct_bw (P : Params) (s : State) : (construct P s).bw = .openBw := by rfl
@[simp] theorem construct_agcLvl (P : Params) (s : State) : (construct P s).agcLvl = 0 := by rfl
@[simp] theorem construct_nco (P : Params) (s : State) : (construct P s).nco = ⟨0, 0⟩ := by rfl
@[simp] theorem construct_str (P : Params) (s : State) : (construct P s).str = ⟨0, 0, 0, 0⟩ := by rfl
@[simp] theorem construct_sq (P : Params) (s : State) : (construct P s).sq = ⟨0, false⟩ := by rfl
@[simp] theorem construct_det (P : Params) (s : State) : (construct P s).det = detReset := by rfl
@[simp] theorem construct_est (P : Params) (s : State) : (construct P s).est = ⟨0, 0, 0⟩ := by rfl
@[simp] theorem construct_hdr (P : Params) (s : State) : (construct P s).hdr = hdrReset := by rfl
@[simp] theorem construct_evm (P : Params) (s : State) : (construct P s).evm = ⟨0, 0⟩ := by rfl
@[simp] theorem construct_frameCnt (P : Params) (s : State) : (construct P s).frameCnt = 0 := by rfl
@[simp] theorem construct_cap (P : Params) (s : State) : (construct P s).cap = ⟨0, 0, 0⟩ := by rfl
@[simp] theorem construct_der (P : Params) (s : State) : (construct P s).der = derive P s := by rfl
@[simp] theorem construct_cfg (P : Params) (s : State) : (construct P s).cfg = s.cfg := by rfl
@[simp] theorem construct_ref (P : Params) (s : State) : (construct P s).ref = s.ref := by rfl
@[simp] theorem construct_mf (P : Params) (s : State) : (construct P s).mf = s.mf := by rfl
@[simp] theorem construct_dmf (P : Params) (s : State) : (construct P s).dmf = s.dmf := by rfl
@[simp] theorem construct_win (P : Params) (s : State) :
    (construct P s).win = memClear s.win 0 (derive P s).n.toNat := by rfl
@[simp] theorem construct_dl (P : Params) (s : State) :
    (construct P s).dl = memClear s.dl 0 (derive P s).taps.toNat := by rfl
@[simp] theorem construct_hsym (P : Params) (s : State) : (construct P s).hsym = s.hsym := by rfl
@[simp] theorem construct_psym (P : Params) (s : State) : (construct P s).psym = s.psym := by rfl
@[simp] theorem construct_penc (P : Params) (s : State) : (construct P s).penc = s.penc := by rfl
@[simp] theorem construct_hdec (P : Params) (s : State) :
    (construct P s).hdec = memClear s.hdec 0 (cfgDecBytes s.cfg) := by rfl
@[simp] theorem construct_pdec (P : Params) (s : State) : (construct P s).pdec = s.pdec := by rfl
@[simp] theorem construct_inputs (P : Params) (s : State) : (construct P s).inputs = s.inputs := by rfl
@[simp] theorem construct_resp (P : Params) (s : State) : (construct P s).resp = s.resp := by rfl
@[simp] theorem construct_evt (P : Params) (s : State) : (construct P s).evt = s.evt := by rfl
@[simp] theorem construct_hresets (P : Params) (s : State) : (construct P s).hresets = s.hresets := by rfl

/-! ### `agcTrack` -/

@[simp] theorem agcTrack_status (x : Smp) (s : State) : (agcTrack x s).status = s.status := by rfl
@[simp] theorem agcTrack_cfgCause (x : Smp) (s : State) : (agcTrack x s).cfgCause = s.cfgCause := by rfl
@[simp] theorem agcTrack_fGrowth (x : Smp) (s : State) : (agcTrack x s).fGrowth = s.fGrowth := by rfl
@[simp] theorem agcTrack_fUnsup (x : Smp) (s : State) : (agcTrack x s).fUnsup = s.fUnsup := by rfl
@[simp] theorem agcTrack_fsm (x : Smp) (s : State) : (agcTrack x s).fsm = s.fsm := by rfl
@[simp] theorem agcTrack_symCnt (x : Smp) (s : State) : (agcTrack x s).symCnt = s.symCnt := by rfl
@[simp] theorem agcTrack_bw (x : Smp) (s : State) : (agcTrack x s).bw = s.bw := by rfl
@[simp] theorem agcTrack_agcLvl (x : Smp) (s : State) :
    (agcTrack x s).agcLvl = BitVec.ofInt 32 (agcNext (sel s.bw s.cfg.agcAlpha) x s.agcLvl.toNat) := by rfl
@[simp] theorem agcTrack_nco (x : Smp) (s : State) : (agcTrack x s).nco = s.nco := by rfl
@[simp] theorem agcTrack_str (x : Smp) (s : State) : (agcTrack x s).str = s.str := by rfl
@[simp] theorem agcTrack_sq (x : Smp) (s : State) : (agcTrack x s).sq = s.sq := by rfl
@[simp] theorem agcTrack_det (x : Smp) (s : State) : (agcTrack x s).det = s.det := by rfl
@[simp] theorem agcTrack_est (x : Smp) (s : State) : (agcTrack x s).est = s.est := by rfl
@[simp] theorem agcTrack_hdr (x : Smp) (s : State) : (agcTrack x s).hdr = s.hdr := by rfl
@[simp] theorem agcTrack_evm (x : Smp) (s : State) : (agcTrack x s).evm = s.evm := by rfl
@[simp] theorem agcTrack_frameCnt (x : Smp) (s : State) : (agcTrack x s).frameCnt = s.frameCnt := by rfl
@[simp] theorem agcTrack_cap (x : Smp) (s : State) : (agcTrack x s).cap = s.cap := by rfl
@[simp] theorem agcTrack_der (x : Smp) (s : State) : (agcTrack x s).der = s.der := by rfl
@[simp] theorem agcTrack_cfg (x : Smp) (s : State) : (agcTrack x s).cfg = s.cfg := by rfl
@[simp] theorem agcTrack_ref (x : Smp) (s : State) : (agcTrack x s).ref = s.ref := by rfl
@[simp] theorem agcTrack_mf (x : Smp) (s : State) : (agcTrack x s).mf = s.mf := by rfl
@[simp] theorem agcTrack_dmf (x : Smp) (s : State) : (agcTrack x s).dmf = s.dmf := by rfl
@[simp] theorem agcTrack_win (x : Smp) (s : State) : (agcTrack x s).win = s.win := by rfl
@[simp] theorem agcTrack_dl (x : Smp) (s : State) : (agcTrack x s).dl = s.dl := by rfl
@[simp] theorem agcTrack_hsym (x : Smp) (s : State) : (agcTrack x s).hsym = s.hsym := by rfl
@[simp] theorem agcTrack_psym (x : Smp) (s : State) : (agcTrack x s).psym = s.psym := by rfl
@[simp] theorem agcTrack_penc (x : Smp) (s : State) : (agcTrack x s).penc = s.penc := by rfl
@[simp] theorem agcTrack_hdec (x : Smp) (s : State) : (agcTrack x s).hdec = s.hdec := by rfl
@[simp] theorem agcTrack_pdec (x : Smp) (s : State) : (agcTrack x s).pdec = s.pdec := by rfl
@[simp] theorem agcTrack_inputs (x : Smp) (s : State) : (agcTrack x s).inputs = s.inputs := by rfl
@[simp] theorem agcTrack_resp (x : Smp) (s : State) : (agcTrack x s).resp = s.resp := by rfl
@[simp] theorem agcTrack_evt (x : Smp) (s : State) : (agcTrack x s).evt = s.evt := by rfl
@[simp] theorem agcTrack_hresets (x : Smp) (s : State) : (agcTrack x s).hresets = s.hresets := by rfl

/-! ### `agcSeed` -/

@[simp] theorem agcSeed_status (s : State) : (agcSeed s).status = s.status := by rfl
@[simp] theorem agcSeed_cfgCause (s : State) : (agcSeed s).cfgCause = s.cfgCause := by rfl
@[simp] theorem agcSeed_fGrowth (s : State) : (agcSeed s).fGrowth = s.fGrowth := by rfl
@[simp] theorem agcSeed_fUnsup (s : State) : (agcSeed s).fUnsup = s.fUnsup := by rfl
@[simp] theorem agcSeed_fsm (s : State) : (agcSeed s).fsm = s.fsm := by rfl
@[simp] theorem agcSeed_symCnt (s : State) : (agcSeed s).symCnt = s.symCnt := by rfl
@[simp] theorem agcSeed_bw (s : State) : (agcSeed s).bw = s.bw := by rfl
@[simp] theorem agcSeed_agcLvl (s : State) :
    (agcSeed s).agcLvl = BitVec.ofInt 32 (agcSeedLevel s.est.gamma.toNat s.der.pref.toNat) := by rfl
@[simp] theorem agcSeed_nco (s : State) : (agcSeed s).nco = s.nco := by rfl
@[simp] theorem agcSeed_str (s : State) : (agcSeed s).str = s.str := by rfl
@[simp] theorem agcSeed_sq (s : State) : (agcSeed s).sq = s.sq := by rfl
@[simp] theorem agcSeed_det (s : State) : (agcSeed s).det = s.det := by rfl
@[simp] theorem agcSeed_est (s : State) : (agcSeed s).est = s.est := by rfl
@[simp] theorem agcSeed_hdr (s : State) : (agcSeed s).hdr = s.hdr := by rfl
@[simp] theorem agcSeed_evm (s : State) : (agcSeed s).evm = s.evm := by rfl
@[simp] theorem agcSeed_frameCnt (s : State) : (agcSeed s).frameCnt = s.frameCnt := by rfl
@[simp] theorem agcSeed_cap (s : State) : (agcSeed s).cap = s.cap := by rfl
@[simp] theorem agcSeed_der (s : State) : (agcSeed s).der = s.der := by rfl
@[simp] theorem agcSeed_cfg (s : State) : (agcSeed s).cfg = s.cfg := by rfl
@[simp] theorem agcSeed_ref (s : State) : (agcSeed s).ref = s.ref := by rfl
@[simp] theorem agcSeed_mf (s : State) : (agcSeed s).mf = s.mf := by rfl
@[simp] theorem agcSeed_dmf (s : State) : (agcSeed s).dmf = s.dmf := by rfl
@[simp] theorem agcSeed_win (s : State) : (agcSeed s).win = s.win := by rfl
@[simp] theorem agcSeed_dl (s : State) : (agcSeed s).dl = s.dl := by rfl
@[simp] theorem agcSeed_hsym (s : State) : (agcSeed s).hsym = s.hsym := by rfl
@[simp] theorem agcSeed_psym (s : State) : (agcSeed s).psym = s.psym := by rfl
@[simp] theorem agcSeed_penc (s : State) : (agcSeed s).penc = s.penc := by rfl
@[simp] theorem agcSeed_hdec (s : State) : (agcSeed s).hdec = s.hdec := by rfl
@[simp] theorem agcSeed_pdec (s : State) : (agcSeed s).pdec = s.pdec := by rfl
@[simp] theorem agcSeed_inputs (s : State) : (agcSeed s).inputs = s.inputs := by rfl
@[simp] theorem agcSeed_resp (s : State) : (agcSeed s).resp = s.resp := by rfl
@[simp] theorem agcSeed_evt (s : State) : (agcSeed s).evt = s.evt := by rfl
@[simp] theorem agcSeed_hresets (s : State) : (agcSeed s).hresets = s.hresets := by rfl

/-! ### `ncoAdvance` -/

@[simp] theorem ncoAdvance_status (s : State) : (ncoAdvance s).status = s.status := by rfl
@[simp] theorem ncoAdvance_cfgCause (s : State) : (ncoAdvance s).cfgCause = s.cfgCause := by rfl
@[simp] theorem ncoAdvance_fGrowth (s : State) : (ncoAdvance s).fGrowth = s.fGrowth := by rfl
@[simp] theorem ncoAdvance_fUnsup (s : State) : (ncoAdvance s).fUnsup = s.fUnsup := by rfl
@[simp] theorem ncoAdvance_fsm (s : State) : (ncoAdvance s).fsm = s.fsm := by rfl
@[simp] theorem ncoAdvance_symCnt (s : State) : (ncoAdvance s).symCnt = s.symCnt := by rfl
@[simp] theorem ncoAdvance_bw (s : State) : (ncoAdvance s).bw = s.bw := by rfl
@[simp] theorem ncoAdvance_agcLvl (s : State) : (ncoAdvance s).agcLvl = s.agcLvl := by rfl
@[simp] theorem ncoAdvance_nco (s : State) : (ncoAdvance s).nco = ⟨s.nco.theta + s.nco.nu, s.nco.nu⟩ := by rfl
@[simp] theorem ncoAdvance_str (s : State) : (ncoAdvance s).str = s.str := by rfl
@[simp] theorem ncoAdvance_sq (s : State) : (ncoAdvance s).sq = s.sq := by rfl
@[simp] theorem ncoAdvance_det (s : State) : (ncoAdvance s).det = s.det := by rfl
@[simp] theorem ncoAdvance_est (s : State) : (ncoAdvance s).est = s.est := by rfl
@[simp] theorem ncoAdvance_hdr (s : State) : (ncoAdvance s).hdr = s.hdr := by rfl
@[simp] theorem ncoAdvance_evm (s : State) : (ncoAdvance s).evm = s.evm := by rfl
@[simp] theorem ncoAdvance_frameCnt (s : State) : (ncoAdvance s).frameCnt = s.frameCnt := by rfl
@[simp] theorem ncoAdvance_cap (s : State) : (ncoAdvance s).cap = s.cap := by rfl
@[simp] theorem ncoAdvance_der (s : State) : (ncoAdvance s).der = s.der := by rfl
@[simp] theorem ncoAdvance_cfg (s : State) : (ncoAdvance s).cfg = s.cfg := by rfl
@[simp] theorem ncoAdvance_ref (s : State) : (ncoAdvance s).ref = s.ref := by rfl
@[simp] theorem ncoAdvance_mf (s : State) : (ncoAdvance s).mf = s.mf := by rfl
@[simp] theorem ncoAdvance_dmf (s : State) : (ncoAdvance s).dmf = s.dmf := by rfl
@[simp] theorem ncoAdvance_win (s : State) : (ncoAdvance s).win = s.win := by rfl
@[simp] theorem ncoAdvance_dl (s : State) : (ncoAdvance s).dl = s.dl := by rfl
@[simp] theorem ncoAdvance_hsym (s : State) : (ncoAdvance s).hsym = s.hsym := by rfl
@[simp] theorem ncoAdvance_psym (s : State) : (ncoAdvance s).psym = s.psym := by rfl
@[simp] theorem ncoAdvance_penc (s : State) : (ncoAdvance s).penc = s.penc := by rfl
@[simp] theorem ncoAdvance_hdec (s : State) : (ncoAdvance s).hdec = s.hdec := by rfl
@[simp] theorem ncoAdvance_pdec (s : State) : (ncoAdvance s).pdec = s.pdec := by rfl
@[simp] theorem ncoAdvance_inputs (s : State) : (ncoAdvance s).inputs = s.inputs := by rfl
@[simp] theorem ncoAdvance_resp (s : State) : (ncoAdvance s).resp = s.resp := by rfl
@[simp] theorem ncoAdvance_evt (s : State) : (ncoAdvance s).evt = s.evt := by rfl
@[simp] theorem ncoAdvance_hresets (s : State) : (ncoAdvance s).hresets = s.hresets := by rfl

/-! ### `pllStep` -/

@[simp] theorem pllStep_status (e : BitVec 32) (s : State) : (pllStep e s).status = s.status := by rfl
@[simp] theorem pllStep_cfgCause (e : BitVec 32) (s : State) : (pllStep e s).cfgCause = s.cfgCause := by rfl
@[simp] theorem pllStep_fGrowth (e : BitVec 32) (s : State) : (pllStep e s).fGrowth = s.fGrowth := by rfl
@[simp] theorem pllStep_fUnsup (e : BitVec 32) (s : State) : (pllStep e s).fUnsup = s.fUnsup := by rfl
@[simp] theorem pllStep_fsm (e : BitVec 32) (s : State) : (pllStep e s).fsm = s.fsm := by rfl
@[simp] theorem pllStep_symCnt (e : BitVec 32) (s : State) : (pllStep e s).symCnt = s.symCnt := by rfl
@[simp] theorem pllStep_bw (e : BitVec 32) (s : State) : (pllStep e s).bw = s.bw := by rfl
@[simp] theorem pllStep_agcLvl (e : BitVec 32) (s : State) : (pllStep e s).agcLvl = s.agcLvl := by rfl
@[simp] theorem pllStep_str (e : BitVec 32) (s : State) : (pllStep e s).str = s.str := by rfl
@[simp] theorem pllStep_sq (e : BitVec 32) (s : State) : (pllStep e s).sq = s.sq := by rfl
@[simp] theorem pllStep_det (e : BitVec 32) (s : State) : (pllStep e s).det = s.det := by rfl
@[simp] theorem pllStep_est (e : BitVec 32) (s : State) : (pllStep e s).est = s.est := by rfl
@[simp] theorem pllStep_hdr (e : BitVec 32) (s : State) : (pllStep e s).hdr = s.hdr := by rfl
@[simp] theorem pllStep_evm (e : BitVec 32) (s : State) : (pllStep e s).evm = s.evm := by rfl
@[simp] theorem pllStep_frameCnt (e : BitVec 32) (s : State) : (pllStep e s).frameCnt = s.frameCnt := by rfl
@[simp] theorem pllStep_cap (e : BitVec 32) (s : State) : (pllStep e s).cap = s.cap := by rfl
@[simp] theorem pllStep_der (e : BitVec 32) (s : State) : (pllStep e s).der = s.der := by rfl
@[simp] theorem pllStep_cfg (e : BitVec 32) (s : State) : (pllStep e s).cfg = s.cfg := by rfl
@[simp] theorem pllStep_ref (e : BitVec 32) (s : State) : (pllStep e s).ref = s.ref := by rfl
@[simp] theorem pllStep_mf (e : BitVec 32) (s : State) : (pllStep e s).mf = s.mf := by rfl
@[simp] theorem pllStep_dmf (e : BitVec 32) (s : State) : (pllStep e s).dmf = s.dmf := by rfl
@[simp] theorem pllStep_win (e : BitVec 32) (s : State) : (pllStep e s).win = s.win := by rfl
@[simp] theorem pllStep_dl (e : BitVec 32) (s : State) : (pllStep e s).dl = s.dl := by rfl
@[simp] theorem pllStep_hsym (e : BitVec 32) (s : State) : (pllStep e s).hsym = s.hsym := by rfl
@[simp] theorem pllStep_psym (e : BitVec 32) (s : State) : (pllStep e s).psym = s.psym := by rfl
@[simp] theorem pllStep_penc (e : BitVec 32) (s : State) : (pllStep e s).penc = s.penc := by rfl
@[simp] theorem pllStep_hdec (e : BitVec 32) (s : State) : (pllStep e s).hdec = s.hdec := by rfl
@[simp] theorem pllStep_pdec (e : BitVec 32) (s : State) : (pllStep e s).pdec = s.pdec := by rfl
@[simp] theorem pllStep_inputs (e : BitVec 32) (s : State) : (pllStep e s).inputs = s.inputs := by rfl
@[simp] theorem pllStep_resp (e : BitVec 32) (s : State) : (pllStep e s).resp = s.resp := by rfl
@[simp] theorem pllStep_evt (e : BitVec 32) (s : State) : (pllStep e s).evt = s.evt := by rfl
@[simp] theorem pllStep_hresets (e : BitVec 32) (s : State) : (pllStep e s).hresets = s.hresets := by rfl

/-! ### `carrierSeed` -/

@[simp] theorem carrierSeed_status (s : State) : (carrierSeed s).status = s.status := by rfl
@[simp] theorem carrierSeed_cfgCause (s : State) : (carrierSeed s).cfgCause = s.cfgCause := by rfl
@[simp] theorem carrierSeed_fGrowth (s : State) : (carrierSeed s).fGrowth = s.fGrowth := by rfl
@[simp] theorem carrierSeed_fUnsup (s : State) : (carrierSeed s).fUnsup = s.fUnsup := by rfl
@[simp] theorem carrierSeed_fsm (s : State) : (carrierSeed s).fsm = s.fsm := by rfl
@[simp] theorem carrierSeed_symCnt (s : State) : (carrierSeed s).symCnt = s.symCnt := by rfl
@[simp] theorem carrierSeed_bw (s : State) : (carrierSeed s).bw = s.bw := by rfl
@[simp] theorem carrierSeed_agcLvl (s : State) : (carrierSeed s).agcLvl = s.agcLvl := by rfl
@[simp] theorem carrierSeed_nco (s : State) :
    (carrierSeed s).nco = ⟨0, BitVec.ofInt 32 (clampFreq s.cfg s.est.dphi.toInt)⟩ := by rfl
@[simp] theorem carrierSeed_str (s : State) : (carrierSeed s).str = s.str := by rfl
@[simp] theorem carrierSeed_sq (s : State) : (carrierSeed s).sq = s.sq := by rfl
@[simp] theorem carrierSeed_det (s : State) : (carrierSeed s).det = s.det := by rfl
@[simp] theorem carrierSeed_est (s : State) : (carrierSeed s).est = s.est := by rfl
@[simp] theorem carrierSeed_hdr (s : State) : (carrierSeed s).hdr = s.hdr := by rfl
@[simp] theorem carrierSeed_evm (s : State) : (carrierSeed s).evm = s.evm := by rfl
@[simp] theorem carrierSeed_frameCnt (s : State) : (carrierSeed s).frameCnt = s.frameCnt := by rfl
@[simp] theorem carrierSeed_cap (s : State) : (carrierSeed s).cap = s.cap := by rfl
@[simp] theorem carrierSeed_der (s : State) : (carrierSeed s).der = s.der := by rfl
@[simp] theorem carrierSeed_cfg (s : State) : (carrierSeed s).cfg = s.cfg := by rfl
@[simp] theorem carrierSeed_ref (s : State) : (carrierSeed s).ref = s.ref := by rfl
@[simp] theorem carrierSeed_mf (s : State) : (carrierSeed s).mf = s.mf := by rfl
@[simp] theorem carrierSeed_dmf (s : State) : (carrierSeed s).dmf = s.dmf := by rfl
@[simp] theorem carrierSeed_win (s : State) : (carrierSeed s).win = s.win := by rfl
@[simp] theorem carrierSeed_dl (s : State) : (carrierSeed s).dl = s.dl := by rfl
@[simp] theorem carrierSeed_hsym (s : State) : (carrierSeed s).hsym = s.hsym := by rfl
@[simp] theorem carrierSeed_psym (s : State) : (carrierSeed s).psym = s.psym := by rfl
@[simp] theorem carrierSeed_penc (s : State) : (carrierSeed s).penc = s.penc := by rfl
@[simp] theorem carrierSeed_hdec (s : State) : (carrierSeed s).hdec = s.hdec := by rfl
@[simp] theorem carrierSeed_pdec (s : State) : (carrierSeed s).pdec = s.pdec := by rfl
@[simp] theorem carrierSeed_inputs (s : State) : (carrierSeed s).inputs = s.inputs := by rfl
@[simp] theorem carrierSeed_resp (s : State) : (carrierSeed s).resp = s.resp := by rfl
@[simp] theorem carrierSeed_evt (s : State) : (carrierSeed s).evt = s.evt := by rfl
@[simp] theorem carrierSeed_hresets (s : State) : (carrierSeed s).hresets = s.hresets := by rfl

/-! ### `dlPush` -/

@[simp] theorem dlPush_status (z : Dat) (s : State) : (dlPush z s).status = s.status := by rfl
@[simp] theorem dlPush_cfgCause (z : Dat) (s : State) : (dlPush z s).cfgCause = s.cfgCause := by rfl
@[simp] theorem dlPush_fGrowth (z : Dat) (s : State) : (dlPush z s).fGrowth = s.fGrowth := by rfl
@[simp] theorem dlPush_fUnsup (z : Dat) (s : State) : (dlPush z s).fUnsup = s.fUnsup := by rfl
@[simp] theorem dlPush_fsm (z : Dat) (s : State) : (dlPush z s).fsm = s.fsm := by rfl
@[simp] theorem dlPush_symCnt (z : Dat) (s : State) : (dlPush z s).symCnt = s.symCnt := by rfl
@[simp] theorem dlPush_bw (z : Dat) (s : State) : (dlPush z s).bw = s.bw := by rfl
@[simp] theorem dlPush_agcLvl (z : Dat) (s : State) : (dlPush z s).agcLvl = s.agcLvl := by rfl
@[simp] theorem dlPush_nco (z : Dat) (s : State) : (dlPush z s).nco = s.nco := by rfl
@[simp] theorem dlPush_str (z : Dat) (s : State) : (dlPush z s).str = s.str := by rfl
@[simp] theorem dlPush_sq (z : Dat) (s : State) : (dlPush z s).sq = s.sq := by rfl
@[simp] theorem dlPush_det (z : Dat) (s : State) : (dlPush z s).det = s.det := by rfl
@[simp] theorem dlPush_est (z : Dat) (s : State) : (dlPush z s).est = s.est := by rfl
@[simp] theorem dlPush_hdr (z : Dat) (s : State) : (dlPush z s).hdr = s.hdr := by rfl
@[simp] theorem dlPush_evm (z : Dat) (s : State) : (dlPush z s).evm = s.evm := by rfl
@[simp] theorem dlPush_frameCnt (z : Dat) (s : State) : (dlPush z s).frameCnt = s.frameCnt := by rfl
@[simp] theorem dlPush_cap (z : Dat) (s : State) : (dlPush z s).cap = s.cap := by rfl
@[simp] theorem dlPush_der (z : Dat) (s : State) : (dlPush z s).der = s.der := by rfl
@[simp] theorem dlPush_cfg (z : Dat) (s : State) : (dlPush z s).cfg = s.cfg := by rfl
@[simp] theorem dlPush_ref (z : Dat) (s : State) : (dlPush z s).ref = s.ref := by rfl
@[simp] theorem dlPush_mf (z : Dat) (s : State) : (dlPush z s).mf = s.mf := by rfl
@[simp] theorem dlPush_dmf (z : Dat) (s : State) : (dlPush z s).dmf = s.dmf := by rfl
@[simp] theorem dlPush_win (z : Dat) (s : State) : (dlPush z s).win = s.win := by rfl
@[simp] theorem dlPush_hsym (z : Dat) (s : State) : (dlPush z s).hsym = s.hsym := by rfl
@[simp] theorem dlPush_psym (z : Dat) (s : State) : (dlPush z s).psym = s.psym := by rfl
@[simp] theorem dlPush_penc (z : Dat) (s : State) : (dlPush z s).penc = s.penc := by rfl
@[simp] theorem dlPush_hdec (z : Dat) (s : State) : (dlPush z s).hdec = s.hdec := by rfl
@[simp] theorem dlPush_pdec (z : Dat) (s : State) : (dlPush z s).pdec = s.pdec := by rfl
@[simp] theorem dlPush_inputs (z : Dat) (s : State) : (dlPush z s).inputs = s.inputs := by rfl
@[simp] theorem dlPush_resp (z : Dat) (s : State) : (dlPush z s).resp = s.resp := by rfl
@[simp] theorem dlPush_evt (z : Dat) (s : State) : (dlPush z s).evt = s.evt := by rfl
@[simp] theorem dlPush_hresets (z : Dat) (s : State) : (dlPush z s).hresets = s.hresets := by rfl

/-! ### `strobe` -/

@[simp] theorem strobe_status (P : Params) (s : State) : (strobe P s).1.status = s.status := by rfl
@[simp] theorem strobe_cfgCause (P : Params) (s : State) : (strobe P s).1.cfgCause = s.cfgCause := by rfl
@[simp] theorem strobe_fGrowth (P : Params) (s : State) : (strobe P s).1.fGrowth = s.fGrowth := by rfl
@[simp] theorem strobe_fUnsup (P : Params) (s : State) : (strobe P s).1.fUnsup = s.fUnsup := by rfl
@[simp] theorem strobe_fsm (P : Params) (s : State) : (strobe P s).1.fsm = s.fsm := by rfl
@[simp] theorem strobe_symCnt (P : Params) (s : State) : (strobe P s).1.symCnt = s.symCnt := by rfl
@[simp] theorem strobe_bw (P : Params) (s : State) : (strobe P s).1.bw = s.bw := by rfl
@[simp] theorem strobe_agcLvl (P : Params) (s : State) : (strobe P s).1.agcLvl = s.agcLvl := by rfl
@[simp] theorem strobe_nco (P : Params) (s : State) : (strobe P s).1.nco = s.nco := by rfl
@[simp] theorem strobe_sq (P : Params) (s : State) : (strobe P s).1.sq = s.sq := by rfl
@[simp] theorem strobe_det (P : Params) (s : State) : (strobe P s).1.det = s.det := by rfl
@[simp] theorem strobe_est (P : Params) (s : State) : (strobe P s).1.est = s.est := by rfl
@[simp] theorem strobe_hdr (P : Params) (s : State) : (strobe P s).1.hdr = s.hdr := by rfl
@[simp] theorem strobe_evm (P : Params) (s : State) : (strobe P s).1.evm = s.evm := by rfl
@[simp] theorem strobe_frameCnt (P : Params) (s : State) : (strobe P s).1.frameCnt = s.frameCnt := by rfl
@[simp] theorem strobe_cap (P : Params) (s : State) : (strobe P s).1.cap = s.cap := by rfl
@[simp] theorem strobe_der (P : Params) (s : State) : (strobe P s).1.der = s.der := by rfl
@[simp] theorem strobe_cfg (P : Params) (s : State) : (strobe P s).1.cfg = s.cfg := by rfl
@[simp] theorem strobe_ref (P : Params) (s : State) : (strobe P s).1.ref = s.ref := by rfl
@[simp] theorem strobe_mf (P : Params) (s : State) : (strobe P s).1.mf = s.mf := by rfl
@[simp] theorem strobe_dmf (P : Params) (s : State) : (strobe P s).1.dmf = s.dmf := by rfl
@[simp] theorem strobe_win (P : Params) (s : State) : (strobe P s).1.win = s.win := by rfl
@[simp] theorem strobe_dl (P : Params) (s : State) : (strobe P s).1.dl = s.dl := by rfl
@[simp] theorem strobe_hsym (P : Params) (s : State) : (strobe P s).1.hsym = s.hsym := by rfl
@[simp] theorem strobe_psym (P : Params) (s : State) : (strobe P s).1.psym = s.psym := by rfl
@[simp] theorem strobe_penc (P : Params) (s : State) : (strobe P s).1.penc = s.penc := by rfl
@[simp] theorem strobe_hdec (P : Params) (s : State) : (strobe P s).1.hdec = s.hdec := by rfl
@[simp] theorem strobe_pdec (P : Params) (s : State) : (strobe P s).1.pdec = s.pdec := by rfl
@[simp] theorem strobe_inputs (P : Params) (s : State) : (strobe P s).1.inputs = s.inputs := by rfl
@[simp] theorem strobe_resp (P : Params) (s : State) : (strobe P s).1.resp = s.resp := by rfl
@[simp] theorem strobe_evt (P : Params) (s : State) : (strobe P s).1.evt = s.evt := by rfl
@[simp] theorem strobe_hresets (P : Params) (s : State) : (strobe P s).1.hresets = s.hresets := by rfl

/-! ### `withHeader` -/

@[simp] theorem withHeader_status (P : Params) (s : State) : (withHeader P s).status = s.status := by rfl
@[simp] theorem withHeader_cfgCause (P : Params) (s : State) : (withHeader P s).cfgCause = s.cfgCause := by rfl
@[simp] theorem withHeader_fGrowth (P : Params) (s : State) : (withHeader P s).fGrowth = s.fGrowth := by rfl
@[simp] theorem withHeader_fUnsup (P : Params) (s : State) : (withHeader P s).fUnsup = s.fUnsup := by rfl
@[simp] theorem withHeader_fsm (P : Params) (s : State) : (withHeader P s).fsm = s.fsm := by rfl
@[simp] theorem withHeader_symCnt (P : Params) (s : State) : (withHeader P s).symCnt = s.symCnt := by rfl
@[simp] theorem withHeader_bw (P : Params) (s : State) : (withHeader P s).bw = s.bw := by rfl
@[simp] theorem withHeader_agcLvl (P : Params) (s : State) : (withHeader P s).agcLvl = s.agcLvl := by rfl
@[simp] theorem withHeader_nco (P : Params) (s : State) : (withHeader P s).nco = s.nco := by rfl
@[simp] theorem withHeader_str (P : Params) (s : State) : (withHeader P s).str = s.str := by rfl
@[simp] theorem withHeader_sq (P : Params) (s : State) : (withHeader P s).sq = s.sq := by rfl
@[simp] theorem withHeader_det (P : Params) (s : State) : (withHeader P s).det = s.det := by rfl
@[simp] theorem withHeader_est (P : Params) (s : State) : (withHeader P s).est = s.est := by rfl
@[simp] theorem withHeader_hdr (P : Params) (s : State) : (withHeader P s).hdr = s.hdr := by rfl
@[simp] theorem withHeader_evm (P : Params) (s : State) : (withHeader P s).evm = s.evm := by rfl
@[simp] theorem withHeader_frameCnt (P : Params) (s : State) : (withHeader P s).frameCnt = s.frameCnt := by rfl
@[simp] theorem withHeader_cap (P : Params) (s : State) : (withHeader P s).cap = s.cap := by rfl
@[simp] theorem withHeader_der (P : Params) (s : State) : (withHeader P s).der = s.der := by rfl
@[simp] theorem withHeader_cfg (P : Params) (s : State) : (withHeader P s).cfg = s.cfg := by rfl
@[simp] theorem withHeader_ref (P : Params) (s : State) : (withHeader P s).ref = s.ref := by rfl
@[simp] theorem withHeader_mf (P : Params) (s : State) : (withHeader P s).mf = s.mf := by rfl
@[simp] theorem withHeader_dmf (P : Params) (s : State) : (withHeader P s).dmf = s.dmf := by rfl
@[simp] theorem withHeader_win (P : Params) (s : State) : (withHeader P s).win = s.win := by rfl
@[simp] theorem withHeader_dl (P : Params) (s : State) : (withHeader P s).dl = s.dl := by rfl
@[simp] theorem withHeader_hsym (P : Params) (s : State) : (withHeader P s).hsym = s.hsym := by rfl
@[simp] theorem withHeader_psym (P : Params) (s : State) : (withHeader P s).psym = s.psym := by rfl
@[simp] theorem withHeader_penc (P : Params) (s : State) : (withHeader P s).penc = s.penc := by rfl
@[simp] theorem withHeader_pdec (P : Params) (s : State) : (withHeader P s).pdec = s.pdec := by rfl
@[simp] theorem withHeader_inputs (P : Params) (s : State) : (withHeader P s).inputs = s.inputs := by rfl
@[simp] theorem withHeader_resp (P : Params) (s : State) : (withHeader P s).resp = s.resp := by rfl
@[simp] theorem withHeader_evt (P : Params) (s : State) : (withHeader P s).evt = s.evt := by rfl
@[simp] theorem withHeader_hresets (P : Params) (s : State) : (withHeader P s).hresets = s.hresets := by rfl

/-! ### `payloadComplete` -/

@[simp] theorem payloadComplete_status (P : Params) (s : State) : (payloadComplete P s).status = s.status := by rfl
@[simp] theorem payloadComplete_cfgCause (P : Params) (s : State) :
    (payloadComplete P s).cfgCause = s.cfgCause := by rfl
@[simp] theorem payloadComplete_fGrowth (P : Params) (s : State) : (payloadComplete P s).fGrowth = s.fGrowth := by rfl
@[simp] theorem payloadComplete_fUnsup (P : Params) (s : State) : (payloadComplete P s).fUnsup = s.fUnsup := by rfl
@[simp] theorem payloadComplete_fsm (P : Params) (s : State) : (payloadComplete P s).fsm = .reset := by rfl
@[simp] theorem payloadComplete_symCnt (P : Params) (s : State) : (payloadComplete P s).symCnt = s.symCnt := by rfl
@[simp] theorem payloadComplete_bw (P : Params) (s : State) : (payloadComplete P s).bw = s.bw := by rfl
@[simp] theorem payloadComplete_agcLvl (P : Params) (s : State) : (payloadComplete P s).agcLvl = s.agcLvl := by rfl
@[simp] theorem payloadComplete_nco (P : Params) (s : State) : (payloadComplete P s).nco = s.nco := by rfl
@[simp] theorem payloadComplete_str (P : Params) (s : State) : (payloadComplete P s).str = s.str := by rfl
@[simp] theorem payloadComplete_sq (P : Params) (s : State) : (payloadComplete P s).sq = s.sq := by rfl
@[simp] theorem payloadComplete_det (P : Params) (s : State) : (payloadComplete P s).det = s.det := by rfl
@[simp] theorem payloadComplete_est (P : Params) (s : State) : (payloadComplete P s).est = s.est := by rfl
@[simp] theorem payloadComplete_hdr (P : Params) (s : State) : (payloadComplete P s).hdr = s.hdr := by rfl
@[simp] theorem payloadComplete_evm (P : Params) (s : State) : (payloadComplete P s).evm = s.evm := by rfl
@[simp] theorem payloadComplete_frameCnt (P : Params) (s : State) :
    (payloadComplete P s).frameCnt = s.frameCnt := by rfl
@[simp] theorem payloadComplete_cap (P : Params) (s : State) : (payloadComplete P s).cap = s.cap := by rfl
@[simp] theorem payloadComplete_der (P : Params) (s : State) : (payloadComplete P s).der = s.der := by rfl
@[simp] theorem payloadComplete_cfg (P : Params) (s : State) : (payloadComplete P s).cfg = s.cfg := by rfl
@[simp] theorem payloadComplete_ref (P : Params) (s : State) : (payloadComplete P s).ref = s.ref := by rfl
@[simp] theorem payloadComplete_mf (P : Params) (s : State) : (payloadComplete P s).mf = s.mf := by rfl
@[simp] theorem payloadComplete_dmf (P : Params) (s : State) : (payloadComplete P s).dmf = s.dmf := by rfl
@[simp] theorem payloadComplete_win (P : Params) (s : State) : (payloadComplete P s).win = s.win := by rfl
@[simp] theorem payloadComplete_dl (P : Params) (s : State) : (payloadComplete P s).dl = s.dl := by rfl
@[simp] theorem payloadComplete_hsym (P : Params) (s : State) : (payloadComplete P s).hsym = s.hsym := by rfl
@[simp] theorem payloadComplete_psym (P : Params) (s : State) : (payloadComplete P s).psym = s.psym := by rfl
@[simp] theorem payloadComplete_hdec (P : Params) (s : State) : (payloadComplete P s).hdec = s.hdec := by rfl
@[simp] theorem payloadComplete_inputs (P : Params) (s : State) : (payloadComplete P s).inputs = s.inputs := by rfl
@[simp] theorem payloadComplete_resp (P : Params) (s : State) : (payloadComplete P s).resp = s.resp := by rfl
@[simp] theorem payloadComplete_hresets (P : Params) (s : State) : (payloadComplete P s).hresets = s.hresets := by rfl

/-! ### `timerTick` -/

@[simp] theorem timerTick_status (s : State) : (timerTick s).status = s.status := by rfl
@[simp] theorem timerTick_cfgCause (s : State) : (timerTick s).cfgCause = s.cfgCause := by rfl
@[simp] theorem timerTick_fGrowth (s : State) : (timerTick s).fGrowth = s.fGrowth := by rfl
@[simp] theorem timerTick_fUnsup (s : State) : (timerTick s).fUnsup = s.fUnsup := by rfl
@[simp] theorem timerTick_fsm (s : State) : (timerTick s).fsm = s.fsm := by rfl
@[simp] theorem timerTick_symCnt (s : State) : (timerTick s).symCnt = s.symCnt := by rfl
@[simp] theorem timerTick_bw (s : State) : (timerTick s).bw = s.bw := by rfl
@[simp] theorem timerTick_agcLvl (s : State) : (timerTick s).agcLvl = s.agcLvl := by rfl
@[simp] theorem timerTick_nco (s : State) : (timerTick s).nco = s.nco := by rfl
@[simp] theorem timerTick_str (s : State) :
    (timerTick s).str = ⟨s.str.soft, s.str.q, s.str.idx, BitVec.ofInt 32 (s.str.timer.toInt - 1)⟩ := by rfl
@[simp] theorem timerTick_sq (s : State) : (timerTick s).sq = s.sq := by rfl
@[simp] theorem timerTick_det (s : State) : (timerTick s).det = s.det := by rfl
@[simp] theorem timerTick_est (s : State) : (timerTick s).est = s.est := by rfl
@[simp] theorem timerTick_hdr (s : State) : (timerTick s).hdr = s.hdr := by rfl
@[simp] theorem timerTick_evm (s : State) : (timerTick s).evm = s.evm := by rfl
@[simp] theorem timerTick_frameCnt (s : State) : (timerTick s).frameCnt = s.frameCnt := by rfl
@[simp] theorem timerTick_cap (s : State) : (timerTick s).cap = s.cap := by rfl
@[simp] theorem timerTick_der (s : State) : (timerTick s).der = s.der := by rfl
@[simp] theorem timerTick_cfg (s : State) : (timerTick s).cfg = s.cfg := by rfl
@[simp] theorem timerTick_ref (s : State) : (timerTick s).ref = s.ref := by rfl
@[simp] theorem timerTick_mf (s : State) : (timerTick s).mf = s.mf := by rfl
@[simp] theorem timerTick_dmf (s : State) : (timerTick s).dmf = s.dmf := by rfl
@[simp] theorem timerTick_win (s : State) : (timerTick s).win = s.win := by rfl
@[simp] theorem timerTick_dl (s : State) : (timerTick s).dl = s.dl := by rfl
@[simp] theorem timerTick_hsym (s : State) : (timerTick s).hsym = s.hsym := by rfl
@[simp] theorem timerTick_psym (s : State) : (timerTick s).psym = s.psym := by rfl
@[simp] theorem timerTick_penc (s : State) : (timerTick s).penc = s.penc := by rfl
@[simp] theorem timerTick_hdec (s : State) : (timerTick s).hdec = s.hdec := by rfl
@[simp] theorem timerTick_pdec (s : State) : (timerTick s).pdec = s.pdec := by rfl
@[simp] theorem timerTick_inputs (s : State) : (timerTick s).inputs = s.inputs := by rfl
@[simp] theorem timerTick_resp (s : State) : (timerTick s).resp = s.resp := by rfl
@[simp] theorem timerTick_evt (s : State) : (timerTick s).evt = s.evt := by rfl
@[simp] theorem timerTick_hresets (s : State) : (timerTick s).hresets = s.hresets := by rfl

/-! ### `timingSeed` -/

@[simp] theorem timingSeed_status (s : State) : (timingSeed s).status = s.status := by rfl
@[simp] theorem timingSeed_cfgCause (s : State) : (timingSeed s).cfgCause = s.cfgCause := by rfl
@[simp] theorem timingSeed_fGrowth (s : State) : (timingSeed s).fGrowth = s.fGrowth := by rfl
@[simp] theorem timingSeed_fUnsup (s : State) : (timingSeed s).fUnsup = s.fUnsup := by rfl
@[simp] theorem timingSeed_fsm (s : State) : (timingSeed s).fsm = s.fsm := by rfl
@[simp] theorem timingSeed_symCnt (s : State) : (timingSeed s).symCnt = s.symCnt := by rfl
@[simp] theorem timingSeed_bw (s : State) : (timingSeed s).bw = s.bw := by rfl
@[simp] theorem timingSeed_agcLvl (s : State) : (timingSeed s).agcLvl = s.agcLvl := by rfl
@[simp] theorem timingSeed_nco (s : State) : (timingSeed s).nco = s.nco := by rfl
@[simp] theorem timingSeed_sq (s : State) : (timingSeed s).sq = s.sq := by rfl
@[simp] theorem timingSeed_det (s : State) : (timingSeed s).det = s.det := by rfl
@[simp] theorem timingSeed_est (s : State) : (timingSeed s).est = s.est := by rfl
@[simp] theorem timingSeed_hdr (s : State) : (timingSeed s).hdr = s.hdr := by rfl
@[simp] theorem timingSeed_evm (s : State) : (timingSeed s).evm = s.evm := by rfl
@[simp] theorem timingSeed_frameCnt (s : State) : (timingSeed s).frameCnt = s.frameCnt := by rfl
@[simp] theorem timingSeed_cap (s : State) : (timingSeed s).cap = s.cap := by rfl
@[simp] theorem timingSeed_der (s : State) : (timingSeed s).der = s.der := by rfl
@[simp] theorem timingSeed_cfg (s : State) : (timingSeed s).cfg = s.cfg := by rfl
@[simp] theorem timingSeed_ref (s : State) : (timingSeed s).ref = s.ref := by rfl
@[simp] theorem timingSeed_mf (s : State) : (timingSeed s).mf = s.mf := by rfl
@[simp] theorem timingSeed_dmf (s : State) : (timingSeed s).dmf = s.dmf := by rfl
@[simp] theorem timingSeed_win (s : State) : (timingSeed s).win = s.win := by rfl
@[simp] theorem timingSeed_dl (s : State) : (timingSeed s).dl = memClear s.dl 0 s.der.taps.toNat := by rfl
@[simp] theorem timingSeed_hsym (s : State) : (timingSeed s).hsym = s.hsym := by rfl
@[simp] theorem timingSeed_psym (s : State) : (timingSeed s).psym = s.psym := by rfl
@[simp] theorem timingSeed_penc (s : State) : (timingSeed s).penc = s.penc := by rfl
@[simp] theorem timingSeed_hdec (s : State) : (timingSeed s).hdec = s.hdec := by rfl
@[simp] theorem timingSeed_pdec (s : State) : (timingSeed s).pdec = s.pdec := by rfl
@[simp] theorem timingSeed_inputs (s : State) : (timingSeed s).inputs = s.inputs := by rfl
@[simp] theorem timingSeed_resp (s : State) : (timingSeed s).resp = s.resp := by rfl
@[simp] theorem timingSeed_evt (s : State) : (timingSeed s).evt = s.evt := by rfl
@[simp] theorem timingSeed_hresets (s : State) : (timingSeed s).hresets = s.hresets := by rfl

/-! ### `winPush` -/

@[simp] theorem winPush_status (x : Smp) (s : State) : (winPush x s).status = s.status := by rfl
@[simp] theorem winPush_cfgCause (x : Smp) (s : State) : (winPush x s).cfgCause = s.cfgCause := by rfl
@[simp] theorem winPush_fGrowth (x : Smp) (s : State) : (winPush x s).fGrowth = s.fGrowth := by rfl
@[simp] theorem winPush_fUnsup (x : Smp) (s : State) : (winPush x s).fUnsup = s.fUnsup := by rfl
@[simp] theorem winPush_fsm (x : Smp) (s : State) : (winPush x s).fsm = s.fsm := by rfl
@[simp] theorem winPush_symCnt (x : Smp) (s : State) : (winPush x s).symCnt = s.symCnt := by rfl
@[simp] theorem winPush_bw (x : Smp) (s : State) : (winPush x s).bw = s.bw := by rfl
@[simp] theorem winPush_agcLvl (x : Smp) (s : State) : (winPush x s).agcLvl = s.agcLvl := by rfl
@[simp] theorem winPush_nco (x : Smp) (s : State) : (winPush x s).nco = s.nco := by rfl
@[simp] theorem winPush_str (x : Smp) (s : State) : (winPush x s).str = s.str := by rfl
@[simp] theorem winPush_sq (x : Smp) (s : State) : (winPush x s).sq = s.sq := by rfl
@[simp] theorem winPush_est (x : Smp) (s : State) : (winPush x s).est = s.est := by rfl
@[simp] theorem winPush_hdr (x : Smp) (s : State) : (winPush x s).hdr = s.hdr := by rfl
@[simp] theorem winPush_evm (x : Smp) (s : State) : (winPush x s).evm = s.evm := by rfl
@[simp] theorem winPush_frameCnt (x : Smp) (s : State) : (winPush x s).frameCnt = s.frameCnt := by rfl
@[simp] theorem winPush_cap (x : Smp) (s : State) : (winPush x s).cap = s.cap := by rfl
@[simp] theorem winPush_der (x : Smp) (s : State) : (winPush x s).der = s.der := by rfl
@[simp] theorem winPush_cfg (x : Smp) (s : State) : (winPush x s).cfg = s.cfg := by rfl
@[simp] theorem winPush_ref (x : Smp) (s : State) : (winPush x s).ref = s.ref := by rfl
@[simp] theorem winPush_mf (x : Smp) (s : State) : (winPush x s).mf = s.mf := by rfl
@[simp] theorem winPush_dmf (x : Smp) (s : State) : (winPush x s).dmf = s.dmf := by rfl
@[simp] theorem winPush_win (x : Smp) (s : State) :
    (winPush x s).win = memWrite Smp.zero s.win s.det.wptr.toNat x := by rfl
@[simp] theorem winPush_dl (x : Smp) (s : State) : (winPush x s).dl = s.dl := by rfl
@[simp] theorem winPush_hsym (x : Smp) (s : State) : (winPush x s).hsym = s.hsym := by rfl
@[simp] theorem winPush_psym (x : Smp) (s : State) : (winPush x s).psym = s.psym := by rfl
@[simp] theorem winPush_penc (x : Smp) (s : State) : (winPush x s).penc = s.penc := by rfl
@[simp] theorem winPush_hdec (x : Smp) (s : State) : (winPush x s).hdec = s.hdec := by rfl
@[simp] theorem winPush_pdec (x : Smp) (s : State) : (winPush x s).pdec = s.pdec := by rfl
@[simp] theorem winPush_inputs (x : Smp) (s : State) : (winPush x s).inputs = s.inputs := by rfl
@[simp] theorem winPush_resp (x : Smp) (s : State) : (winPush x s).resp = s.resp := by rfl
@[simp] theorem winPush_evt (x : Smp) (s : State) : (winPush x s).evt = s.evt := by rfl
@[simp] theorem winPush_hresets (x : Smp) (s : State) : (winPush x s).hresets = s.hresets := by rfl

/-! ### `declareDet` -/

@[simp] theorem declareDet_status (s : State) : (declareDet s).status = s.status := by rfl
@[simp] theorem declareDet_cfgCause (s : State) : (declareDet s).cfgCause = s.cfgCause := by rfl
@[simp] theorem declareDet_fGrowth (s : State) : (declareDet s).fGrowth = s.fGrowth := by rfl
@[simp] theorem declareDet_fUnsup (s : State) : (declareDet s).fUnsup = s.fUnsup := by rfl
@[simp] theorem declareDet_fsm (s : State) : (declareDet s).fsm = s.fsm := by rfl
@[simp] theorem declareDet_symCnt (s : State) : (declareDet s).symCnt = s.symCnt := by rfl
@[simp] theorem declareDet_bw (s : State) : (declareDet s).bw = s.bw := by rfl
@[simp] theorem declareDet_agcLvl (s : State) : (declareDet s).agcLvl = s.agcLvl := by rfl
@[simp] theorem declareDet_nco (s : State) : (declareDet s).nco = s.nco := by rfl
@[simp] theorem declareDet_str (s : State) : (declareDet s).str = s.str := by rfl
@[simp] theorem declareDet_sq (s : State) : (declareDet s).sq = s.sq := by rfl
@[simp] theorem declareDet_hdr (s : State) : (declareDet s).hdr = s.hdr := by rfl
@[simp] theorem declareDet_evm (s : State) : (declareDet s).evm = s.evm := by rfl
@[simp] theorem declareDet_frameCnt (s : State) : (declareDet s).frameCnt = s.frameCnt := by rfl
@[simp] theorem declareDet_cap (s : State) : (declareDet s).cap = s.cap := by rfl
@[simp] theorem declareDet_der (s : State) : (declareDet s).der = s.der := by rfl
@[simp] theorem declareDet_cfg (s : State) : (declareDet s).cfg = s.cfg := by rfl
@[simp] theorem declareDet_ref (s : State) : (declareDet s).ref = s.ref := by rfl
@[simp] theorem declareDet_mf (s : State) : (declareDet s).mf = s.mf := by rfl
@[simp] theorem declareDet_dmf (s : State) : (declareDet s).dmf = s.dmf := by rfl
@[simp] theorem declareDet_win (s : State) : (declareDet s).win = s.win := by rfl
@[simp] theorem declareDet_dl (s : State) : (declareDet s).dl = s.dl := by rfl
@[simp] theorem declareDet_hsym (s : State) : (declareDet s).hsym = s.hsym := by rfl
@[simp] theorem declareDet_psym (s : State) : (declareDet s).psym = s.psym := by rfl
@[simp] theorem declareDet_penc (s : State) : (declareDet s).penc = s.penc := by rfl
@[simp] theorem declareDet_hdec (s : State) : (declareDet s).hdec = s.hdec := by rfl
@[simp] theorem declareDet_pdec (s : State) : (declareDet s).pdec = s.pdec := by rfl
@[simp] theorem declareDet_inputs (s : State) : (declareDet s).inputs = s.inputs := by rfl
@[simp] theorem declareDet_resp (s : State) : (declareDet s).resp = s.resp := by rfl
@[simp] theorem declareDet_evt (s : State) : (declareDet s).evt = s.evt := by rfl
@[simp] theorem declareDet_hresets (s : State) : (declareDet s).hresets = s.hresets := by rfl

/-! ### `latchRho` -/

@[simp] theorem latchRho_status (m : Metric) (s : State) : (latchRho m s).status = s.status := by rfl
@[simp] theorem latchRho_cfgCause (m : Metric) (s : State) : (latchRho m s).cfgCause = s.cfgCause := by rfl
@[simp] theorem latchRho_fGrowth (m : Metric) (s : State) : (latchRho m s).fGrowth = s.fGrowth := by rfl
@[simp] theorem latchRho_fUnsup (m : Metric) (s : State) : (latchRho m s).fUnsup = s.fUnsup := by rfl
@[simp] theorem latchRho_fsm (m : Metric) (s : State) : (latchRho m s).fsm = s.fsm := by rfl
@[simp] theorem latchRho_symCnt (m : Metric) (s : State) : (latchRho m s).symCnt = s.symCnt := by rfl
@[simp] theorem latchRho_bw (m : Metric) (s : State) : (latchRho m s).bw = s.bw := by rfl
@[simp] theorem latchRho_agcLvl (m : Metric) (s : State) : (latchRho m s).agcLvl = s.agcLvl := by rfl
@[simp] theorem latchRho_nco (m : Metric) (s : State) : (latchRho m s).nco = s.nco := by rfl
@[simp] theorem latchRho_str (m : Metric) (s : State) : (latchRho m s).str = s.str := by rfl
@[simp] theorem latchRho_sq (m : Metric) (s : State) : (latchRho m s).sq = s.sq := by rfl
@[simp] theorem latchRho_est (m : Metric) (s : State) : (latchRho m s).est = s.est := by rfl
@[simp] theorem latchRho_hdr (m : Metric) (s : State) : (latchRho m s).hdr = s.hdr := by rfl
@[simp] theorem latchRho_evm (m : Metric) (s : State) : (latchRho m s).evm = s.evm := by rfl
@[simp] theorem latchRho_frameCnt (m : Metric) (s : State) : (latchRho m s).frameCnt = s.frameCnt := by rfl
@[simp] theorem latchRho_cap (m : Metric) (s : State) : (latchRho m s).cap = s.cap := by rfl
@[simp] theorem latchRho_der (m : Metric) (s : State) : (latchRho m s).der = s.der := by rfl
@[simp] theorem latchRho_cfg (m : Metric) (s : State) : (latchRho m s).cfg = s.cfg := by rfl
@[simp] theorem latchRho_ref (m : Metric) (s : State) : (latchRho m s).ref = s.ref := by rfl
@[simp] theorem latchRho_mf (m : Metric) (s : State) : (latchRho m s).mf = s.mf := by rfl
@[simp] theorem latchRho_dmf (m : Metric) (s : State) : (latchRho m s).dmf = s.dmf := by rfl
@[simp] theorem latchRho_win (m : Metric) (s : State) : (latchRho m s).win = s.win := by rfl
@[simp] theorem latchRho_dl (m : Metric) (s : State) : (latchRho m s).dl = s.dl := by rfl
@[simp] theorem latchRho_hsym (m : Metric) (s : State) : (latchRho m s).hsym = s.hsym := by rfl
@[simp] theorem latchRho_psym (m : Metric) (s : State) : (latchRho m s).psym = s.psym := by rfl
@[simp] theorem latchRho_penc (m : Metric) (s : State) : (latchRho m s).penc = s.penc := by rfl
@[simp] theorem latchRho_hdec (m : Metric) (s : State) : (latchRho m s).hdec = s.hdec := by rfl
@[simp] theorem latchRho_pdec (m : Metric) (s : State) : (latchRho m s).pdec = s.pdec := by rfl
@[simp] theorem latchRho_inputs (m : Metric) (s : State) : (latchRho m s).inputs = s.inputs := by rfl
@[simp] theorem latchRho_resp (m : Metric) (s : State) : (latchRho m s).resp = s.resp := by rfl
@[simp] theorem latchRho_evt (m : Metric) (s : State) : (latchRho m s).evt = s.evt := by rfl
@[simp] theorem latchRho_hresets (m : Metric) (s : State) : (latchRho m s).hresets = s.hresets := by rfl

/-! ### `storeHeader` -/

@[simp] theorem storeHeader_status (h : List Byte) (s : State) : (storeHeader h s).status = s.status := by rfl
@[simp] theorem storeHeader_cfgCause (h : List Byte) (s : State) : (storeHeader h s).cfgCause = s.cfgCause := by rfl
@[simp] theorem storeHeader_fGrowth (h : List Byte) (s : State) : (storeHeader h s).fGrowth = s.fGrowth := by rfl
@[simp] theorem storeHeader_fUnsup (h : List Byte) (s : State) : (storeHeader h s).fUnsup = s.fUnsup := by rfl
@[simp] theorem storeHeader_fsm (h : List Byte) (s : State) : (storeHeader h s).fsm = s.fsm := by rfl
@[simp] theorem storeHeader_symCnt (h : List Byte) (s : State) : (storeHeader h s).symCnt = s.symCnt := by rfl
@[simp] theorem storeHeader_bw (h : List Byte) (s : State) : (storeHeader h s).bw = s.bw := by rfl
@[simp] theorem storeHeader_agcLvl (h : List Byte) (s : State) : (storeHeader h s).agcLvl = s.agcLvl := by rfl
@[simp] theorem storeHeader_nco (h : List Byte) (s : State) : (storeHeader h s).nco = s.nco := by rfl
@[simp] theorem storeHeader_str (h : List Byte) (s : State) : (storeHeader h s).str = s.str := by rfl
@[simp] theorem storeHeader_sq (h : List Byte) (s : State) : (storeHeader h s).sq = s.sq := by rfl
@[simp] theorem storeHeader_det (h : List Byte) (s : State) : (storeHeader h s).det = s.det := by rfl
@[simp] theorem storeHeader_est (h : List Byte) (s : State) : (storeHeader h s).est = s.est := by rfl
@[simp] theorem storeHeader_hdr (h : List Byte) (s : State) : (storeHeader h s).hdr = s.hdr := by rfl
@[simp] theorem storeHeader_evm (h : List Byte) (s : State) : (storeHeader h s).evm = s.evm := by rfl
@[simp] theorem storeHeader_frameCnt (h : List Byte) (s : State) : (storeHeader h s).frameCnt = s.frameCnt := by rfl
@[simp] theorem storeHeader_cap (h : List Byte) (s : State) : (storeHeader h s).cap = s.cap := by rfl
@[simp] theorem storeHeader_der (h : List Byte) (s : State) : (storeHeader h s).der = s.der := by rfl
@[simp] theorem storeHeader_cfg (h : List Byte) (s : State) : (storeHeader h s).cfg = s.cfg := by rfl
@[simp] theorem storeHeader_ref (h : List Byte) (s : State) : (storeHeader h s).ref = s.ref := by rfl
@[simp] theorem storeHeader_mf (h : List Byte) (s : State) : (storeHeader h s).mf = s.mf := by rfl
@[simp] theorem storeHeader_dmf (h : List Byte) (s : State) : (storeHeader h s).dmf = s.dmf := by rfl
@[simp] theorem storeHeader_win (h : List Byte) (s : State) : (storeHeader h s).win = s.win := by rfl
@[simp] theorem storeHeader_dl (h : List Byte) (s : State) : (storeHeader h s).dl = s.dl := by rfl
@[simp] theorem storeHeader_hsym (h : List Byte) (s : State) : (storeHeader h s).hsym = s.hsym := by rfl
@[simp] theorem storeHeader_psym (h : List Byte) (s : State) : (storeHeader h s).psym = s.psym := by rfl
@[simp] theorem storeHeader_penc (h : List Byte) (s : State) : (storeHeader h s).penc = s.penc := by rfl
@[simp] theorem storeHeader_hdec (h : List Byte) (s : State) :
    (storeHeader h s).hdec = memSetRange 0 s.hdec 0 (cfgDecBytes s.cfg) fun i => h.getD i 0 := by rfl
@[simp] theorem storeHeader_pdec (h : List Byte) (s : State) : (storeHeader h s).pdec = s.pdec := by rfl
@[simp] theorem storeHeader_inputs (h : List Byte) (s : State) : (storeHeader h s).inputs = s.inputs := by rfl
@[simp] theorem storeHeader_resp (h : List Byte) (s : State) : (storeHeader h s).resp = s.resp := by rfl
@[simp] theorem storeHeader_evt (h : List Byte) (s : State) : (storeHeader h s).evt = s.evt := by rfl
@[simp] theorem storeHeader_hresets (h : List Byte) (s : State) : (storeHeader h s).hresets = s.hresets := by rfl

/-! ### `endFrame` -/

@[simp] theorem endFrame_status (k : EventKind) (a b c : Bool) (s : State) :
    (endFrame k a b c s).status = s.status := by rfl
@[simp] theorem endFrame_cfgCause (k : EventKind) (a b c : Bool) (s : State) :
    (endFrame k a b c s).cfgCause = s.cfgCause := by rfl
@[simp] theorem endFrame_fGrowth (k : EventKind) (a b c : Bool) (s : State) :
    (endFrame k a b c s).fGrowth = s.fGrowth := by rfl
@[simp] theorem endFrame_fUnsup (k : EventKind) (a b c : Bool) (s : State) :
    (endFrame k a b c s).fUnsup = s.fUnsup := by rfl
@[simp] theorem endFrame_fsm (k : EventKind) (a b c : Bool) (s : State) : (endFrame k a b c s).fsm = .reset := by rfl
@[simp] theorem endFrame_symCnt (k : EventKind) (a b c : Bool) (s : State) :
    (endFrame k a b c s).symCnt = s.symCnt := by rfl
@[simp] theorem endFrame_bw (k : EventKind) (a b c : Bool) (s : State) : (endFrame k a b c s).bw = s.bw := by rfl
@[simp] theorem endFrame_agcLvl (k : EventKind) (a b c : Bool) (s : State) :
    (endFrame k a b c s).agcLvl = s.agcLvl := by rfl
@[simp] theorem endFrame_nco (k : EventKind) (a b c : Bool) (s : State) : (endFrame k a b c s).nco = s.nco := by rfl
@[simp] theorem endFrame_str (k : EventKind) (a b c : Bool) (s : State) : (endFrame k a b c s).str = s.str := by rfl
@[simp] theorem endFrame_sq (k : EventKind) (a b c : Bool) (s : State) : (endFrame k a b c s).sq = s.sq := by rfl
@[simp] theorem endFrame_det (k : EventKind) (a b c : Bool) (s : State) : (endFrame k a b c s).det = s.det := by rfl
@[simp] theorem endFrame_est (k : EventKind) (a b c : Bool) (s : State) : (endFrame k a b c s).est = s.est := by rfl
@[simp] theorem endFrame_hdr (k : EventKind) (a b c : Bool) (s : State) : (endFrame k a b c s).hdr = s.hdr := by rfl
@[simp] theorem endFrame_evm (k : EventKind) (a b c : Bool) (s : State) : (endFrame k a b c s).evm = s.evm := by rfl
@[simp] theorem endFrame_frameCnt (k : EventKind) (a b c : Bool) (s : State) :
    (endFrame k a b c s).frameCnt = s.frameCnt := by rfl
@[simp] theorem endFrame_cap (k : EventKind) (a b c : Bool) (s : State) : (endFrame k a b c s).cap = s.cap := by rfl
@[simp] theorem endFrame_der (k : EventKind) (a b c : Bool) (s : State) : (endFrame k a b c s).der = s.der := by rfl
@[simp] theorem endFrame_cfg (k : EventKind) (a b c : Bool) (s : State) : (endFrame k a b c s).cfg = s.cfg := by rfl
@[simp] theorem endFrame_ref (k : EventKind) (a b c : Bool) (s : State) : (endFrame k a b c s).ref = s.ref := by rfl
@[simp] theorem endFrame_mf (k : EventKind) (a b c : Bool) (s : State) : (endFrame k a b c s).mf = s.mf := by rfl
@[simp] theorem endFrame_dmf (k : EventKind) (a b c : Bool) (s : State) : (endFrame k a b c s).dmf = s.dmf := by rfl
@[simp] theorem endFrame_win (k : EventKind) (a b c : Bool) (s : State) : (endFrame k a b c s).win = s.win := by rfl
@[simp] theorem endFrame_dl (k : EventKind) (a b c : Bool) (s : State) : (endFrame k a b c s).dl = s.dl := by rfl
@[simp] theorem endFrame_hsym (k : EventKind) (a b c : Bool) (s : State) :
    (endFrame k a b c s).hsym = s.hsym := by rfl
@[simp] theorem endFrame_psym (k : EventKind) (a b c : Bool) (s : State) :
    (endFrame k a b c s).psym = s.psym := by rfl
@[simp] theorem endFrame_penc (k : EventKind) (a b c : Bool) (s : State) :
    (endFrame k a b c s).penc = s.penc := by rfl
@[simp] theorem endFrame_hdec (k : EventKind) (a b c : Bool) (s : State) :
    (endFrame k a b c s).hdec = s.hdec := by rfl
@[simp] theorem endFrame_pdec (k : EventKind) (a b c : Bool) (s : State) :
    (endFrame k a b c s).pdec = s.pdec := by rfl
@[simp] theorem endFrame_inputs (k : EventKind) (a b c : Bool) (s : State) :
    (endFrame k a b c s).inputs = s.inputs := by rfl
@[simp] theorem endFrame_resp (k : EventKind) (a b c : Bool) (s : State) :
    (endFrame k a b c s).resp = s.resp := by rfl
@[simp] theorem endFrame_hresets (k : EventKind) (a b c : Bool) (s : State) :
    (endFrame k a b c s).hresets = s.hresets := by rfl

/-! ### `grow` -/

@[simp] theorem grow_status (s : State) : (grow s).status = s.status := by rfl
@[simp] theorem grow_cfgCause (s : State) : (grow s).cfgCause = s.cfgCause := by rfl
@[simp] theorem grow_fGrowth (s : State) : (grow s).fGrowth = s.fGrowth := by rfl
@[simp] theorem grow_fUnsup (s : State) : (grow s).fUnsup = s.fUnsup := by rfl
@[simp] theorem grow_fsm (s : State) : (grow s).fsm = s.fsm := by rfl
@[simp] theorem grow_symCnt (s : State) : (grow s).symCnt = s.symCnt := by rfl
@[simp] theorem grow_bw (s : State) : (grow s).bw = s.bw := by rfl
@[simp] theorem grow_agcLvl (s : State) : (grow s).agcLvl = s.agcLvl := by rfl
@[simp] theorem grow_nco (s : State) : (grow s).nco = s.nco := by rfl
@[simp] theorem grow_str (s : State) : (grow s).str = s.str := by rfl
@[simp] theorem grow_sq (s : State) : (grow s).sq = s.sq := by rfl
@[simp] theorem grow_det (s : State) : (grow s).det = s.det := by rfl
@[simp] theorem grow_est (s : State) : (grow s).est = s.est := by rfl
@[simp] theorem grow_hdr (s : State) : (grow s).hdr = s.hdr := by rfl
@[simp] theorem grow_evm (s : State) : (grow s).evm = s.evm := by rfl
@[simp] theorem grow_frameCnt (s : State) : (grow s).frameCnt = s.frameCnt := by rfl
@[simp] theorem grow_der (s : State) : (grow s).der = s.der := by rfl
@[simp] theorem grow_cfg (s : State) : (grow s).cfg = s.cfg := by rfl
@[simp] theorem grow_ref (s : State) : (grow s).ref = s.ref := by rfl
@[simp] theorem grow_mf (s : State) : (grow s).mf = s.mf := by rfl
@[simp] theorem grow_dmf (s : State) : (grow s).dmf = s.dmf := by rfl
@[simp] theorem grow_win (s : State) : (grow s).win = s.win := by rfl
@[simp] theorem grow_dl (s : State) : (grow s).dl = s.dl := by rfl
@[simp] theorem grow_hsym (s : State) : (grow s).hsym = s.hsym := by rfl
@[simp] theorem grow_hdec (s : State) : (grow s).hdec = s.hdec := by rfl
@[simp] theorem grow_inputs (s : State) : (grow s).inputs = s.inputs := by rfl
@[simp] theorem grow_resp (s : State) : (grow s).resp = s.resp := by rfl
@[simp] theorem grow_evt (s : State) : (grow s).evt = s.evt := by rfl
@[simp] theorem grow_hresets (s : State) : (grow s).hresets = s.hresets := by rfl

/-! ### `evmAdd` -/

@[simp] theorem evmAdd_status (e : BitVec 32) (s : State) : (evmAdd e s).status = s.status := by rfl
@[simp] theorem evmAdd_cfgCause (e : BitVec 32) (s : State) : (evmAdd e s).cfgCause = s.cfgCause := by rfl
@[simp] theorem evmAdd_fGrowth (e : BitVec 32) (s : State) : (evmAdd e s).fGrowth = s.fGrowth := by rfl
@[simp] theorem evmAdd_fUnsup (e : BitVec 32) (s : State) : (evmAdd e s).fUnsup = s.fUnsup := by rfl
@[simp] theorem evmAdd_fsm (e : BitVec 32) (s : State) : (evmAdd e s).fsm = s.fsm := by rfl
@[simp] theorem evmAdd_symCnt (e : BitVec 32) (s : State) : (evmAdd e s).symCnt = s.symCnt := by rfl
@[simp] theorem evmAdd_bw (e : BitVec 32) (s : State) : (evmAdd e s).bw = s.bw := by rfl
@[simp] theorem evmAdd_agcLvl (e : BitVec 32) (s : State) : (evmAdd e s).agcLvl = s.agcLvl := by rfl
@[simp] theorem evmAdd_nco (e : BitVec 32) (s : State) : (evmAdd e s).nco = s.nco := by rfl
@[simp] theorem evmAdd_str (e : BitVec 32) (s : State) : (evmAdd e s).str = s.str := by rfl
@[simp] theorem evmAdd_sq (e : BitVec 32) (s : State) : (evmAdd e s).sq = s.sq := by rfl
@[simp] theorem evmAdd_det (e : BitVec 32) (s : State) : (evmAdd e s).det = s.det := by rfl
@[simp] theorem evmAdd_est (e : BitVec 32) (s : State) : (evmAdd e s).est = s.est := by rfl
@[simp] theorem evmAdd_hdr (e : BitVec 32) (s : State) : (evmAdd e s).hdr = s.hdr := by rfl
@[simp] theorem evmAdd_evm (e : BitVec 32) (s : State) :
    (evmAdd e s).evm = ⟨s.evm.acc + e.setWidth 64, s.evm.cnt + 1⟩ := by rfl
@[simp] theorem evmAdd_frameCnt (e : BitVec 32) (s : State) : (evmAdd e s).frameCnt = s.frameCnt := by rfl
@[simp] theorem evmAdd_cap (e : BitVec 32) (s : State) : (evmAdd e s).cap = s.cap := by rfl
@[simp] theorem evmAdd_der (e : BitVec 32) (s : State) : (evmAdd e s).der = s.der := by rfl
@[simp] theorem evmAdd_cfg (e : BitVec 32) (s : State) : (evmAdd e s).cfg = s.cfg := by rfl
@[simp] theorem evmAdd_ref (e : BitVec 32) (s : State) : (evmAdd e s).ref = s.ref := by rfl
@[simp] theorem evmAdd_mf (e : BitVec 32) (s : State) : (evmAdd e s).mf = s.mf := by rfl
@[simp] theorem evmAdd_dmf (e : BitVec 32) (s : State) : (evmAdd e s).dmf = s.dmf := by rfl
@[simp] theorem evmAdd_win (e : BitVec 32) (s : State) : (evmAdd e s).win = s.win := by rfl
@[simp] theorem evmAdd_dl (e : BitVec 32) (s : State) : (evmAdd e s).dl = s.dl := by rfl
@[simp] theorem evmAdd_hsym (e : BitVec 32) (s : State) : (evmAdd e s).hsym = s.hsym := by rfl
@[simp] theorem evmAdd_psym (e : BitVec 32) (s : State) : (evmAdd e s).psym = s.psym := by rfl
@[simp] theorem evmAdd_penc (e : BitVec 32) (s : State) : (evmAdd e s).penc = s.penc := by rfl
@[simp] theorem evmAdd_hdec (e : BitVec 32) (s : State) : (evmAdd e s).hdec = s.hdec := by rfl
@[simp] theorem evmAdd_pdec (e : BitVec 32) (s : State) : (evmAdd e s).pdec = s.pdec := by rfl
@[simp] theorem evmAdd_inputs (e : BitVec 32) (s : State) : (evmAdd e s).inputs = s.inputs := by rfl
@[simp] theorem evmAdd_resp (e : BitVec 32) (s : State) : (evmAdd e s).resp = s.resp := by rfl
@[simp] theorem evmAdd_evt (e : BitVec 32) (s : State) : (evmAdd e s).evt = s.evt := by rfl
@[simp] theorem evmAdd_hresets (e : BitVec 32) (s : State) : (evmAdd e s).hresets = s.hresets := by rfl

/-! ### `clearFrame` -/

@[simp] theorem clearFrame_status (s : State) : (clearFrame s).status = s.status := by rfl
@[simp] theorem clearFrame_cfgCause (s : State) : (clearFrame s).cfgCause = s.cfgCause := by rfl
@[simp] theorem clearFrame_fGrowth (s : State) : (clearFrame s).fGrowth = s.fGrowth := by rfl
@[simp] theorem clearFrame_fUnsup (s : State) : (clearFrame s).fUnsup = s.fUnsup := by rfl
@[simp] theorem clearFrame_fsm (s : State) : (clearFrame s).fsm = .detect := by rfl
@[simp] theorem clearFrame_symCnt (s : State) : (clearFrame s).symCnt = s.symCnt := by rfl
@[simp] theorem clearFrame_bw (s : State) : (clearFrame s).bw = s.bw := by rfl
@[simp] theorem clearFrame_agcLvl (s : State) : (clearFrame s).agcLvl = 0 := by rfl
@[simp] theorem clearFrame_nco (s : State) : (clearFrame s).nco = s.nco := by rfl
@[simp] theorem clearFrame_str (s : State) : (clearFrame s).str = s.str := by rfl
@[simp] theorem clearFrame_sq (s : State) : (clearFrame s).sq = ⟨0, false⟩ := by rfl
@[simp] theorem clearFrame_det (s : State) : (clearFrame s).det = s.det := by rfl
@[simp] theorem clearFrame_est (s : State) : (clearFrame s).est = ⟨0, 0, 0⟩ := by rfl
@[simp] theorem clearFrame_hdr (s : State) : (clearFrame s).hdr = hdrReset := by rfl
@[simp] theorem clearFrame_evm (s : State) : (clearFrame s).evm = s.evm := by rfl
@[simp] theorem clearFrame_frameCnt (s : State) : (clearFrame s).frameCnt = s.frameCnt := by rfl
@[simp] theorem clearFrame_cap (s : State) : (clearFrame s).cap = s.cap := by rfl
@[simp] theorem clearFrame_der (s : State) : (clearFrame s).der = s.der := by rfl
@[simp] theorem clearFrame_cfg (s : State) : (clearFrame s).cfg = s.cfg := by rfl
@[simp] theorem clearFrame_ref (s : State) : (clearFrame s).ref = s.ref := by rfl
@[simp] theorem clearFrame_mf (s : State) : (clearFrame s).mf = s.mf := by rfl
@[simp] theorem clearFrame_dmf (s : State) : (clearFrame s).dmf = s.dmf := by rfl
@[simp] theorem clearFrame_win (s : State) : (clearFrame s).win = s.win := by rfl
@[simp] theorem clearFrame_dl (s : State) : (clearFrame s).dl = s.dl := by rfl
@[simp] theorem clearFrame_hsym (s : State) : (clearFrame s).hsym = s.hsym := by rfl
@[simp] theorem clearFrame_psym (s : State) : (clearFrame s).psym = s.psym := by rfl
@[simp] theorem clearFrame_penc (s : State) : (clearFrame s).penc = s.penc := by rfl
@[simp] theorem clearFrame_hdec (s : State) : (clearFrame s).hdec = s.hdec := by rfl
@[simp] theorem clearFrame_pdec (s : State) : (clearFrame s).pdec = s.pdec := by rfl
@[simp] theorem clearFrame_inputs (s : State) : (clearFrame s).inputs = s.inputs := by rfl
@[simp] theorem clearFrame_resp (s : State) : (clearFrame s).resp = s.resp := by rfl
@[simp] theorem clearFrame_evt (s : State) : (clearFrame s).evt = s.evt := by rfl
@[simp] theorem clearFrame_hresets (s : State) : (clearFrame s).hresets = s.hresets := by rfl

/-! ### `toDetect` -/

@[simp] theorem toDetect_status (s : State) : (toDetect s).status = s.status := by rfl
@[simp] theorem toDetect_cfgCause (s : State) : (toDetect s).cfgCause = s.cfgCause := by rfl
@[simp] theorem toDetect_fGrowth (s : State) : (toDetect s).fGrowth = s.fGrowth := by rfl
@[simp] theorem toDetect_fUnsup (s : State) : (toDetect s).fUnsup = s.fUnsup := by rfl
@[simp] theorem toDetect_fsm (s : State) : (toDetect s).fsm = .detect := by rfl
@[simp] theorem toDetect_symCnt (s : State) : (toDetect s).symCnt = s.symCnt := by rfl
@[simp] theorem toDetect_bw (s : State) : (toDetect s).bw = s.bw := by rfl
@[simp] theorem toDetect_agcLvl (s : State) : (toDetect s).agcLvl = s.agcLvl := by rfl
@[simp] theorem toDetect_nco (s : State) : (toDetect s).nco = s.nco := by rfl
@[simp] theorem toDetect_str (s : State) : (toDetect s).str = s.str := by rfl
@[simp] theorem toDetect_sq (s : State) : (toDetect s).sq = s.sq := by rfl
@[simp] theorem toDetect_det (s : State) : (toDetect s).det = s.det := by rfl
@[simp] theorem toDetect_est (s : State) : (toDetect s).est = s.est := by rfl
@[simp] theorem toDetect_hdr (s : State) : (toDetect s).hdr = s.hdr := by rfl
@[simp] theorem toDetect_evm (s : State) : (toDetect s).evm = s.evm := by rfl
@[simp] theorem toDetect_frameCnt (s : State) : (toDetect s).frameCnt = s.frameCnt := by rfl
@[simp] theorem toDetect_cap (s : State) : (toDetect s).cap = s.cap := by rfl
@[simp] theorem toDetect_der (s : State) : (toDetect s).der = s.der := by rfl
@[simp] theorem toDetect_cfg (s : State) : (toDetect s).cfg = s.cfg := by rfl
@[simp] theorem toDetect_ref (s : State) : (toDetect s).ref = s.ref := by rfl
@[simp] theorem toDetect_mf (s : State) : (toDetect s).mf = s.mf := by rfl
@[simp] theorem toDetect_dmf (s : State) : (toDetect s).dmf = s.dmf := by rfl
@[simp] theorem toDetect_win (s : State) : (toDetect s).win = s.win := by rfl
@[simp] theorem toDetect_dl (s : State) : (toDetect s).dl = s.dl := by rfl
@[simp] theorem toDetect_hsym (s : State) : (toDetect s).hsym = s.hsym := by rfl
@[simp] theorem toDetect_psym (s : State) : (toDetect s).psym = s.psym := by rfl
@[simp] theorem toDetect_penc (s : State) : (toDetect s).penc = s.penc := by rfl
@[simp] theorem toDetect_hdec (s : State) : (toDetect s).hdec = s.hdec := by rfl
@[simp] theorem toDetect_pdec (s : State) : (toDetect s).pdec = s.pdec := by rfl
@[simp] theorem toDetect_inputs (s : State) : (toDetect s).inputs = s.inputs := by rfl
@[simp] theorem toDetect_resp (s : State) : (toDetect s).resp = s.resp := by rfl
@[simp] theorem toDetect_evt (s : State) : (toDetect s).evt = s.evt := by rfl
@[simp] theorem toDetect_hresets (s : State) : (toDetect s).hresets = s.hresets := by rfl

/-! ### `setHdr` -/

@[simp] theorem setHdr_status (h : FrameRegs) (s : State) : (setHdr h s).status = s.status := by rfl
@[simp] theorem setHdr_cfgCause (h : FrameRegs) (s : State) : (setHdr h s).cfgCause = s.cfgCause := by rfl
@[simp] theorem setHdr_fGrowth (h : FrameRegs) (s : State) : (setHdr h s).fGrowth = s.fGrowth := by rfl
@[simp] theorem setHdr_fUnsup (h : FrameRegs) (s : State) : (setHdr h s).fUnsup = s.fUnsup := by rfl
@[simp] theorem setHdr_fsm (h : FrameRegs) (s : State) : (setHdr h s).fsm = s.fsm := by rfl
@[simp] theorem setHdr_symCnt (h : FrameRegs) (s : State) : (setHdr h s).symCnt = s.symCnt := by rfl
@[simp] theorem setHdr_bw (h : FrameRegs) (s : State) : (setHdr h s).bw = s.bw := by rfl
@[simp] theorem setHdr_agcLvl (h : FrameRegs) (s : State) : (setHdr h s).agcLvl = s.agcLvl := by rfl
@[simp] theorem setHdr_nco (h : FrameRegs) (s : State) : (setHdr h s).nco = s.nco := by rfl
@[simp] theorem setHdr_str (h : FrameRegs) (s : State) : (setHdr h s).str = s.str := by rfl
@[simp] theorem setHdr_sq (h : FrameRegs) (s : State) : (setHdr h s).sq = s.sq := by rfl
@[simp] theorem setHdr_det (h : FrameRegs) (s : State) : (setHdr h s).det = s.det := by rfl
@[simp] theorem setHdr_est (h : FrameRegs) (s : State) : (setHdr h s).est = s.est := by rfl
@[simp] theorem setHdr_hdr (h : FrameRegs) (s : State) : (setHdr h s).hdr = h := by rfl
@[simp] theorem setHdr_evm (h : FrameRegs) (s : State) : (setHdr h s).evm = s.evm := by rfl
@[simp] theorem setHdr_frameCnt (h : FrameRegs) (s : State) : (setHdr h s).frameCnt = s.frameCnt := by rfl
@[simp] theorem setHdr_cap (h : FrameRegs) (s : State) : (setHdr h s).cap = s.cap := by rfl
@[simp] theorem setHdr_der (h : FrameRegs) (s : State) : (setHdr h s).der = s.der := by rfl
@[simp] theorem setHdr_cfg (h : FrameRegs) (s : State) : (setHdr h s).cfg = s.cfg := by rfl
@[simp] theorem setHdr_ref (h : FrameRegs) (s : State) : (setHdr h s).ref = s.ref := by rfl
@[simp] theorem setHdr_mf (h : FrameRegs) (s : State) : (setHdr h s).mf = s.mf := by rfl
@[simp] theorem setHdr_dmf (h : FrameRegs) (s : State) : (setHdr h s).dmf = s.dmf := by rfl
@[simp] theorem setHdr_win (h : FrameRegs) (s : State) : (setHdr h s).win = s.win := by rfl
@[simp] theorem setHdr_dl (h : FrameRegs) (s : State) : (setHdr h s).dl = s.dl := by rfl
@[simp] theorem setHdr_hsym (h : FrameRegs) (s : State) : (setHdr h s).hsym = s.hsym := by rfl
@[simp] theorem setHdr_psym (h : FrameRegs) (s : State) : (setHdr h s).psym = s.psym := by rfl
@[simp] theorem setHdr_penc (h : FrameRegs) (s : State) : (setHdr h s).penc = s.penc := by rfl
@[simp] theorem setHdr_hdec (h : FrameRegs) (s : State) : (setHdr h s).hdec = s.hdec := by rfl
@[simp] theorem setHdr_pdec (h : FrameRegs) (s : State) : (setHdr h s).pdec = s.pdec := by rfl
@[simp] theorem setHdr_inputs (h : FrameRegs) (s : State) : (setHdr h s).inputs = s.inputs := by rfl
@[simp] theorem setHdr_resp (h : FrameRegs) (s : State) : (setHdr h s).resp = s.resp := by rfl
@[simp] theorem setHdr_evt (h : FrameRegs) (s : State) : (setHdr h s).evt = s.evt := by rfl
@[simp] theorem setHdr_hresets (h : FrameRegs) (s : State) : (setHdr h s).hresets = s.hresets := by rfl

/-! ### `flagUnsup` -/

@[simp] theorem flagUnsup_status (s : State) : (flagUnsup s).status = s.status := by rfl
@[simp] theorem flagUnsup_cfgCause (s : State) : (flagUnsup s).cfgCause = s.cfgCause := by rfl
@[simp] theorem flagUnsup_fGrowth (s : State) : (flagUnsup s).fGrowth = s.fGrowth := by rfl
@[simp] theorem flagUnsup_fUnsup (s : State) : (flagUnsup s).fUnsup = true := by rfl
@[simp] theorem flagUnsup_fsm (s : State) : (flagUnsup s).fsm = s.fsm := by rfl
@[simp] theorem flagUnsup_symCnt (s : State) : (flagUnsup s).symCnt = s.symCnt := by rfl
@[simp] theorem flagUnsup_bw (s : State) : (flagUnsup s).bw = s.bw := by rfl
@[simp] theorem flagUnsup_agcLvl (s : State) : (flagUnsup s).agcLvl = s.agcLvl := by rfl
@[simp] theorem flagUnsup_nco (s : State) : (flagUnsup s).nco = s.nco := by rfl
@[simp] theorem flagUnsup_str (s : State) : (flagUnsup s).str = s.str := by rfl
@[simp] theorem flagUnsup_sq (s : State) : (flagUnsup s).sq = s.sq := by rfl
@[simp] theorem flagUnsup_det (s : State) : (flagUnsup s).det = s.det := by rfl
@[simp] theorem flagUnsup_est (s : State) : (flagUnsup s).est = s.est := by rfl
@[simp] theorem flagUnsup_hdr (s : State) : (flagUnsup s).hdr = s.hdr := by rfl
@[simp] theorem flagUnsup_evm (s : State) : (flagUnsup s).evm = s.evm := by rfl
@[simp] theorem flagUnsup_frameCnt (s : State) : (flagUnsup s).frameCnt = s.frameCnt := by rfl
@[simp] theorem flagUnsup_cap (s : State) : (flagUnsup s).cap = s.cap := by rfl
@[simp] theorem flagUnsup_der (s : State) : (flagUnsup s).der = s.der := by rfl
@[simp] theorem flagUnsup_cfg (s : State) : (flagUnsup s).cfg = s.cfg := by rfl
@[simp] theorem flagUnsup_ref (s : State) : (flagUnsup s).ref = s.ref := by rfl
@[simp] theorem flagUnsup_mf (s : State) : (flagUnsup s).mf = s.mf := by rfl
@[simp] theorem flagUnsup_dmf (s : State) : (flagUnsup s).dmf = s.dmf := by rfl
@[simp] theorem flagUnsup_win (s : State) : (flagUnsup s).win = s.win := by rfl
@[simp] theorem flagUnsup_dl (s : State) : (flagUnsup s).dl = s.dl := by rfl
@[simp] theorem flagUnsup_hsym (s : State) : (flagUnsup s).hsym = s.hsym := by rfl
@[simp] theorem flagUnsup_psym (s : State) : (flagUnsup s).psym = s.psym := by rfl
@[simp] theorem flagUnsup_penc (s : State) : (flagUnsup s).penc = s.penc := by rfl
@[simp] theorem flagUnsup_hdec (s : State) : (flagUnsup s).hdec = s.hdec := by rfl
@[simp] theorem flagUnsup_pdec (s : State) : (flagUnsup s).pdec = s.pdec := by rfl
@[simp] theorem flagUnsup_inputs (s : State) : (flagUnsup s).inputs = s.inputs := by rfl
@[simp] theorem flagUnsup_resp (s : State) : (flagUnsup s).resp = s.resp := by rfl
@[simp] theorem flagUnsup_evt (s : State) : (flagUnsup s).evt = s.evt := by rfl
@[simp] theorem flagUnsup_hresets (s : State) : (flagUnsup s).hresets = s.hresets := by rfl

/-! ### `flagGrowth` -/

@[simp] theorem flagGrowth_status (s : State) : (flagGrowth s).status = s.status := by rfl
@[simp] theorem flagGrowth_cfgCause (s : State) : (flagGrowth s).cfgCause = s.cfgCause := by rfl
@[simp] theorem flagGrowth_fGrowth (s : State) : (flagGrowth s).fGrowth = true := by rfl
@[simp] theorem flagGrowth_fUnsup (s : State) : (flagGrowth s).fUnsup = s.fUnsup := by rfl
@[simp] theorem flagGrowth_fsm (s : State) : (flagGrowth s).fsm = s.fsm := by rfl
@[simp] theorem flagGrowth_symCnt (s : State) : (flagGrowth s).symCnt = s.symCnt := by rfl
@[simp] theorem flagGrowth_bw (s : State) : (flagGrowth s).bw = s.bw := by rfl
@[simp] theorem flagGrowth_agcLvl (s : State) : (flagGrowth s).agcLvl = s.agcLvl := by rfl
@[simp] theorem flagGrowth_nco (s : State) : (flagGrowth s).nco = s.nco := by rfl
@[simp] theorem flagGrowth_str (s : State) : (flagGrowth s).str = s.str := by rfl
@[simp] theorem flagGrowth_sq (s : State) : (flagGrowth s).sq = s.sq := by rfl
@[simp] theorem flagGrowth_det (s : State) : (flagGrowth s).det = s.det := by rfl
@[simp] theorem flagGrowth_est (s : State) : (flagGrowth s).est = s.est := by rfl
@[simp] theorem flagGrowth_hdr (s : State) : (flagGrowth s).hdr = s.hdr := by rfl
@[simp] theorem flagGrowth_evm (s : State) : (flagGrowth s).evm = s.evm := by rfl
@[simp] theorem flagGrowth_frameCnt (s : State) : (flagGrowth s).frameCnt = s.frameCnt := by rfl
@[simp] theorem flagGrowth_cap (s : State) : (flagGrowth s).cap = s.cap := by rfl
@[simp] theorem flagGrowth_der (s : State) : (flagGrowth s).der = s.der := by rfl
@[simp] theorem flagGrowth_cfg (s : State) : (flagGrowth s).cfg = s.cfg := by rfl
@[simp] theorem flagGrowth_ref (s : State) : (flagGrowth s).ref = s.ref := by rfl
@[simp] theorem flagGrowth_mf (s : State) : (flagGrowth s).mf = s.mf := by rfl
@[simp] theorem flagGrowth_dmf (s : State) : (flagGrowth s).dmf = s.dmf := by rfl
@[simp] theorem flagGrowth_win (s : State) : (flagGrowth s).win = s.win := by rfl
@[simp] theorem flagGrowth_dl (s : State) : (flagGrowth s).dl = s.dl := by rfl
@[simp] theorem flagGrowth_hsym (s : State) : (flagGrowth s).hsym = s.hsym := by rfl
@[simp] theorem flagGrowth_psym (s : State) : (flagGrowth s).psym = s.psym := by rfl
@[simp] theorem flagGrowth_penc (s : State) : (flagGrowth s).penc = s.penc := by rfl
@[simp] theorem flagGrowth_hdec (s : State) : (flagGrowth s).hdec = s.hdec := by rfl
@[simp] theorem flagGrowth_pdec (s : State) : (flagGrowth s).pdec = s.pdec := by rfl
@[simp] theorem flagGrowth_inputs (s : State) : (flagGrowth s).inputs = s.inputs := by rfl
@[simp] theorem flagGrowth_resp (s : State) : (flagGrowth s).resp = s.resp := by rfl
@[simp] theorem flagGrowth_evt (s : State) : (flagGrowth s).evt = s.evt := by rfl
@[simp] theorem flagGrowth_hresets (s : State) : (flagGrowth s).hresets = s.hresets := by rfl

/-! ### `openPayload` -/

@[simp] theorem openPayload_status (s : State) : (openPayload s).status = s.status := by rfl
@[simp] theorem openPayload_cfgCause (s : State) : (openPayload s).cfgCause = s.cfgCause := by rfl
@[simp] theorem openPayload_fGrowth (s : State) : (openPayload s).fGrowth = s.fGrowth := by rfl
@[simp] theorem openPayload_fUnsup (s : State) : (openPayload s).fUnsup = s.fUnsup := by rfl
@[simp] theorem openPayload_fsm (s : State) : (openPayload s).fsm = .rxpayload := by rfl
@[simp] theorem openPayload_symCnt (s : State) : (openPayload s).symCnt = 0 := by rfl
@[simp] theorem openPayload_bw (s : State) : (openPayload s).bw = s.bw := by rfl
@[simp] theorem openPayload_agcLvl (s : State) : (openPayload s).agcLvl = s.agcLvl := by rfl
@[simp] theorem openPayload_nco (s : State) : (openPayload s).nco = s.nco := by rfl
@[simp] theorem openPayload_str (s : State) : (openPayload s).str = s.str := by rfl
@[simp] theorem openPayload_sq (s : State) : (openPayload s).sq = s.sq := by rfl
@[simp] theorem openPayload_det (s : State) : (openPayload s).det = s.det := by rfl
@[simp] theorem openPayload_est (s : State) : (openPayload s).est = s.est := by rfl
@[simp] theorem openPayload_hdr (s : State) : (openPayload s).hdr = s.hdr := by rfl
@[simp] theorem openPayload_evm (s : State) : (openPayload s).evm = s.evm := by rfl
@[simp] theorem openPayload_frameCnt (s : State) : (openPayload s).frameCnt = s.frameCnt := by rfl
@[simp] theorem openPayload_cap (s : State) : (openPayload s).cap = s.cap := by rfl
@[simp] theorem openPayload_der (s : State) : (openPayload s).der = s.der := by rfl
@[simp] theorem openPayload_cfg (s : State) : (openPayload s).cfg = s.cfg := by rfl
@[simp] theorem openPayload_ref (s : State) : (openPayload s).ref = s.ref := by rfl
@[simp] theorem openPayload_mf (s : State) : (openPayload s).mf = s.mf := by rfl
@[simp] theorem openPayload_dmf (s : State) : (openPayload s).dmf = s.dmf := by rfl
@[simp] theorem openPayload_win (s : State) : (openPayload s).win = s.win := by rfl
@[simp] theorem openPayload_dl (s : State) : (openPayload s).dl = s.dl := by rfl
@[simp] theorem openPayload_hsym (s : State) : (openPayload s).hsym = s.hsym := by rfl
@[simp] theorem openPayload_psym (s : State) : (openPayload s).psym = s.psym := by rfl
@[simp] theorem openPayload_penc (s : State) : (openPayload s).penc = s.penc := by rfl
@[simp] theorem openPayload_hdec (s : State) : (openPayload s).hdec = s.hdec := by rfl
@[simp] theorem openPayload_pdec (s : State) : (openPayload s).pdec = s.pdec := by rfl
@[simp] theorem openPayload_inputs (s : State) : (openPayload s).inputs = s.inputs := by rfl
@[simp] theorem openPayload_resp (s : State) : (openPayload s).resp = s.resp := by rfl
@[simp] theorem openPayload_evt (s : State) : (openPayload s).evt = s.evt := by rfl
@[simp] theorem openPayload_hresets (s : State) : (openPayload s).hresets = s.hresets := by rfl

/-! ### `storePayload` -/

@[simp] theorem storePayload_status (e d : List Byte) (s : State) : (storePayload e d s).status = s.status := by rfl
@[simp] theorem storePayload_cfgCause (e d : List Byte) (s : State) :
    (storePayload e d s).cfgCause = s.cfgCause := by rfl
@[simp] theorem storePayload_fGrowth (e d : List Byte) (s : State) :
    (storePayload e d s).fGrowth = s.fGrowth := by rfl
@[simp] theorem storePayload_fUnsup (e d : List Byte) (s : State) : (storePayload e d s).fUnsup = s.fUnsup := by rfl
@[simp] theorem storePayload_fsm (e d : List Byte) (s : State) : (storePayload e d s).fsm = s.fsm := by rfl
@[simp] theorem storePayload_symCnt (e d : List Byte) (s : State) : (storePayload e d s).symCnt = s.symCnt := by rfl
@[simp] theorem storePayload_bw (e d : List Byte) (s : State) : (storePayload e d s).bw = s.bw := by rfl
@[simp] theorem storePayload_agcLvl (e d : List Byte) (s : State) : (storePayload e d s).agcLvl = s.agcLvl := by rfl
@[simp] theorem storePayload_nco (e d : List Byte) (s : State) : (storePayload e d s).nco = s.nco := by rfl
@[simp] theorem storePayload_str (e d : List Byte) (s : State) : (storePayload e d s).str = s.str := by rfl
@[simp] theorem storePayload_sq (e d : List Byte) (s : State) : (storePayload e d s).sq = s.sq := by rfl
@[simp] theorem storePayload_det (e d : List Byte) (s : State) : (storePayload e d s).det = s.det := by rfl
@[simp] theorem storePayload_est (e d : List Byte) (s : State) : (storePayload e d s).est = s.est := by rfl
@[simp] theorem storePayload_hdr (e d : List Byte) (s : State) : (storePayload e d s).hdr = s.hdr := by rfl
@[simp] theorem storePayload_evm (e d : List Byte) (s : State) : (storePayload e d s).evm = s.evm := by rfl
@[simp] theorem storePayload_frameCnt (e d : List Byte) (s : State) :
    (storePayload e d s).frameCnt = s.frameCnt := by rfl
@[simp] theorem storePayload_cap (e d : List Byte) (s : State) : (storePayload e d s).cap = s.cap := by rfl
@[simp] theorem storePayload_der (e d : List Byte) (s : State) : (storePayload e d s).der = s.der := by rfl
@[simp] theorem storePayload_cfg (e d : List Byte) (s : State) : (storePayload e d s).cfg = s.cfg := by rfl
@[simp] theorem storePayload_ref (e d : List Byte) (s : State) : (storePayload e d s).ref = s.ref := by rfl
@[simp] theorem storePayload_mf (e d : List Byte) (s : State) : (storePayload e d s).mf = s.mf := by rfl
@[simp] theorem storePayload_dmf (e d : List Byte) (s : State) : (storePayload e d s).dmf = s.dmf := by rfl
@[simp] theorem storePayload_win (e d : List Byte) (s : State) : (storePayload e d s).win = s.win := by rfl
@[simp] theorem storePayload_dl (e d : List Byte) (s : State) : (storePayload e d s).dl = s.dl := by rfl
@[simp] theorem storePayload_hsym (e d : List Byte) (s : State) : (storePayload e d s).hsym = s.hsym := by rfl
@[simp] theorem storePayload_psym (e d : List Byte) (s : State) : (storePayload e d s).psym = s.psym := by rfl
@[simp] theorem storePayload_penc (e d : List Byte) (s : State) :
    (storePayload e d s).penc = memSetRange 0 s.penc 0 s.hdr.enc.toNat (fun i => e.getD i 0) := by rfl
@[simp] theorem storePayload_hdec (e d : List Byte) (s : State) : (storePayload e d s).hdec = s.hdec := by rfl
@[simp] theorem storePayload_pdec (e d : List Byte) (s : State) :
    (storePayload e d s).pdec = memSetRange 0 s.pdec 0 s.hdr.len.toNat (fun i => d.getD i 0) := by rfl
@[simp] theorem storePayload_inputs (e d : List Byte) (s : State) : (storePayload e d s).inputs = s.inputs := by rfl
@[simp] theorem storePayload_resp (e d : List Byte) (s : State) : (storePayload e d s).resp = s.resp := by rfl
@[simp] theorem storePayload_evt (e d : List Byte) (s : State) : (storePayload e d s).evt = s.evt := by rfl
@[simp] theorem storePayload_hresets (e d : List Byte) (s : State) :
    (storePayload e d s).hresets = s.hresets := by rfl

/-! ### `storeHdrSym` -/

@[simp] theorem storeHdrSym_status (y : Byte) (s : State) : (storeHdrSym y s).status = s.status := by rfl
@[simp] theorem storeHdrSym_cfgCause (y : Byte) (s : State) : (storeHdrSym y s).cfgCause = s.cfgCause := by rfl
@[simp] theorem storeHdrSym_fGrowth (y : Byte) (s : State) : (storeHdrSym y s).fGrowth = s.fGrowth := by rfl
@[simp] theorem storeHdrSym_fUnsup (y : Byte) (s : State) : (storeHdrSym y s).fUnsup = s.fUnsup := by rfl
@[simp] theorem storeHdrSym_fsm (y : Byte) (s : State) : (storeHdrSym y s).fsm = s.fsm := by rfl
@[simp] theorem storeHdrSym_symCnt (y : Byte) (s : State) : (storeHdrSym y s).symCnt = s.symCnt + 1 := by rfl
@[simp] theorem storeHdrSym_bw (y : Byte) (s : State) : (storeHdrSym y s).bw = s.bw := by rfl
@[simp] theorem storeHdrSym_agcLvl (y : Byte) (s : State) : (storeHdrSym y s).agcLvl = s.agcLvl := by rfl
@[simp] theorem storeHdrSym_nco (y : Byte) (s : State) : (storeHdrSym y s).nco = s.nco := by rfl
@[simp] theorem storeHdrSym_str (y : Byte) (s : State) : (storeHdrSym y s).str = s.str := by rfl
@[simp] theorem storeHdrSym_sq (y : Byte) (s : State) : (storeHdrSym y s).sq = s.sq := by rfl
@[simp] theorem storeHdrSym_det (y : Byte) (s : State) : (storeHdrSym y s).det = s.det := by rfl
@[simp] theorem storeHdrSym_est (y : Byte) (s : State) : (storeHdrSym y s).est = s.est := by rfl
@[simp] theorem storeHdrSym_hdr (y : Byte) (s : State) : (storeHdrSym y s).hdr = s.hdr := by rfl
@[simp] theorem storeHdrSym_evm (y : Byte) (s : State) : (storeHdrSym y s).evm = s.evm := by rfl
@[simp] theorem storeHdrSym_frameCnt (y : Byte) (s : State) : (storeHdrSym y s).frameCnt = s.frameCnt := by rfl
@[simp] theorem storeHdrSym_cap (y : Byte) (s : State) : (storeHdrSym y s).cap = s.cap := by rfl
@[simp] theorem storeHdrSym_der (y : Byte) (s : State) : (storeHdrSym y s).der = s.der := by rfl
@[simp] theorem storeHdrSym_cfg (y : Byte) (s : State) : (storeHdrSym y s).cfg = s.cfg := by rfl
@[simp] theorem storeHdrSym_ref (y : Byte) (s : State) : (storeHdrSym y s).ref = s.ref := by rfl
@[simp] theorem storeHdrSym_mf (y : Byte) (s : State) : (storeHdrSym y s).mf = s.mf := by rfl
@[simp] theorem storeHdrSym_dmf (y : Byte) (s : State) : (storeHdrSym y s).dmf = s.dmf := by rfl
@[simp] theorem storeHdrSym_win (y : Byte) (s : State) : (storeHdrSym y s).win = s.win := by rfl
@[simp] theorem storeHdrSym_dl (y : Byte) (s : State) : (storeHdrSym y s).dl = s.dl := by rfl
@[simp] theorem storeHdrSym_hsym (y : Byte) (s : State) :
    (storeHdrSym y s).hsym = memWrite 0 s.hsym s.symCnt.toNat y := by rfl
@[simp] theorem storeHdrSym_psym (y : Byte) (s : State) : (storeHdrSym y s).psym = s.psym := by rfl
@[simp] theorem storeHdrSym_penc (y : Byte) (s : State) : (storeHdrSym y s).penc = s.penc := by rfl
@[simp] theorem storeHdrSym_hdec (y : Byte) (s : State) : (storeHdrSym y s).hdec = s.hdec := by rfl
@[simp] theorem storeHdrSym_pdec (y : Byte) (s : State) : (storeHdrSym y s).pdec = s.pdec := by rfl
@[simp] theorem storeHdrSym_inputs (y : Byte) (s : State) : (storeHdrSym y s).inputs = s.inputs := by rfl
@[simp] theorem storeHdrSym_resp (y : Byte) (s : State) : (storeHdrSym y s).resp = s.resp := by rfl
@[simp] theorem storeHdrSym_evt (y : Byte) (s : State) : (storeHdrSym y s).evt = s.evt := by rfl
@[simp] theorem storeHdrSym_hresets (y : Byte) (s : State) : (storeHdrSym y s).hresets = s.hresets := by rfl

/-! ### `storePaySym` -/

@[simp] theorem storePaySym_status (y : Byte) (s : State) : (storePaySym y s).status = s.status := by rfl
@[simp] theorem storePaySym_cfgCause (y : Byte) (s : State) : (storePaySym y s).cfgCause = s.cfgCause := by rfl
@[simp] theorem storePaySym_fGrowth (y : Byte) (s : State) : (storePaySym y s).fGrowth = s.fGrowth := by rfl
@[simp] theorem storePaySym_fUnsup (y : Byte) (s : State) : (storePaySym y s).fUnsup = s.fUnsup := by rfl
@[simp] theorem storePaySym_fsm (y : Byte) (s : State) : (storePaySym y s).fsm = s.fsm := by rfl
@[simp] theorem storePaySym_symCnt (y : Byte) (s : State) : (storePaySym y s).symCnt = s.symCnt + 1 := by rfl
@[simp] theorem storePaySym_bw (y : Byte) (s : State) : (storePaySym y s).bw = s.bw := by rfl
@[simp] theorem storePaySym_agcLvl (y : Byte) (s : State) : (storePaySym y s).agcLvl = s.agcLvl := by rfl
@[simp] theorem storePaySym_nco (y : Byte) (s : State) : (storePaySym y s).nco = s.nco := by rfl
@[simp] theorem storePaySym_str (y : Byte) (s : State) : (storePaySym y s).str = s.str := by rfl
@[simp] theorem storePaySym_sq (y : Byte) (s : State) : (storePaySym y s).sq = s.sq := by rfl
@[simp] theorem storePaySym_det (y : Byte) (s : State) : (storePaySym y s).det = s.det := by rfl
@[simp] theorem storePaySym_est (y : Byte) (s : State) : (storePaySym y s).est = s.est := by rfl
@[simp] theorem storePaySym_hdr (y : Byte) (s : State) : (storePaySym y s).hdr = s.hdr := by rfl
@[simp] theorem storePaySym_evm (y : Byte) (s : State) : (storePaySym y s).evm = s.evm := by rfl
@[simp] theorem storePaySym_frameCnt (y : Byte) (s : State) : (storePaySym y s).frameCnt = s.frameCnt := by rfl
@[simp] theorem storePaySym_cap (y : Byte) (s : State) : (storePaySym y s).cap = s.cap := by rfl
@[simp] theorem storePaySym_der (y : Byte) (s : State) : (storePaySym y s).der = s.der := by rfl
@[simp] theorem storePaySym_cfg (y : Byte) (s : State) : (storePaySym y s).cfg = s.cfg := by rfl
@[simp] theorem storePaySym_ref (y : Byte) (s : State) : (storePaySym y s).ref = s.ref := by rfl
@[simp] theorem storePaySym_mf (y : Byte) (s : State) : (storePaySym y s).mf = s.mf := by rfl
@[simp] theorem storePaySym_dmf (y : Byte) (s : State) : (storePaySym y s).dmf = s.dmf := by rfl
@[simp] theorem storePaySym_win (y : Byte) (s : State) : (storePaySym y s).win = s.win := by rfl
@[simp] theorem storePaySym_dl (y : Byte) (s : State) : (storePaySym y s).dl = s.dl := by rfl
@[simp] theorem storePaySym_hsym (y : Byte) (s : State) : (storePaySym y s).hsym = s.hsym := by rfl
@[simp] theorem storePaySym_psym (y : Byte) (s : State) :
    (storePaySym y s).psym = memWrite 0 s.psym s.symCnt.toNat y := by rfl
@[simp] theorem storePaySym_penc (y : Byte) (s : State) : (storePaySym y s).penc = s.penc := by rfl
@[simp] theorem storePaySym_hdec (y : Byte) (s : State) : (storePaySym y s).hdec = s.hdec := by rfl
@[simp] theorem storePaySym_pdec (y : Byte) (s : State) : (storePaySym y s).pdec = s.pdec := by rfl
@[simp] theorem storePaySym_inputs (y : Byte) (s : State) : (storePaySym y s).inputs = s.inputs := by rfl
@[simp] theorem storePaySym_resp (y : Byte) (s : State) : (storePaySym y s).resp = s.resp := by rfl
@[simp] theorem storePaySym_evt (y : Byte) (s : State) : (storePaySym y s).evt = s.evt := by rfl
@[simp] theorem storePaySym_hresets (y : Byte) (s : State) : (storePaySym y s).hresets = s.hresets := by rfl

/-! ### `demodded` -/

@[simp] theorem demodded_status (d : Demod) (s : State) : (demodded d s).status = s.status := by rfl
@[simp] theorem demodded_cfgCause (d : Demod) (s : State) : (demodded d s).cfgCause = s.cfgCause := by rfl
@[simp] theorem demodded_fGrowth (d : Demod) (s : State) : (demodded d s).fGrowth = s.fGrowth := by rfl
@[simp] theorem demodded_fUnsup (d : Demod) (s : State) : (demodded d s).fUnsup = s.fUnsup := by rfl
@[simp] theorem demodded_fsm (d : Demod) (s : State) : (demodded d s).fsm = s.fsm := by rfl
@[simp] theorem demodded_symCnt (d : Demod) (s : State) : (demodded d s).symCnt = s.symCnt := by rfl
@[simp] theorem demodded_bw (d : Demod) (s : State) : (demodded d s).bw = s.bw := by rfl
@[simp] theorem demodded_agcLvl (d : Demod) (s : State) : (demodded d s).agcLvl = s.agcLvl := by rfl
@[simp] theorem demodded_str (d : Demod) (s : State) : (demodded d s).str = s.str := by rfl
@[simp] theorem demodded_sq (d : Demod) (s : State) : (demodded d s).sq = s.sq := by rfl
@[simp] theorem demodded_det (d : Demod) (s : State) : (demodded d s).det = s.det := by rfl
@[simp] theorem demodded_est (d : Demod) (s : State) : (demodded d s).est = s.est := by rfl
@[simp] theorem demodded_hdr (d : Demod) (s : State) : (demodded d s).hdr = s.hdr := by rfl
@[simp] theorem demodded_evm (d : Demod) (s : State) :
    (demodded d s).evm = ⟨s.evm.acc + d.err2.setWidth 64, s.evm.cnt + 1⟩ := by rfl
@[simp] theorem demodded_frameCnt (d : Demod) (s : State) : (demodded d s).frameCnt = s.frameCnt := by rfl
@[simp] theorem demodded_cap (d : Demod) (s : State) : (demodded d s).cap = s.cap := by rfl
@[simp] theorem demodded_der (d : Demod) (s : State) : (demodded d s).der = s.der := by rfl
@[simp] theorem demodded_cfg (d : Demod) (s : State) : (demodded d s).cfg = s.cfg := by rfl
@[simp] theorem demodded_ref (d : Demod) (s : State) : (demodded d s).ref = s.ref := by rfl
@[simp] theorem demodded_mf (d : Demod) (s : State) : (demodded d s).mf = s.mf := by rfl
@[simp] theorem demodded_dmf (d : Demod) (s : State) : (demodded d s).dmf = s.dmf := by rfl
@[simp] theorem demodded_win (d : Demod) (s : State) : (demodded d s).win = s.win := by rfl
@[simp] theorem demodded_dl (d : Demod) (s : State) : (demodded d s).dl = s.dl := by rfl
@[simp] theorem demodded_hsym (d : Demod) (s : State) : (demodded d s).hsym = s.hsym := by rfl
@[simp] theorem demodded_psym (d : Demod) (s : State) : (demodded d s).psym = s.psym := by rfl
@[simp] theorem demodded_penc (d : Demod) (s : State) : (demodded d s).penc = s.penc := by rfl
@[simp] theorem demodded_hdec (d : Demod) (s : State) : (demodded d s).hdec = s.hdec := by rfl
@[simp] theorem demodded_pdec (d : Demod) (s : State) : (demodded d s).pdec = s.pdec := by rfl
@[simp] theorem demodded_inputs (d : Demod) (s : State) : (demodded d s).inputs = s.inputs := by rfl
@[simp] theorem demodded_resp (d : Demod) (s : State) : (demodded d s).resp = s.resp := by rfl
@[simp] theorem demodded_evt (d : Demod) (s : State) : (demodded d s).evt = s.evt := by rfl
@[simp] theorem demodded_hresets (d : Demod) (s : State) : (demodded d s).hresets = s.hresets := by rfl

/-! ### `enterHeader` -/

@[simp] theorem enterHeader_status (s : State) : (enterHeader s).status = s.status := by rfl
@[simp] theorem enterHeader_cfgCause (s : State) : (enterHeader s).cfgCause = s.cfgCause := by rfl
@[simp] theorem enterHeader_fGrowth (s : State) : (enterHeader s).fGrowth = s.fGrowth := by rfl
@[simp] theorem enterHeader_fUnsup (s : State) : (enterHeader s).fUnsup = s.fUnsup := by rfl
@[simp] theorem enterHeader_fsm (s : State) : (enterHeader s).fsm = .rxheader := by rfl
@[simp] theorem enterHeader_symCnt (s : State) : (enterHeader s).symCnt = 0 := by rfl
@[simp] theorem enterHeader_bw (s : State) : (enterHeader s).bw = .closedBw := by rfl
@[simp] theorem enterHeader_agcLvl (s : State) : (enterHeader s).agcLvl = s.agcLvl := by rfl
@[simp] theorem enterHeader_nco (s : State) : (enterHeader s).nco = s.nco := by rfl
@[simp] theorem enterHeader_str (s : State) : (enterHeader s).str = s.str := by rfl
@[simp] theorem enterHeader_sq (s : State) : (enterHeader s).sq = ⟨0, s.sq.closed⟩ := by rfl
@[simp] theorem enterHeader_det (s : State) : (enterHeader s).det = s.det := by rfl
@[simp] theorem enterHeader_est (s : State) : (enterHeader s).est = s.est := by rfl
@[simp] theorem enterHeader_hdr (s : State) : (enterHeader s).hdr = s.hdr := by rfl
@[simp] theorem enterHeader_evm (s : State) : (enterHeader s).evm = ⟨0, 0⟩ := by rfl
@[simp] theorem enterHeader_frameCnt (s : State) : (enterHeader s).frameCnt = s.frameCnt + 1 := by rfl
@[simp] theorem enterHeader_cap (s : State) : (enterHeader s).cap = s.cap := by rfl
@[simp] theorem enterHeader_der (s : State) : (enterHeader s).der = s.der := by rfl
@[simp] theorem enterHeader_cfg (s : State) : (enterHeader s).cfg = s.cfg := by rfl
@[simp] theorem enterHeader_ref (s : State) : (enterHeader s).ref = s.ref := by rfl
@[simp] theorem enterHeader_mf (s : State) : (enterHeader s).mf = s.mf := by rfl
@[simp] theorem enterHeader_dmf (s : State) : (enterHeader s).dmf = s.dmf := by rfl
@[simp] theorem enterHeader_win (s : State) : (enterHeader s).win = s.win := by rfl
@[simp] theorem enterHeader_dl (s : State) : (enterHeader s).dl = s.dl := by rfl
@[simp] theorem enterHeader_hsym (s : State) : (enterHeader s).hsym = s.hsym := by rfl
@[simp] theorem enterHeader_psym (s : State) : (enterHeader s).psym = s.psym := by rfl
@[simp] theorem enterHeader_penc (s : State) : (enterHeader s).penc = s.penc := by rfl
@[simp] theorem enterHeader_hdec (s : State) : (enterHeader s).hdec = s.hdec := by rfl
@[simp] theorem enterHeader_pdec (s : State) : (enterHeader s).pdec = s.pdec := by rfl
@[simp] theorem enterHeader_inputs (s : State) : (enterHeader s).inputs = s.inputs := by rfl
@[simp] theorem enterHeader_resp (s : State) : (enterHeader s).resp = s.resp := by rfl
@[simp] theorem enterHeader_evt (s : State) : (enterHeader s).evt = s.evt := by rfl
@[simp] theorem enterHeader_hresets (s : State) : (enterHeader s).hresets = s.hresets := by rfl

/-! ### `onDetect` -/

@[simp] theorem onDetect_status (s : State) : (onDetect s).status = s.status := by rfl
@[simp] theorem onDetect_cfgCause (s : State) : (onDetect s).cfgCause = s.cfgCause := by rfl
@[simp] theorem onDetect_fGrowth (s : State) : (onDetect s).fGrowth = s.fGrowth := by rfl
@[simp] theorem onDetect_fUnsup (s : State) : (onDetect s).fUnsup = s.fUnsup := by rfl
@[simp] theorem onDetect_fsm (s : State) : (onDetect s).fsm = .rxheader := by rfl
@[simp] theorem onDetect_symCnt (s : State) : (onDetect s).symCnt = 0 := by rfl
@[simp] theorem onDetect_bw (s : State) : (onDetect s).bw = .closedBw := by rfl
@[simp] theorem onDetect_agcLvl (s : State) :
    (onDetect s).agcLvl = BitVec.ofInt 32 (agcSeedLevel s.est.gamma.toNat s.der.pref.toNat) := by rfl
@[simp] theorem onDetect_nco (s : State) :
    (onDetect s).nco = ⟨0, BitVec.ofInt 32 (clampFreq s.cfg s.est.dphi.toInt)⟩ := by rfl
@[simp] theorem onDetect_sq (s : State) : (onDetect s).sq = ⟨0, s.sq.closed⟩ := by rfl
@[simp] theorem onDetect_det (s : State) : (onDetect s).det = s.det := by rfl
@[simp] theorem onDetect_est (s : State) : (onDetect s).est = s.est := by rfl
@[simp] theorem onDetect_hdr (s : State) : (onDetect s).hdr = s.hdr := by rfl
@[simp] theorem onDetect_evm (s : State) : (onDetect s).evm = ⟨0, 0⟩ := by rfl
@[simp] theorem onDetect_frameCnt (s : State) : (onDetect s).frameCnt = s.frameCnt + 1 := by rfl
@[simp] theorem onDetect_cap (s : State) : (onDetect s).cap = s.cap := by rfl
@[simp] theorem onDetect_der (s : State) : (onDetect s).der = s.der := by rfl
@[simp] theorem onDetect_cfg (s : State) : (onDetect s).cfg = s.cfg := by rfl
@[simp] theorem onDetect_ref (s : State) : (onDetect s).ref = s.ref := by rfl
@[simp] theorem onDetect_mf (s : State) : (onDetect s).mf = s.mf := by rfl
@[simp] theorem onDetect_dmf (s : State) : (onDetect s).dmf = s.dmf := by rfl
@[simp] theorem onDetect_win (s : State) : (onDetect s).win = s.win := by rfl
@[simp] theorem onDetect_dl (s : State) : (onDetect s).dl = memClear s.dl 0 s.der.taps.toNat := by rfl
@[simp] theorem onDetect_hsym (s : State) : (onDetect s).hsym = s.hsym := by rfl
@[simp] theorem onDetect_psym (s : State) : (onDetect s).psym = s.psym := by rfl
@[simp] theorem onDetect_penc (s : State) : (onDetect s).penc = s.penc := by rfl
@[simp] theorem onDetect_hdec (s : State) : (onDetect s).hdec = s.hdec := by rfl
@[simp] theorem onDetect_pdec (s : State) : (onDetect s).pdec = s.pdec := by rfl
@[simp] theorem onDetect_inputs (s : State) : (onDetect s).inputs = s.inputs := by rfl
@[simp] theorem onDetect_resp (s : State) : (onDetect s).resp = s.resp := by rfl
@[simp] theorem onDetect_evt (s : State) : (onDetect s).evt = s.evt := by rfl
@[simp] theorem onDetect_hresets (s : State) : (onDetect s).hresets = s.hresets := by rfl

end Sys2Proof.Machine
end

