-- ==== Sys2Proof/Laws/Control.lean ====
section
/-! SUPPORT. INIT: what a configuration it accepts guarantees (R124), and the derived constants as numbers (R52). -/

namespace Sys2Proof.Machine

theorem regField_lt (r : BitVec 32) (lo len : Nat) : regField r lo len < 2 ^ len := BitVec.isLt _

/-- A configuration `config_check` accepts: no test is true (R124). -/
theorem configCheck_eq_zero (P : Params) (s : State) : configCheck P s = 0 ↔
    2 ≤ cfgSps s.cfg ∧ badFilter P s.cfg = false ∧ badPreamble P s.cfg = false ∧ badBanks P s.cfg = false ∧
      badEnergy P s = false ∧ badHeader P s.cfg = false ∧
      P.modSupported (cfgHdrScheme s.cfg) (cfgHdrBps s.cfg) = true ∧ cfgDebounce s.cfg ≠ 0 := by
  unfold configCheck
  have h : ∀ a b c d e f g i : Bool,
      (BitVec.ofBool a ++ BitVec.ofBool b ++ BitVec.ofBool c ++ BitVec.ofBool d ++ BitVec.ofBool e ++
        BitVec.ofBool f ++ BitVec.ofBool g ++ BitVec.ofBool i = (0 : BitVec 8)) ↔
      (i = false ∧ g = false ∧ f = false ∧ e = false ∧ d = false ∧ c = false ∧ b = false ∧ a = false) := by
    intro a b c d e f g i
    rw [← BitVec.toNat_inj]
    simp only [BitVec.toNat_append, BitVec.toNat_ofBool]
    cases a <;> cases b <;> cases c <;> cases d <;> cases e <;> cases f <;> cases g <;> cases i <;> decide
  refine (h ..).trans ?_
  simp only [decide_eq_false_iff_not, not_lt, Bool.not_eq_eq_eq_not, Bool.not_false, beq_eq_false_iff_ne]

/-- What the other rules use of an accepted configuration (R124). -/
structure Legal (P : Params) (s : State) : Prop where
  sps : 2 ≤ cfgSps s.cfg
  taps : cfgTaps s.cfg ≤ P.tapsMax
  window : cfgWindow s.cfg ≤ P.nMax
  windowPos : 2 ≤ cfgWindow s.cfg
  banks : cfgBanks s.cfg ≤ P.npfbMax
  banksPos : 1 ≤ cfgBanks s.cfg
  energy : refEnergy P s ≠ 0
  hdrSyms : cfgHdrSyms s.cfg ≤ P.hsymMax
  hdrSymsPos : 1 ≤ cfgHdrSyms s.cfg
  encBytes : cfgEncBytes s.cfg ≤ P.hbufMax
  decBytes : cfgDecBytes s.cfg + cfgKeyBytes s.cfg ≤ P.hbufMax
  geometry : cfgHdrSyms s.cfg = ceildiv (8 * cfgEncBytes s.cfg) (cfgHdrBps s.cfg).toNat
  scheme : P.modSupported (cfgHdrScheme s.cfg) (cfgHdrBps s.cfg) = true
  debounce : 1 ≤ cfgDebounce s.cfg

theorem legal_of_check {P : Params} {s : State} (h : configCheck P s = 0) : Legal P s := by
  obtain ⟨h1, h2, h3, h4, h5, h6, h7, h8⟩ := (configCheck_eq_zero P s).1 h
  simp only [badFilter, badPreamble, badBanks, badEnergy, badHeader, Bool.or_eq_false_iff, beq_eq_false_iff_ne,
    decide_eq_false_iff_not, not_lt, bne_eq_false_iff_eq, Bool.and_eq_false_iff, ne_eq, not_le] at h2 h3 h4 h5 h6
  obtain ⟨⟨⟨⟨⟨p1, p2⟩, p3⟩, p4⟩, p5⟩, p6⟩ := h6
  have hw : 2 * 1 ≤ cfgWindow s.cfg := by
    have : 1 ≤ cfgPreLen s.cfg := by omega
    unfold cfgWindow
    rw [Nat.mul_comm 2 1]
    exact Nat.mul_le_mul this h1
  exact
    { sps := h1, taps := h2.2, window := h3.2, windowPos := by omega, banks := h4.2, banksPos := by omega,
      energy := by rcases h5 with h5 | h5 <;> [omega; exact h5], hdrSyms := p2, hdrSymsPos := by omega,
      encBytes := p4, decBytes := by unfold cfgDecBytes; omega, geometry := p6, scheme := h7, debounce := by omega }

/-! ### The derived constants as numbers (R52, R123) -/

theorem cfgWindow_lt (c : Cfg) : cfgWindow c < 2 ^ 24 := by
  have h1 : cfgPreLen c < 2 ^ 16 := regField_lt ..
  have h2 : cfgSps c < 2 ^ 8 := regField_lt ..
  unfold cfgWindow
  calc cfgPreLen c * cfgSps c ≤ (2 ^ 16 - 1) * (2 ^ 8 - 1) := Nat.mul_le_mul (by omega) (by omega)
    _ < 2 ^ 24 := by norm_num

theorem derive_n (P : Params) (s : State) : (derive P s).n.toNat = cfgWindow s.cfg := by
  have := cfgWindow_lt s.cfg
  exact toNat_ofNat_of_lt (by omega)

theorem derive_taps {P : Params} {s : State} (h : cfgTaps s.cfg ≤ 256) : (derive P s).taps.toNat = cfgTaps s.cfg :=
  toNat_ofNat_of_lt (by omega)

theorem refEnergy_le {P : Params} {s : State} {b : Nat} (h : cfgWindow s.cfg ≤ b) : refEnergy P s ≤ b * 2 ^ 31 :=
  (nsum_le fun _ _ => mag2_smp_le _).trans (Nat.mul_le_mul_right _ h)

/-- `es` fits its register (R123). -/
theorem derive_es {P : Params} {s : State} (h : cfgWindow s.cfg ≤ 65536) :
    (derive P s).es.toNat = refEnergy P s := by
  have := refEnergy_le (P := P) h
  exact toNat_ofNat_of_lt (by omega)

/-! ### What INIT reads -/

theorem refAt_congr {P : Params} {s t : State} (h1 : t.ref = s.ref) (h2 : t.hresets = s.hresets) :
    refAt P t = refAt P s := by
  unfold refAt
  rw [h1, h2]

theorem refEnergy_congr {P : Params} {s t : State} (hc : t.cfg = s.cfg) (h1 : t.ref = s.ref)
    (h2 : t.hresets = s.hresets) : refEnergy P t = refEnergy P s := by
  unfold refEnergy
  rw [refAt_congr h1 h2, hc]

theorem derive_congr {P : Params} {s t : State} (hc : t.cfg = s.cfg) (h1 : t.ref = s.ref)
    (h2 : t.hresets = s.hresets) : derive P t = derive P s := by
  unfold derive
  rw [refEnergy_congr hc h1 h2, hc]

theorem configCheck_congr {P : Params} {s t : State} (hc : t.cfg = s.cfg) (h1 : t.ref = s.ref)
    (h2 : t.hresets = s.hresets) : configCheck P t = configCheck P s := by
  unfold configCheck badEnergy
  rw [refEnergy_congr hc h1 h2, hc]

end Sys2Proof.Machine
end

