-- ==== Sys2Proof/Laws/Carrier.lean ====
section
/-! SUPPORT. The carrier registers as integers: a clamped frequency fits its register (R200, R203). -/

namespace Sys2Proof.Machine

/-- The clamped frequency lies within `±NCO_FMAX` (R200). -/
theorem clampFreq_mem (c : Cfg) (v : Int) : -(cfgNcoFmax c : Int) ≤ clampFreq c v ∧ clampFreq c v ≤ cfgNcoFmax c :=
  clamp_mem (by omega)

/-- A register holds a clamped frequency exactly. -/
theorem clampFreq_toInt (c : Cfg) (v : Int) : (BitVec.ofInt 32 (clampFreq c v)).toInt = clampFreq c v := by
  have h : cfgNcoFmax c < 2 ^ 31 := regField_lt ..
  have := clampFreq_mem c v
  exact toInt_ofInt_of_range (by norm_num; omega) (by norm_num; omega) (by norm_num)

end Sys2Proof.Machine
end

