-- ==== Sys2Proof/Laws/Decode.lean ====
section
/-! SUPPORT. The fields of the five formats (R91 to R95): a field as a number, a format as a number, and each field of
each format. -/

namespace Sys2Proof

/-- A field as a number. -/
theorem field_toNat (w : Word) (lo len : Nat) : (field w lo len).toNat = w.toNat / 2 ^ lo % 2 ^ len := by
  unfold field
  rw [BitVec.extractLsb'_toNat, Nat.shiftRight_eq_div_pow]

/-- A concatenation as a number. -/
theorem append_toNat {m n : Nat} (x : BitVec m) (y : BitVec n) : (x ++ y).toNat = x.toNat * 2 ^ n + y.toNat := by
  rw [BitVec.toNat_append, ← Nat.shiftLeft_add_eq_or_of_lt y.isLt, Nat.shiftLeft_eq]

theorem encodeZ_toNat (op : BitVec 8) : (encodeZ op).toNat = op.toNat * 2 ^ 56 := by
  simp only [encodeZ, append_toNat, BitVec.toNat_ofNat, Nat.zero_mod, Nat.add_zero]

theorem encodeA_toNat (op : BitVec 8) (addr : BitVec 16) :
    (encodeA op addr).toNat = op.toNat * 2 ^ 56 + addr.toNat * 2 ^ 32 := by
  simp only [encodeA, append_toNat, BitVec.toNat_ofNat, Nat.zero_mod]; omega

theorem encodeW_toNat (op : BitVec 8) (addr : BitVec 16) (data : BitVec 32) :
    (encodeW op addr data).toNat = op.toNat * 2 ^ 56 + addr.toNat * 2 ^ 32 + data.toNat := by
  simp only [encodeW, append_toNat, BitVec.toNat_ofNat, Nat.zero_mod]; omega

theorem encodeC_toNat (op bank tap : BitVec 8) (coef : BitVec 16) :
    (encodeC op bank tap coef).toNat =
      op.toNat * 2 ^ 56 + bank.toNat * 2 ^ 40 + tap.toNat * 2 ^ 32 + coef.toNat := by
  simp only [encodeC, append_toNat, BitVec.toNat_ofNat, Nat.zero_mod]; omega

theorem encodeS_toNat (op : BitVec 8) (re im : BitVec 16) :
    (encodeS op re im).toNat = op.toNat * 2 ^ 56 + re.toNat * 2 ^ 16 + im.toNat := by
  simp only [encodeS, append_toNat, BitVec.toNat_ofNat, Nat.zero_mod]; omega

theorem encodeZ_op (op : BitVec 8) : field (encodeZ op) 56 8 = op :=
  BitVec.eq_of_toNat_eq (by rw [field_toNat, encodeZ_toNat]; omega)

theorem encodeZ_body (op : BitVec 8) : field (encodeZ op) 0 56 = 0 :=
  BitVec.eq_of_toNat_eq (by rw [field_toNat, encodeZ_toNat]; simp only [BitVec.ofNat_eq_ofNat, BitVec.toNat_ofNat]; omega)

theorem encodeA_op (op : BitVec 8) (addr : BitVec 16) : field (encodeA op addr) 56 8 = op :=
  BitVec.eq_of_toNat_eq (by rw [field_toNat, encodeA_toNat]; omega)

theorem encodeA_hi (op : BitVec 8) (addr : BitVec 16) : field (encodeA op addr) 48 8 = 0 :=
  BitVec.eq_of_toNat_eq (by rw [field_toNat, encodeA_toNat]; simp only [BitVec.ofNat_eq_ofNat, BitVec.toNat_ofNat]; omega)

theorem encodeA_addr (op : BitVec 8) (addr : BitVec 16) : field (encodeA op addr) 32 16 = addr :=
  BitVec.eq_of_toNat_eq (by rw [field_toNat, encodeA_toNat]; omega)

theorem encodeA_data (op : BitVec 8) (addr : BitVec 16) : field (encodeA op addr) 0 32 = 0 :=
  BitVec.eq_of_toNat_eq (by rw [field_toNat, encodeA_toNat]; simp only [BitVec.ofNat_eq_ofNat, BitVec.toNat_ofNat]; omega)

theorem encodeW_op (op : BitVec 8) (addr : BitVec 16) (data : BitVec 32) : field (encodeW op addr data) 56 8 = op :=
  BitVec.eq_of_toNat_eq (by rw [field_toNat, encodeW_toNat]; omega)

theorem encodeW_hi (op : BitVec 8) (addr : BitVec 16) (data : BitVec 32) : field (encodeW op addr data) 48 8 = 0 :=
  BitVec.eq_of_toNat_eq (by rw [field_toNat, encodeW_toNat]; simp only [BitVec.ofNat_eq_ofNat, BitVec.toNat_ofNat]; omega)

theorem encodeW_addr (op : BitVec 8) (addr : BitVec 16) (data : BitVec 32) : field (encodeW op addr data) 32 16 = addr :=
  BitVec.eq_of_toNat_eq (by rw [field_toNat, encodeW_toNat]; omega)

theorem encodeW_data (op : BitVec 8) (addr : BitVec 16) (data : BitVec 32) : field (encodeW op addr data) 0 32 = data :=
  BitVec.eq_of_toNat_eq (by rw [field_toNat, encodeW_toNat]; omega)

theorem encodeC_op (op bank tap : BitVec 8) (coef : BitVec 16) : field (encodeC op bank tap coef) 56 8 = op :=
  BitVec.eq_of_toNat_eq (by rw [field_toNat, encodeC_toNat]; omega)

theorem encodeC_hi (op bank tap : BitVec 8) (coef : BitVec 16) : field (encodeC op bank tap coef) 48 8 = 0 :=
  BitVec.eq_of_toNat_eq (by rw [field_toNat, encodeC_toNat]; simp only [BitVec.ofNat_eq_ofNat, BitVec.toNat_ofNat]; omega)

theorem encodeC_bank (op bank tap : BitVec 8) (coef : BitVec 16) : field (encodeC op bank tap coef) 40 8 = bank :=
  BitVec.eq_of_toNat_eq (by rw [field_toNat, encodeC_toNat]; omega)

theorem encodeC_tap (op bank tap : BitVec 8) (coef : BitVec 16) : field (encodeC op bank tap coef) 32 8 = tap :=
  BitVec.eq_of_toNat_eq (by rw [field_toNat, encodeC_toNat]; omega)

theorem encodeC_mid (op bank tap : BitVec 8) (coef : BitVec 16) : field (encodeC op bank tap coef) 16 16 = 0 :=
  BitVec.eq_of_toNat_eq (by rw [field_toNat, encodeC_toNat]; simp only [BitVec.ofNat_eq_ofNat, BitVec.toNat_ofNat]; omega)

theorem encodeC_coef (op bank tap : BitVec 8) (coef : BitVec 16) : field (encodeC op bank tap coef) 0 16 = coef :=
  BitVec.eq_of_toNat_eq (by rw [field_toNat, encodeC_toNat]; omega)

theorem encodeS_op (op : BitVec 8) (re im : BitVec 16) : field (encodeS op re im) 56 8 = op :=
  BitVec.eq_of_toNat_eq (by rw [field_toNat, encodeS_toNat]; omega)

theorem encodeS_mid (op : BitVec 8) (re im : BitVec 16) : field (encodeS op re im) 32 24 = 0 :=
  BitVec.eq_of_toNat_eq (by rw [field_toNat, encodeS_toNat]; simp only [BitVec.ofNat_eq_ofNat, BitVec.toNat_ofNat]; omega)

theorem encodeS_re (op : BitVec 8) (re im : BitVec 16) : field (encodeS op re im) 16 16 = re :=
  BitVec.eq_of_toNat_eq (by rw [field_toNat, encodeS_toNat]; omega)

theorem encodeS_im (op : BitVec 8) (re im : BitVec 16) : field (encodeS op re im) 0 16 = im :=
  BitVec.eq_of_toNat_eq (by rw [field_toNat, encodeS_toNat]; omega)

/-- A mask acts on the parts of a concatenation. -/
theorem append_and {m n : Nat} (a c : BitVec m) (b d : BitVec n) : (a ++ b) &&& (c ++ d) = (a &&& c) ++ (b &&& d) := by
  ext i hi
  simp only [BitVec.getElem_and, BitVec.getElem_append]
  split <;> rfl

/-- A word cut at the boundaries of the formats. -/
theorem word_cut (w : Word) :
    w = field w 56 8 ++ field w 48 8 ++ field w 32 16 ++ field w 16 16 ++ field w 0 16 := by
  apply BitVec.eq_of_toNat_eq
  simp only [append_toNat, field_toNat]
  omega

/-- `w & mask` for a mask cut at the boundaries of the formats. -/
theorem word_and (w : Word) (a b : BitVec 8) (c d e : BitVec 16) :
    w &&& (a ++ b ++ c ++ d ++ e) = (field w 56 8 &&& a) ++ (field w 48 8 &&& b) ++ (field w 32 16 &&& c) ++
      (field w 16 16 &&& d) ++ (field w 0 16 &&& e) := by
  conv_lhs => rw [word_cut w]
  rw [append_and, append_and, append_and, append_and]

/-- The test of a row whose mask covers the opcode and the reserved bits above `addr`, and the parts `c`, `d`, `e`. -/
theorem accepts_cut {r : OpRow} {a b : BitVec 8} {c d e : BitVec 16} (w : Word)
    (hm : r.mask = 0xFF#8 ++ b ++ c ++ d ++ e) (hv : r.matchBits = a ++ 0#8 ++ 0#16 ++ 0#16 ++ 0#16) :
    r.accepts w = true ↔ field w 56 8 = a ∧ field w 48 8 &&& b = 0 ∧ field w 32 16 &&& c = 0 ∧
      field w 16 16 &&& d = 0 ∧ field w 0 16 &&& e = 0 := by
  have h1 : field w 56 8 &&& 0xFF#8 = field w 56 8 := BitVec.and_allOnes
  unfold OpRow.accepts
  rw [beq_iff_eq, hm, hv, word_and, h1]
  constructor
  · intro h
    have h := congrArg BitVec.toNat h
    simp only [append_toNat, BitVec.toNat_ofNat, Nat.zero_mod, Nat.add_zero] at h
    have z : ∀ {n : Nat} {x : BitVec n}, x.toNat = 0 → x = 0 := fun hx => BitVec.eq_of_toNat_eq (by simpa using hx)
    exact ⟨BitVec.eq_of_toNat_eq (by omega), z (by omega), z (by omega), z (by omega), z (by omega)⟩
  · rintro ⟨h1, h2, h3, h4, h5⟩
    rw [h1, h2, h3, h4, h5]
    rfl

/-- The fields of a format W word, as its mask tests them. -/
theorem row_fieldsW (op : BitVec 8) (addr : BitVec 16) (data : BitVec 32) :
    field (encodeW op addr data) 56 8 = op ∧ field (encodeW op addr data) 48 8 &&& 0xFF = 0 ∧
      field (encodeW op addr data) 32 16 &&& 0 = 0 ∧ field (encodeW op addr data) 16 16 &&& 0 = 0 ∧
      field (encodeW op addr data) 0 16 &&& 0 = 0 :=
  ⟨encodeW_op .., by rw [encodeW_hi]; rfl, BitVec.and_zero, BitVec.and_zero, BitVec.and_zero⟩

/-- The fields of a format C word, as its mask tests them. -/
theorem row_fieldsC (op bank tap : BitVec 8) (coef : BitVec 16) :
    field (encodeC op bank tap coef) 56 8 = op ∧ field (encodeC op bank tap coef) 48 8 &&& 0xFF = 0 ∧
      field (encodeC op bank tap coef) 32 16 &&& 0 = 0 ∧ field (encodeC op bank tap coef) 16 16 &&& 0xFFFF = 0 ∧
      field (encodeC op bank tap coef) 0 16 &&& 0 = 0 :=
  ⟨encodeC_op .., by rw [encodeC_hi]; rfl, BitVec.and_zero, by rw [encodeC_mid]; rfl, BitVec.and_zero⟩

/-- The fields of a format A word, as its mask tests them. -/
theorem row_fieldsA (op : BitVec 8) (addr : BitVec 16) :
    field (encodeA op addr) 56 8 = op ∧ field (encodeA op addr) 48 8 &&& 0xFF = 0 ∧
      field (encodeA op addr) 32 16 &&& 0 = 0 ∧ field (encodeA op addr) 16 16 &&& 0xFFFF = 0 ∧
      field (encodeA op addr) 0 16 &&& 0xFFFF = 0 := by
  have h1 : field (encodeA op addr) 16 16 = 0 := BitVec.eq_of_toNat_eq (by rw [field_toNat, encodeA_toNat]; simp; omega)
  have h2 : field (encodeA op addr) 0 16 = 0 := BitVec.eq_of_toNat_eq (by rw [field_toNat, encodeA_toNat]; simp; omega)
  exact ⟨encodeA_op .., by rw [encodeA_hi]; rfl, BitVec.and_zero, by rw [h1]; rfl, by rw [h2]; rfl⟩

/-- The fields of a format S word, as its mask tests them. -/
theorem row_fieldsS (op : BitVec 8) (re im : BitVec 16) :
    field (encodeS op re im) 56 8 = op ∧ field (encodeS op re im) 48 8 &&& 0xFF = 0 ∧
      field (encodeS op re im) 32 16 &&& 0xFFFF = 0 ∧ field (encodeS op re im) 16 16 &&& 0 = 0 ∧
      field (encodeS op re im) 0 16 &&& 0 = 0 := by
  have h1 : field (encodeS op re im) 48 8 = 0 := BitVec.eq_of_toNat_eq (by rw [field_toNat, encodeS_toNat]; simp; omega)
  have h2 : field (encodeS op re im) 32 16 = 0 := BitVec.eq_of_toNat_eq (by rw [field_toNat, encodeS_toNat]; simp; omega)
  exact ⟨encodeS_op .., by rw [h1]; rfl, by rw [h2]; rfl, BitVec.and_zero, BitVec.and_zero⟩

/-- A word is determined by its fields. -/
theorem word_ext {w v : Word} (h : w.toNat = v.toNat) : w = v := BitVec.eq_of_toNat_eq h

end Sys2Proof
end

