-- ==== Sys2Proof/Laws/Push.lean ====
section
/-! SUPPORT. The units inside PUSH: for each, once, everything it can do (R237, R163, R226, R251, R253, R245), and
that none of them writes what INIT fixed. -/

namespace Sys2Proof.Machine

/-- What INIT fixed and no PUSH writes (R65), with the ports a unit leaves alone. -/
structure SameBuild (s t : State) : Prop where
  status : t.status = s.status
  cfgCause : t.cfgCause = s.cfgCause
  cfg : t.cfg = s.cfg
  ref : t.ref = s.ref
  mf : t.mf = s.mf
  dmf : t.dmf = s.dmf
  der : t.der = s.der
  hresets : t.hresets = s.hresets
  inputs : t.inputs = s.inputs
  resp : t.resp = s.resp

theorem sameBuild_refl (s : State) : SameBuild s s := ⟨rfl, rfl, rfl, rfl, rfl, rfl, rfl, rfl, rfl, rfl⟩

theorem sameBuild_trans {s t u : State} (h : SameBuild s t) (k : SameBuild t u) : SameBuild s u :=
  ⟨k.1.trans h.1, k.2.trans h.2, k.3.trans h.3, k.4.trans h.4, k.5.trans h.5, k.6.trans h.6, k.7.trans h.7,
    k.8.trans h.8, k.9.trans h.9, k.10.trans h.10⟩

/-! ### The squelch (R237) -/

/-- The five outcomes of `squelch_update` (R237 to R240). -/
theorem squelchUpdate_cases (s : State) :
    (s.agcLvl.toNat < cfgSqThresh s.cfg ∧ s.sq.closed = true ∧ squelchUpdate s = s) ∨
    (s.agcLvl.toNat < cfgSqThresh s.cfg ∧ s.sq.closed = false ∧
      cfgSqTimeout s.cfg ≤ (sqCount s.sq.cnt).toNat ∧
      squelchUpdate s = acqReset { s with sq := ⟨sqCount s.sq.cnt, true⟩ }) ∨
    (s.agcLvl.toNat < cfgSqThresh s.cfg ∧ s.sq.closed = false ∧
      (sqCount s.sq.cnt).toNat < cfgSqTimeout s.cfg ∧
      squelchUpdate s = { s with sq := ⟨sqCount s.sq.cnt, false⟩ }) ∨
    (cfgSqThresh s.cfg < s.agcLvl.toNat ∧ squelchUpdate s = { s with sq := ⟨0, false⟩ }) ∨
    (s.agcLvl.toNat = cfgSqThresh s.cfg ∧ squelchUpdate s = { s with sq := ⟨0, s.sq.closed⟩ }) := by
  unfold squelchUpdate sqBelow
  split
  · rename_i h
    split
    · rename_i hc
      exact .inl ⟨h, hc, rfl⟩
    · rename_i hc
      have hc : s.sq.closed = false := by simpa using hc
      split
      · exact .inr (.inl ⟨h, hc, by assumption, rfl⟩)
      · exact .inr (.inr (.inl ⟨h, hc, by omega, by rw [hc]⟩))
  · split
    · exact .inr (.inr (.inr (.inl ⟨by assumption, rfl⟩)))
    · exact .inr (.inr (.inr (.inr ⟨by omega, rfl⟩)))

/-- While the squelch stays open the update writes the squelch registers only. -/
theorem squelchUpdate_open {s : State} (h : (squelchUpdate s).sq.closed = false) :
    ∃ q, squelchUpdate s = { s with sq := q } ∧ q.closed = false := by
  obtain ⟨-, c, e⟩ | ⟨-, -, -, e⟩ | ⟨-, -, -, e⟩ | ⟨-, e⟩ | ⟨-, e⟩ := squelchUpdate_cases s
  · rw [e, c] at h; cases h
  · rw [e] at h; cases h
  · exact ⟨_, e, rfl⟩
  · exact ⟨_, e, rfl⟩
  · rw [e] at h; exact ⟨_, e, h⟩

theorem sqCount_toNat (c : BitVec 32) : (sqCount c).toNat = min (c.toNat + 1) (2 ^ 32 - 1) := by
  simp only [sqCount, BitVec.toNat_ofNat]; omega

/-- The samples that leave the squelch open, and the count each leaves (R237 to R239). -/
theorem squelchUpdate_openCount {s : State} (h : cfgSqThresh s.cfg < s.agcLvl.toNat ∨ s.sq.closed = false ∧
    (s.agcLvl.toNat = cfgSqThresh s.cfg ∨ s.agcLvl.toNat < cfgSqThresh s.cfg ∧
      min (s.sq.cnt.toNat + 1) (2 ^ 32 - 1) < cfgSqTimeout s.cfg)) :
    ∃ q : Squelch, squelchUpdate s = { s with sq := q } ∧ q.closed = false ∧ q.cnt.toNat =
      if s.agcLvl.toNat < cfgSqThresh s.cfg then min (s.sq.cnt.toNat + 1) (2 ^ 32 - 1) else 0 := by
  have hs := squelchUpdate_cases s
  rw [sqCount_toNat] at hs
  obtain ⟨a, b, e⟩ | ⟨a, b, c, e⟩ | ⟨a, b, c, e⟩ | ⟨a, e⟩ | ⟨a, e⟩ := hs
  · rw [b] at h; simp at h; omega
  · omega
  · exact ⟨_, e, rfl, by rw [if_pos a]; exact sqCount_toNat _⟩
  · exact ⟨_, e, rfl, by rw [if_neg (by omega)]; rfl⟩
  · exact ⟨_, e, by rcases h with h | h; omega; exact h.1, by rw [if_neg (by omega)]; rfl⟩

theorem squelchUpdate_build (s : State) : SameBuild s (squelchUpdate s) := by
  obtain ⟨-, -, h⟩ | ⟨-, -, -, h⟩ | ⟨-, -, -, h⟩ | ⟨-, h⟩ | ⟨-, h⟩ := squelchUpdate_cases s <;> rw [h] <;>
    exact ⟨rfl, rfl, rfl, rfl, rfl, rfl, rfl, rfl, rfl, rfl⟩

/-! ### The detector (R163, R167) -/

/-- The outcomes of the peak search (R163 to R165): wait, capture a first candidate, replace it, declare, go on. -/
theorem peakSearch_cases (m : Metric) (s : State) :
    (s.det.mode = .seek ∧ passes s.cfg m = false ∧ peakSearch m s = (s, false)) ∨
    (s.det.mode = .seek ∧ passes s.cfg m = true ∧
      peakSearch m s = ({ s with det := { capture m s.det with mode := .findPeak } }, false)) ∨
    (s.det.mode = .findPeak ∧ passes s.cfg m = true ∧ s.det.candRho2.toNat < m.rho2 ∧
      peakSearch m s = ({ s with det := capture m (ageStep m s.det) }, false)) ∨
    (s.det.mode = .findPeak ∧ ¬(passes s.cfg m = true ∧ s.det.candRho2.toNat < m.rho2) ∧
      cfgDebounce s.cfg ≤ (s.det.age + 1).toNat ∧
      peakSearch m s = (declareDet { s with det := ageStep m s.det }, true)) ∨
    (s.det.mode = .findPeak ∧ ¬(passes s.cfg m = true ∧ s.det.candRho2.toNat < m.rho2) ∧
      (s.det.age + 1).toNat < cfgDebounce s.cfg ∧ peakSearch m s = ({ s with det := ageStep m s.det }, false)) := by
  unfold peakSearch
  cases hm : s.det.mode with
  | seek =>
    simp only
    cases hp : passes s.cfg m with
    | true => exact .inr (.inl ⟨by simp, rfl, by simp⟩)
    | false => exact .inl ⟨by simp, rfl, by simp⟩
  | findPeak =>
    simp only
    split
    · rename_i h
      simp only [Bool.and_eq_true, decide_eq_true_eq] at h
      exact .inr (.inr (.inl ⟨by simp, h.1, h.2, rfl⟩))
    · rename_i h
      simp only [Bool.and_eq_true, decide_eq_true_eq] at h
      split
      · rename_i hd
        exact .inr (.inr (.inr (.inl ⟨by simp, h, hd, rfl⟩)))
      · rename_i hd
        exact .inr (.inr (.inr (.inr ⟨by simp, h, not_le.1 hd, rfl⟩)))

theorem peakSearch_build (m : Metric) (s : State) : SameBuild s (peakSearch m s).1 := by
  obtain ⟨-, -, h⟩ | ⟨-, -, h⟩ | ⟨-, -, -, h⟩ | ⟨-, -, -, h⟩ | ⟨-, -, -, h⟩ := peakSearch_cases m s <;> rw [h] <;>
    exact ⟨rfl, rfl, rfl, rfl, rfl, rfl, rfl, rfl, rfl, rfl⟩

/-- The peak search writes the detector registers and, when it declares, the estimate; nothing else. -/
theorem peakSearch_frame (m : Metric) (s : State) :
    ∃ d e, (peakSearch m s).1 = { s with det := d, est := e } := by
  obtain ⟨-, -, h⟩ | ⟨-, -, h⟩ | ⟨-, -, -, h⟩ | ⟨-, -, -, h⟩ | ⟨-, -, -, h⟩ := peakSearch_cases m s <;> rw [h]
  all_goals exact ⟨_, _, rfl⟩

/-- The detector step writes WIN, the detector registers and the estimate; nothing else (R150). -/
theorem detectorStep_frame (P : Params) (x : Smp) (s : State) :
    ∃ d e, (detectorStep P x s).1 =
      { s with win := memWrite Smp.zero s.win s.det.wptr.toNat x, det := d, est := e } := by
  unfold detectorStep
  obtain ⟨d, e, h⟩ := peakSearch_frame (measure P (winPush x s)) (winPush x s)
  simp only [h]
  exact ⟨_, _, rfl⟩

theorem detectorStep_build (P : Params) (x : Smp) (s : State) : SameBuild s (detectorStep P x s).1 := by
  obtain ⟨d, e, h⟩ := detectorStep_frame P x s
  rw [h]
  exact ⟨rfl, rfl, rfl, rfl, rfl, rfl, rfl, rfl, rfl, rfl⟩

/-! ### The timing unit (R226) -/

/-- The two outcomes of `str_step` (R226). -/
theorem strStep_cases (P : Params) (z : Dat) (s : State) :
    (0 < s.str.timer.toInt ∧ strStep P z s = (timerTick (dlPush z s), none)) ∨
    (s.str.timer.toInt ≤ 0 ∧
      strStep P z s = (timerTick (strobe P (dlPush z s)).1, some (strobe P (dlPush z s)).2)) := by
  unfold strStep
  simp only [dlPush_str]
  split
  · exact .inr ⟨by assumption, rfl⟩
  · exact .inl ⟨by omega, rfl⟩

/-- The timing step writes DL and the timing registers; nothing else (R215). -/
theorem strStep_frame (P : Params) (z : Dat) (s : State) :
    ∃ t, (strStep P z s).1 = { s with dl := (dlPush z s).dl, str := t } := by
  obtain ⟨-, h⟩ | ⟨-, h⟩ := strStep_cases P z s <;> rw [h] <;> exact ⟨_, rfl⟩

theorem strStep_build (P : Params) (z : Dat) (s : State) : SameBuild s (strStep P z s).1 := by
  obtain ⟨t, h⟩ := strStep_frame P z s
  rw [h]
  exact ⟨rfl, rfl, rfl, rfl, rfl, rfl, rfl, rfl, rfl, rfl⟩

/-! ### Header and payload completion (R253, R262) -/

/-- The outcomes of `header_complete` (R253 to R260), in the order of its tests (R331). -/
theorem headerComplete_cases (P : Params) (s : State) :
    (headerValid P s = false ∧ headerComplete P s = (endFrame .headerFailed false false false (withHeader P s), true)) ∨
    (headerValid P s = true ∧ supported P (parsed P s) = false ∧
      headerComplete P s =
        (endFrame .unsupported false false false (flagUnsup (setHdr (parsed P s) (withHeader P s))), true)) ∨
    (headerValid P s = true ∧ supported P (parsed P s) = true ∧ growthFails P (sizeFrame P (parsed P s)) = true ∧
      headerComplete P s = (endFrame .growthFailed true false false
        (flagGrowth (setHdr (sizeFrame P (parsed P s)) (withHeader P s))), true)) ∨
    (headerValid P s = true ∧ supported P (parsed P s) = true ∧ growthFails P (sizeFrame P (parsed P s)) = false ∧
      (sizeFrame P (parsed P s)).nsym = 0 ∧ headerComplete P s =
        (payloadComplete P (openPayload (grow (setHdr (sizeFrame P (parsed P s)) (withHeader P s)))), true)) ∨
    (headerValid P s = true ∧ supported P (parsed P s) = true ∧ growthFails P (sizeFrame P (parsed P s)) = false ∧
      (sizeFrame P (parsed P s)).nsym ≠ 0 ∧ headerComplete P s =
        (openPayload (grow (setHdr (sizeFrame P (parsed P s)) (withHeader P s))), false)) := by
  unfold headerComplete startPayload
  cases headerValid P s
  · exact .inl ⟨rfl, by simp⟩
  · cases supported P (parsed P s)
    · exact .inr (.inl ⟨rfl, rfl, by simp⟩)
    · cases growthFails P (sizeFrame P (parsed P s))
      · by_cases hn : (sizeFrame P (parsed P s)).nsym = 0
        · exact .inr (.inr (.inr (.inl ⟨rfl, rfl, rfl, hn, by simp [hn]⟩)))
        · exact .inr (.inr (.inr (.inr ⟨rfl, rfl, rfl, hn, by simpa using hn⟩)))
      · exact .inr (.inr (.inl ⟨rfl, rfl, rfl, by simp⟩))

/-- The record a completed payload emits is built from the registers it leaves (R262, R302). -/
theorem payloadComplete_evt (P : Params) (s : State) : (payloadComplete P s).evt =
    some (buildEvent .frameComplete true (decodePayload P s).2 true (payloadComplete P s)) := rfl

/-- A parsed header names 1 to 8 bits a symbol (R106). -/
theorem parseHeader_bps (u : Nat) (hdr : List Byte) (old : FrameRegs) : 1 ≤ (parseHeader u hdr old).bps.toNat := by
  simp only [parseHeader, BitVec.toNat_add, BitVec.toNat_setWidth, BitVec.extractLsb'_toNat,
    BitVec.ofNat_eq_ofNat, BitVec.toNat_ofNat]
  omega

/-- No symbols are needed only where no bytes are (R257, R260). -/
theorem symbolCount_zero {enc bps : Nat} (hb : 1 ≤ bps) (h : symbolCount enc bps = 0) : enc = 0 := by
  have h : ceildiv (8 * enc) bps = 0 := by unfold symbolCount at h; omega
  have := Nat.div_eq_zero_iff.1 h
  omega

/-- A payload of no bytes leaves PENC alone and decodes the empty list (R260, R262). -/
theorem payloadComplete_empty (P : Params) {s : State} (h : s.hdr.enc = 0) :
    (payloadComplete P s).penc = s.penc ∧
      decodePayload P s = P.pktDecode [] s.hdr.len s.hdr.crc s.hdr.fec0 s.hdr.fec1 := by
  have hn : s.hdr.enc.toNat = 0 := by rw [h]; rfl
  have hm : ∀ {n : Nat} (f : Nat → Byte), n = 0 → memSetRange 0 s.penc 0 n f = s.penc := by
    rintro _ f rfl; simp [memSetRange, memCells]
  have hl : (payloadBytes s).toList = [] :=
    List.eq_nil_of_length_eq_zero ((List.Vector.toList_length _).trans hn)
  exact ⟨hm _ hn, by rw [decodePayload, hl]⟩

theorem payloadComplete_build (P : Params) (s : State) : SameBuild s (payloadComplete P s) :=
  ⟨rfl, rfl, rfl, rfl, rfl, rfl, rfl, rfl, rfl, rfl⟩

theorem withHeader_build (P : Params) (s : State) : SameBuild s (withHeader P s) :=
  ⟨rfl, rfl, rfl, rfl, rfl, rfl, rfl, rfl, rfl, rfl⟩

theorem endFrame_build (k : EventKind) (a b c : Bool) (s : State) : SameBuild s (endFrame k a b c s) :=
  ⟨rfl, rfl, rfl, rfl, rfl, rfl, rfl, rfl, rfl, rfl⟩

theorem setHdr_build (h : FrameRegs) (s : State) : SameBuild s (setHdr h s) :=
  ⟨rfl, rfl, rfl, rfl, rfl, rfl, rfl, rfl, rfl, rfl⟩

theorem flagUnsup_build (s : State) : SameBuild s (flagUnsup s) := ⟨rfl, rfl, rfl, rfl, rfl, rfl, rfl, rfl, rfl, rfl⟩

theorem flagGrowth_build (s : State) : SameBuild s (flagGrowth s) := ⟨rfl, rfl, rfl, rfl, rfl, rfl, rfl, rfl, rfl, rfl⟩

theorem openPayload_build (s : State) : SameBuild s (openPayload (grow s)) :=
  ⟨rfl, rfl, rfl, rfl, rfl, rfl, rfl, rfl, rfl, rfl⟩

theorem headerComplete_build (P : Params) (s : State) : SameBuild s (headerComplete P s).1 := by
  have hw := withHeader_build P s
  have hh := fun h => sameBuild_trans hw (setHdr_build h _)
  obtain ⟨-, h⟩ | ⟨-, -, h⟩ | ⟨-, -, -, h⟩ | ⟨-, -, -, -, h⟩ | ⟨-, -, -, -, h⟩ := headerComplete_cases P s <;> rw [h]
  · exact sameBuild_trans hw (endFrame_build ..)
  · exact sameBuild_trans (sameBuild_trans (hh _) (flagUnsup_build _)) (endFrame_build ..)
  · exact sameBuild_trans (sameBuild_trans (hh _) (flagGrowth_build _)) (endFrame_build ..)
  · exact sameBuild_trans (sameBuild_trans (hh _) (openPayload_build _)) (payloadComplete_build ..)
  · exact sameBuild_trans (hh _) (openPayload_build _)

/-! ### The symbol (R251) -/

theorem storeHdrSym_build (d : Demod) (s : State) : SameBuild s (storeHdrSym d.sym (demodded d s)) :=
  ⟨rfl, rfl, rfl, rfl, rfl, rfl, rfl, rfl, rfl, rfl⟩

theorem storePaySym_build (d : Demod) (s : State) : SameBuild s (storePaySym d.sym (demodded d s)) :=
  ⟨rfl, rfl, rfl, rfl, rfl, rfl, rfl, rfl, rfl, rfl⟩

/-- A header symbol that is not the last (R251). -/
theorem onSymbol_header (P : Params) (y : Dat) (s : State) (hf : s.fsm = .rxheader)
    (h : (s.symCnt + 1).toNat ≠ cfgHdrSyms s.cfg) :
    onSymbol P y s = (storeHdrSym (P.modem (cfgHdrScheme s.cfg) (cfgHdrBps s.cfg) y).sym
      (demodded (P.modem (cfgHdrScheme s.cfg) (cfgHdrBps s.cfg) y) s), false) := by
  simp only [onSymbol, hf, if_true, onHdrSym, storeHdrSym_symCnt, demodded_symCnt, storeHdrSym_cfg, demodded_cfg, h,
    if_false]

/-- The last header symbol (R251, R253). -/
theorem onSymbol_lastHeader (P : Params) (y : Dat) (s : State) (hf : s.fsm = .rxheader)
    (h : (s.symCnt + 1).toNat = cfgHdrSyms s.cfg) :
    onSymbol P y s = headerComplete P (storeHdrSym (P.modem (cfgHdrScheme s.cfg) (cfgHdrBps s.cfg) y).sym
      (demodded (P.modem (cfgHdrScheme s.cfg) (cfgHdrBps s.cfg) y) s)) := by
  simp only [onSymbol, hf, if_true, onHdrSym, storeHdrSym_symCnt, demodded_symCnt, storeHdrSym_cfg, demodded_cfg, h]

/-- A payload symbol that is not the last (R251). -/
theorem onSymbol_payload (P : Params) (y : Dat) (s : State) (hf : s.fsm = .rxpayload)
    (h : s.symCnt + 1 ≠ s.hdr.nsym) :
    onSymbol P y s =
      (storePaySym (P.modem s.hdr.mod s.hdr.bps y).sym (demodded (P.modem s.hdr.mod s.hdr.bps y) s), false) := by
  simp only [onSymbol, hf, reduceCtorEq, if_false, onPaySym, storePaySym_symCnt, demodded_symCnt, storePaySym_hdr,
    demodded_hdr, h]

/-- The last payload symbol (R251, R262). -/
theorem onSymbol_lastPayload (P : Params) (y : Dat) (s : State) (hf : s.fsm = .rxpayload)
    (h : s.symCnt + 1 = s.hdr.nsym) :
    onSymbol P y s = (payloadComplete P (storePaySym (P.modem s.hdr.mod s.hdr.bps y).sym
      (demodded (P.modem s.hdr.mod s.hdr.bps y) s)), true) := by
  simp only [onSymbol, hf, reduceCtorEq, if_false, if_true, onPaySym, storePaySym_symCnt, demodded_symCnt,
    storePaySym_hdr, demodded_hdr, h]

theorem onSymbol_build (P : Params) (y : Dat) (s : State) : SameBuild s (onSymbol P y s).1 := by
  unfold onSymbol onHdrSym onPaySym
  simp only
  split <;> split
  · exact sameBuild_trans (storeHdrSym_build _ _) (headerComplete_build P _)
  · exact storeHdrSym_build _ _
  · exact sameBuild_trans (storePaySym_build _ _) (payloadComplete_build P _)
  · exact storePaySym_build _ _

/-! ### PUSH (R245) -/

theorem leaveReset_fsm (s : State) : (leaveReset s).fsm ≠ .reset := by
  unfold leaveReset
  split
  · simp
  · assumption

theorem leaveReset_build (s : State) : SameBuild s (leaveReset s) := by
  unfold leaveReset
  split
  · exact ⟨rfl, rfl, rfl, rfl, rfl, rfl, rfl, rfl, rfl, rfl⟩
  · exact sameBuild_refl s

/-- The three outcomes of a sample in DETECT (R247). -/
theorem detectSample_cases (P : Params) (x : Smp) (s : State) :
    ((squelchUpdate s).sq.closed = true ∧ detectSample P x s = (squelchUpdate s, ⟨false, false, false⟩)) ∨
    ((squelchUpdate s).sq.closed = false ∧ (detectorStep P x (squelchUpdate s)).2 = false ∧
      detectSample P x s = ((detectorStep P x (squelchUpdate s)).1, ⟨false, false, false⟩)) ∨
    ((squelchUpdate s).sq.closed = false ∧ (detectorStep P x (squelchUpdate s)).2 = true ∧
      detectSample P x s = (onDetect (detectorStep P x (squelchUpdate s)).1, ⟨true, false, false⟩)) := by
  unfold detectSample
  simp only
  split
  · exact .inl ⟨by assumption, rfl⟩
  · rename_i h
    have h : (squelchUpdate s).sq.closed = false := by simpa using h
    split
    · exact .inr (.inr ⟨h, by assumption, rfl⟩)
    · rename_i hd
      exact .inr (.inl ⟨h, by simpa using hd, rfl⟩)

theorem onDetect_build (s : State) : SameBuild s (onDetect s) := ⟨rfl, rfl, rfl, rfl, rfl, rfl, rfl, rfl, rfl, rfl⟩

theorem detectSample_build (P : Params) (x : Smp) (s : State) : SameBuild s (detectSample P x s).1 := by
  obtain ⟨-, h⟩ | ⟨-, -, h⟩ | ⟨-, -, h⟩ := detectSample_cases P x s <;> rw [h]
  · exact squelchUpdate_build s
  · exact sameBuild_trans (squelchUpdate_build s) (detectorStep_build P x _)
  · exact sameBuild_trans (sameBuild_trans (squelchUpdate_build s) (detectorStep_build P x _)) (onDetect_build _)

/-- The sample the timing unit takes: scaled and mixed (R184, R196). -/
def mixedSample (P : Params) (x : Smp) (s : State) : Dat := ncoMixed P (agcApply (agcGain s.agcLvl.toNat) x) s

/-- The two outcomes of a sample in a frame (R248): no strobe, or a symbol. -/
theorem frameSample_cases (P : Params) (x : Smp) (s : State) :
    (0 < s.str.timer.toInt ∧
      frameSample P x s = (timerTick (dlPush (mixedSample P x s) (ncoAdvance s)), ⟨false, false, false⟩)) ∨
    (s.str.timer.toInt ≤ 0 ∧
      let r := strobe P (dlPush (mixedSample P x s) (ncoAdvance s))
      frameSample P x s = ((onSymbol P r.2 (timerTick r.1)).1, ⟨false, true, (onSymbol P r.2 (timerTick r.1)).2⟩)) := by
  unfold frameSample
  simp only
  obtain ⟨h, e⟩ | ⟨h, e⟩ := strStep_cases P (mixedSample P x s) (ncoAdvance s)
  · refine .inl ⟨h, ?_⟩
    unfold mixedSample at e ⊢
    rw [e]
  · refine .inr ⟨h, ?_⟩
    unfold mixedSample at e ⊢
    rw [e]

theorem strobe_build (P : Params) (s : State) : SameBuild s (strobe P s).1 :=
  ⟨rfl, rfl, rfl, rfl, rfl, rfl, rfl, rfl, rfl, rfl⟩

theorem ncoAdvance_build (s : State) : SameBuild s (ncoAdvance s) :=
  ⟨rfl, rfl, rfl, rfl, rfl, rfl, rfl, rfl, rfl, rfl⟩

theorem dlPush_build (z : Dat) (s : State) : SameBuild s (dlPush z s) :=
  ⟨rfl, rfl, rfl, rfl, rfl, rfl, rfl, rfl, rfl, rfl⟩

theorem timerTick_build (s : State) : SameBuild s (timerTick s) := ⟨rfl, rfl, rfl, rfl, rfl, rfl, rfl, rfl, rfl, rfl⟩

theorem frameSample_build (P : Params) (x : Smp) (s : State) : SameBuild s (frameSample P x s).1 := by
  have hd := sameBuild_trans (ncoAdvance_build s) (dlPush_build (mixedSample P x s) _)
  obtain ⟨-, h⟩ | ⟨-, h⟩ := frameSample_cases P x s
  · rw [h]; exact sameBuild_trans hd (timerTick_build _)
  · simp only at h
    rw [h]
    exact sameBuild_trans (sameBuild_trans (sameBuild_trans hd (strobe_build P _)) (timerTick_build _)) (onSymbol_build P _ _)

/-- PUSH in DETECT (R245, R247). -/
theorem pushSample_detect (P : Params) (x : Smp) {s : State} (h : s.fsm = .detect) :
    pushSample P x s = detectSample P x (agcTrack x s) := by
  have : leaveReset s = s := by simp [leaveReset, h]
  simp [pushSample, this, h]

/-- PUSH in a frame (R245, R248). -/
theorem pushSample_frame (P : Params) (x : Smp) {s : State} (h : s.fsm = .rxheader ∨ s.fsm = .rxpayload) :
    pushSample P x s = frameSample P x (agcTrack x s) := by
  have h1 : leaveReset s = s := by rcases h with h | h <;> simp [leaveReset, h]
  rcases h with h | h <;> simp [pushSample, h1, h]

/-- PUSH in RESET (R245, R261). -/
theorem pushSample_reset (P : Params) (x : Smp) {s : State} (h : s.fsm = .reset) :
    pushSample P x s = detectSample P x (agcTrack x (toDetect (acqReset s))) := by
  have h1 : leaveReset s = toDetect (acqReset s) := by simp [leaveReset, h]
  simp [pushSample, h1]

/-- PUSH in a frame on a strobe (R226, R248). -/
theorem pushSample_strobe {P : Params} {x : Smp} {s : State} (hf : s.fsm = .rxheader ∨ s.fsm = .rxpayload)
    (ht : s.str.timer.toInt ≤ 0) :
    pushSample P x s = ((onSymbol P (strobeOf P x s).2 (strobeOf P x s).1).1,
      ⟨false, true, (onSymbol P (strobeOf P x s).2 (strobeOf P x s).1).2⟩) := by
  rw [pushSample_frame _ _ hf]
  obtain ⟨a, -⟩ | ⟨a, e⟩ := frameSample_cases P x (agcTrack x s)
  · exact absurd ht (not_le.2 a)
  · exact e

/-- Before the modem is asked, a strobe wrote the level, the carrier, the delay line and the timing registers. -/
theorem strobeOf_frame (P : Params) (x : Smp) (s : State) :
    ∃ n d r, (strobeOf P x s).1 = { s with agcLvl := levelAfter x s, nco := n, dl := d, str := r } := ⟨_, _, _, rfl⟩

/-- An accepted PUSH writes nothing INIT fixed (R65). -/
theorem pushSample_build (P : Params) (x : Smp) (s : State) : SameBuild s (pushSample P x s).1 := by
  unfold pushSample
  simp only
  have h : SameBuild s (agcTrack x (leaveReset s)) :=
    sameBuild_trans (leaveReset_build s) ⟨rfl, rfl, rfl, rfl, rfl, rfl, rfl, rfl, rfl, rfl⟩
  split
  · exact sameBuild_trans h (detectSample_build P x _)
  · exact sameBuild_trans h (frameSample_build P x _)

end Sys2Proof.Machine
end

