-- ==== Sys2Proof/Laws/Detector.lean ====
section
/-! SUPPORT. The detector: the window and its energy (R153), the range of the timing estimate (R166), and what the
firing condition bounds (R158). -/

namespace Sys2Proof.Machine

/-! ### The window (R153) -/

theorem winAt_winPush (x : Smp) (s : State) (i : Nat) :
    winAt (winPush x s) i = if i = s.det.wptr.toNat then x else winAt s i := memRead_write ..

theorem mag2_zero : mag2 Smp.zero.cx = 0 := by decide

/-- The energy register follows the window (R153): it stays the exact sum of the squared magnitudes. -/
theorem winPush_energy {x : Smp} {s : State} {n : Nat} (hn : n ≤ 65536) (hw : s.det.wptr.toNat < n)
    (he : s.det.ex.toNat = nsum (fun i => mag2 (winAt s i).cx) n) :
    (winPush x s).det.ex.toNat = nsum (fun i => mag2 (winAt (winPush x s) i).cx) n := by
  have hu := nsum_update (f := fun i => mag2 (winAt s i).cx) (v := mag2 x.cx) hw
  have hc : nsum (fun i => mag2 (winAt (winPush x s) i).cx) n =
      nsum (fun j => if j = s.det.wptr.toNat then mag2 x.cx else mag2 (winAt s j).cx) n :=
    nsum_congr fun i _ => by rw [winAt_winPush]; split <;> rfl
  have hb : nsum (fun i => mag2 (winAt (winPush x s) i).cx) n ≤ n * 2 ^ 31 := nsum_le fun i _ => mag2_smp_le _
  rw [hc] at hb ⊢
  have hm : n * 2 ^ 31 ≤ 65536 * 2 ^ 31 := Nat.mul_le_mul_right _ hn
  have hle := le_nsum (f := fun i => mag2 (winAt s i).cx) hw
  have key : ((BitVec.ofInt 48 ((s.det.ex.toNat : Int) - mag2 (winAt s s.det.wptr.toNat).cx + mag2 x.cx)).toNat : Int) =
      (s.det.ex.toNat : Int) - mag2 (winAt s s.det.wptr.toNat).cx + mag2 x.cx :=
    toNat_ofInt_of_range (by omega) (by norm_num; omega)
  have : ((winPush x s).det.ex.toNat : Int) =
      (s.det.ex.toNat : Int) - mag2 (winAt s s.det.wptr.toNat).cx + mag2 x.cx := key
  omega

/-- The write pointer stays inside the window (R67). -/
theorem winPush_wptr {x : Smp} {s : State} (h0 : 0 < s.der.n.toNat) (h1 : s.der.n.toNat ≤ 65536) :
    (winPush x s).det.wptr.toNat < s.der.n.toNat := by
  show (BitVec.ofNat 16 ((s.det.wptr.toNat + 1) % s.der.n.toNat)).toNat < _
  have := Nat.mod_lt (s.det.wptr.toNat + 1) h0
  rw [toNat_ofNat_of_lt (by omega)]
  exact this

/-! ### The timing estimate (R166) -/

theorem tauOf_mem (m0 m1 m2 : Nat) : -2 ^ 23 ≤ tauOf m0 m1 m2 ∧ tauOf m0 m1 m2 ≤ 2 ^ 23 - 1 := by
  unfold tauOf
  simp only
  split
  · exact clamp_mem (by norm_num)
  · norm_num

theorem declareDet_tau (s : State) :
    (declareDet s).est.tau.toInt = tauOf s.det.candM0.toNat s.det.candM1.toNat s.det.candM2.toNat := by
  have := tauOf_mem s.det.candM0.toNat s.det.candM1.toNat s.det.candM2.toNat
  exact toInt_ofInt_of_range (by norm_num; omega) (by norm_num; omega) (by norm_num)

/-! ### The firing condition (R158) -/

/-- A passing sample's offset fits the candidate register (R164). -/
theorem passes_dphi {c : Cfg} {m : Metric} (h : passes c m = true) : m.dphi.natAbs < 2 ^ 31 := by
  unfold passes at h
  simp only [Bool.and_eq_true, decide_eq_true_eq] at h
  have : cfgDphiMax c < 2 ^ 31 := BitVec.isLt _
  omega

/-- The firing condition as an inequality of integers (R158). -/
theorem passes_iff (c : Cfg) (m : Metric) :
    passes c m = true ↔ cfgThresh c * cfgThresh c < m.rho2 ∧ |m.dphi| ≤ cfgDphiMax c := by
  simp only [passes, Bool.and_eq_true, decide_eq_true_eq, Int.abs_eq_natAbs, Nat.cast_le]

/-- With `THRESH >= 0x10000` nothing passes (R158). -/
theorem passes_of_thresh {c : Cfg} {m : Metric} (hc : 0x10000 ≤ cfgThresh c) (hm : m.rho2 ≤ 2 ^ 32) :
    passes c m = false := by
  unfold passes
  have : 0x10000 * 0x10000 ≤ cfgThresh c * cfgThresh c := Nat.mul_le_mul hc hc
  simp; omega

/-! ### The Cauchy-Schwarz bound (R156) -/

/-- One more term keeps `|r|^2 <= E * F`. -/
theorem cauchy_step {X Y x y : Int} {E F e f : Nat} (h : X * X + Y * Y ≤ E * F) (h1 : x * x + y * y = e * f) :
    (X + x) * (X + x) + (Y + y) * (Y + y) ≤ ((E + e : Nat) : Int) * ((F + f : Nat) : Int) := by
  push_cast
  have hs : (2 * (X * x + Y * y)) * (2 * (X * x + Y * y)) ≤ ((E : Int) * f + e * F) * ((E : Int) * f + e * F) := by
    have h2 : (X * x + Y * y) * (X * x + Y * y) ≤ (X * X + Y * Y) * (x * x + y * y) := by
      nlinarith [mul_self_nonneg (X * y - Y * x)]
    have h3 : (X * X + Y * Y) * (x * x + y * y) ≤ (E * F : Int) * (e * f) := by
      rw [h1]
      exact mul_le_mul_of_nonneg_right h (by positivity)
    nlinarith [mul_self_nonneg ((E : Int) * f - e * F)]
  have hp : (0 : Int) ≤ (E : Int) * f + e * F := by positivity
  have := abs_le_of_sq_le_sq' (by simpa [sq] using hs) hp
  nlinarith [this.2]

/-- `R2 <= det_ex * es` (R156): the squared correlation is at most the product of the energies. -/
theorem corr_energy (w r : Nat → Cx) (n : Nat) :
    mag2 (csum (fun i => cmulConj (w i) (r i)) n) ≤ nsum (fun i => mag2 (w i)) n * nsum (fun i => mag2 (r i)) n := by
  have key : ∀ n, (csum (fun i => cmulConj (w i) (r i)) n).re * (csum (fun i => cmulConj (w i) (r i)) n).re +
      (csum (fun i => cmulConj (w i) (r i)) n).im * (csum (fun i => cmulConj (w i) (r i)) n).im ≤
      ((nsum (fun i => mag2 (w i)) n : Nat) : Int) * (nsum (fun i => mag2 (r i)) n : Nat) := by
    intro n
    induction n with
    | zero => simp [csum, nsum]
    | succ n ih =>
      simp only [csum, nsum, cadd_re, cadd_im]
      refine cauchy_step ih ?_
      rw [mag2_cast, mag2_cast]
      simp only [cmulConj]
      ring
  have := key n
  rw [← mag2_cast] at this
  exact_mod_cast this

/-- `0 <= rho2 <= 2^32` (R156). -/
theorem rho2Of_le {r2 ex es : Nat} (h : r2 ≤ ex * es) : rho2Of r2 ex es ≤ 2 ^ 32 := by
  unfold rho2Of
  split
  · exact Nat.zero_le _
  · exact Nat.div_le_of_le_mul (Nat.mul_le_mul_right _ h)

/-- `0 <= rho <= 2^24` (R157). -/
theorem rhoOf_le {rho2 : Nat} (h : rho2 ≤ 2 ^ 32) : rhoOf rho2 ≤ 2 ^ 24 := by
  have : rho2 * 2 ^ 16 ≤ 2 ^ 32 * 2 ^ 16 := Nat.mul_le_mul_right _ h
  have : isqrt (rho2 * 2 ^ 16) < 2 ^ 24 + 1 := isqrt_le_of_lt (by omega)
  unfold rhoOf
  omega

theorem csum_split (f : Nat → Cx) (a b : Nat) :
    cadd (csum f a) (csum (fun i => f (a + i)) b) = csum f (a + b) := by
  induction b with
  | zero => simp [csum, cadd]
  | succ b ih =>
    rw [show a + (b + 1) = a + b + 1 from rfl]
    simp only [csum]
    rw [← ih]
    simp [cadd, add_assoc]

/-- The two halves add up to the whole correlation (R154). -/
theorem corr_halves (P : Params) (s : State) (a b : Nat) :
    cadd (corr P s 0 a) (corr P s a b) = corr P s 0 (a + b) := by
  unfold corr
  simp only [Nat.zero_add]
  exact csum_split (fun i => cmulConj (winOrd s i) (refAt P s i).cx) a b

/-! ### What a step measures (R154 to R162) -/

theorem corr_re (P : Params) (u : State) {a b : Nat} : (corr P u a (b - a)).re = corrRe P u a b := by
  rw [corr, csum_re, corrRe, Finset.sum_Ico_eq_sum_range]; rfl

theorem corr_im (P : Params) (u : State) {a b : Nat} : (corr P u a (b - a)).im = corrIm P u a b := by
  rw [corr, csum_im, corrIm, Finset.sum_Ico_eq_sum_range]; rfl

/-- `argn` is `ARGN` (R17). -/
theorem argn_spec (P : Params) (re im : Int) : ScaledArg P re im (argn P.arg re im) := by
  have hm : max (re.natAbs : Int) (im.natAbs : Int) = max |re| |im| := by simp
  refine ⟨?_, fun b h0 h1 => ?_⟩
  · rintro rfl rfl; rfl
  · have hb := bitlen_of_range h0 h1
    have hp : (0 : Int) < 2 ^ b := by positivity
    unfold argn
    simp only [hm, hb]
    rw [if_neg (by omega)]
    by_cases h : 30 ≤ b
    · rw [if_pos (by omega), if_pos h, show b + 1 - 30 = b - 29 by omega]; rfl
    · rw [if_neg (by omega), if_neg h, show 30 - (b + 1) = 29 - b by omega]

/-- The measurements are the integers of the rules (R154 to R162). -/
theorem measure_spec (P : Params) (u : State) : Measured P u (measure P u) := by
  let rA := corr P u 0 (u.der.n.toNat / 2)
  let rB := corr P u (u.der.n.toNat / 2) (u.der.n.toNat - u.der.n.toNat / 2)
  have har : corrRe P u 0 (u.der.n.toNat / 2) = rA.re := (corr_re P u).symm
  have hai : corrIm P u 0 (u.der.n.toNat / 2) = rA.im := (corr_im P u).symm
  have hbr : corrRe P u (u.der.n.toNat / 2) u.der.n.toNat = rB.re := (corr_re P u).symm
  have hbi : corrIm P u (u.der.n.toNat / 2) u.der.n.toNat = rB.im := (corr_im P u).symm
  have hr2 : (rA.re + rB.re) ^ 2 + (rA.im + rB.im) ^ 2 = ((mag2 (cadd rA rB) : Nat) : Int) := by
    rw [mag2_cast, sq, sq]; rfl
  have hrho := isqrt_spec ((measure P u).rho2 * 2 ^ 16)
  have hg := isqrt_spec (mag2 (cadd rA rB) * 2 ^ 48 / (u.der.es.toNat * u.der.es.toNat))
  unfold Measured
  simp only [har, hai, hbr, hbi, hr2]
  refine ⟨?_, by rw [sq]; exact hrho.1, by rw [sq]; exact hrho.2, ⟨_, argn_spec P _ _, rfl⟩,
    _, ?_, ?_, rfl⟩
  · show ((rho2Of (mag2 (cadd rA rB)) u.det.ex.toNat u.der.es.toNat : Nat) : Int) = _
    unfold rho2Of
    norm_cast
  · rw [sq]; exact_mod_cast hg.1
  · rw [sq]; exact_mod_cast hg.2

/-- What a step measures depends on the window, its pointer and energy, the derived constants and REF only. -/
theorem measured_congr {P : Params} {u t : State} {m : Metric} (h : Measured P u m) (hw : t.win = u.win)
    (hp : t.det.wptr = u.det.wptr) (he : t.det.ex = u.det.ex) (hd : t.der = u.der) (hr : t.ref = u.ref)
    (hh : t.hresets = u.hresets) : Measured P t m := by
  simp only [Measured, corrRe, corrIm, winAt, refAt, hw, hp, he, hd, hr, hh] at *
  exact h

/-- The window in time order is a rotation of WIN: it has the same energy (R153). -/
theorem nsum_rotate (f : Nat → Nat) {n k : Nat} (hn : 0 < n) :
    nsum (fun i => f ((k + i) % n)) n = nsum f n := by
  have hf : ∀ g : Nat → Nat, ∀ m, nsum g m = ∑ i ∈ Finset.range m, g i := fun g m => by
    induction m with
    | zero => rfl
    | succ m ih => rw [Finset.sum_range_succ, ← ih]; rfl
  rw [hf, hf]
  refine Finset.sum_nbij (fun i => (k + i) % n) ?_ ?_ ?_ (fun _ _ => rfl)
  · intro i _; exact Finset.mem_range.2 (Nat.mod_lt _ hn)
  · intro i hi j hj h
    have hi := Finset.mem_range.1 (Finset.mem_coe.1 hi)
    have hj := Finset.mem_range.1 (Finset.mem_coe.1 hj)
    have h : (k + i) ≡ (k + j) [MOD n] := h
    exact Nat.ModEq.eq_of_lt_of_lt (Nat.ModEq.add_left_cancel' k h) hi hj
  · intro j hj
    have hj := Finset.mem_range.1 (Finset.mem_coe.1 hj)
    refine ⟨(j + (n - k % n)) % n, Finset.mem_coe.2 (Finset.mem_range.2 (Nat.mod_lt _ hn)), ?_⟩
    have hk := Nat.mod_lt k hn
    simp only
    rw [Nat.add_mod, Nat.mod_mod, ← Nat.add_mod]
    have : k + (j + (n - k % n)) = j + n * (k / n + 1) := by
      have := Nat.mod_add_div k n
      rw [Nat.mul_add]; omega
    rw [this, Nat.add_mul_mod_self_left, Nat.mod_eq_of_lt hj]

end Sys2Proof.Machine
end

