-- ==== Sys2Proof/Laws/Exec.lean ====
section
/-! SUPPORT. Every command in one form: status, address, configuration, then its action and its OK response
(R98, R120, R330). -/

namespace Sys2Proof.Machine

/-- The state and the data of the OK response of a command whose checks pass. -/
def action (P : Params) (i : Instr) (s : State) : State × BitVec 32 :=
  match i with
  | .nop => (s, 0)
  | .init => (construct P s, 0)
  | .srst => (runInit s, 0)
  | .dstr => (destroy s, 0)
  | .wrcfg addr data => (putCfg addr data s, 0)
  | .wrref addr re im => ({ s with ref := memInsert s.ref addr.toNat (smpOf re im) }, 0)
  | .wrmf bank tap coef => ({ s with mf := memInsert s.mf (coefKey bank.toNat tap.toNat) coef }, 0)
  | .wrdmf bank tap coef => ({ s with dmf := memInsert s.dmf (coefKey bank.toNat tap.toNat) coef }, 0)
  | .rdreg addr => (s, (readReg s addr).getD 0)
  | .rdref addr => (s, smpBits (refAt P s addr.toNat))
  | .rdmf bank tap => (s, (mfAt P s bank.toNat tap.toNat).setWidth 32)
  | .rddmf bank tap => (s, (dmfAt P s bank.toNat tap.toNat).setWidth 32)
  | .rdhdr addr => (s, (hdecAt s addr.toNat).setWidth 32)
  | .rdpay addr => (s, (pdecAt s addr.toNat).setWidth 32)
  | .push re im =>
    let r := pushSample P (smpOf re im) s
    (r.1, pushData r.2 r.1.fsm)

/-- The four answers of a command (R330). -/
def answered (P : Params) (i : Instr) (s : State) : State :=
  match answerCode P i s with
  | .errState => raise .errState s
  | .errAddr => raise .errAddr s
  | .errCfg =>
    respond .errCfg ((configCheck P s).setWidth 32) { s with status := .dead, cfgCause := configCheck P s }
  | .ok => respond .ok (action P i s).2 (action P i s).1
  | .errOpcode => s

theorem answered_eq (P : Params) (i : Instr) (s : State) :
    answered P i s =
      if statusAccepts i s.status then
        if addressAccepts P s i then
          if i = .init ∧ configCheck P s ≠ 0 then
            respond .errCfg ((configCheck P s).setWidth 32) { s with status := .dead, cfgCause := configCheck P s }
          else respond .ok (action P i s).2 (action P i s).1
        else raise .errAddr s
      else raise .errState s := by
  unfold answered answerCode
  cases statusAccepts i s.status
  · rfl
  · cases addressAccepts P s i
    · rfl
    · by_cases h : i = .init ∧ configCheck P s ≠ 0
      · rw [if_pos rfl, if_pos rfl, if_pos h, if_pos rfl, if_pos rfl, if_pos h]
      · rw [if_pos rfl, if_pos rfl, if_neg h, if_pos rfl, if_pos rfl, if_neg h]

/-- Every command answers a next state: the one its first failing check, or its action, gives (R120, R320, R330). -/
theorem exec_eq (i : Instr) (s : State) : exec i s = .next (answered build i s) := by
  rw [answered_eq]
  cases i with
  | nop => rfl
  | init =>
    simp only [exec, execInit, initWith, notRunning, statusAccepts, addressAccepts, action]
    by_cases h : configCheck build s = 0 <;> simp [h]
  | srst => simp [exec, execSrst, running, statusAccepts, addressAccepts, action]
  | dstr => simp [exec, execDstr, constructed, statusAccepts, addressAccepts, action]
  | wrcfg addr data =>
    simp [exec, execWrcfg, writeFrame_eq, statusAccepts, addressAccepts, action, cfgRegAt_isSome]
  | wrref addr re im => simp [exec, execWrref, wrrefWith, writeFrame_eq, statusAccepts, addressAccepts, action, refOk]
  | wrmf bank tap coef => simp [exec, execWrmf, wrmfWith, writeFrame_eq, statusAccepts, addressAccepts, action, coefOk]
  | wrdmf bank tap coef =>
    simp [exec, execWrdmf, wrdmfWith, writeFrame_eq, statusAccepts, addressAccepts, action, coefOk]
  | rdreg addr => simp [exec, execRdreg, readFrame_eq, statusAccepts, addressAccepts, action, readReg_isSome]
  | rdref addr =>
    simp only [exec, execRdref, rdrefWith, readFrame_eq, statusAccepts, addressAccepts, action, guarded_isSome]
    by_cases h : refOk build addr <;> simp_all [guarded, refOk]
  | rdmf bank tap =>
    simp only [exec, execRdmf, rdmfWith, readFrame_eq, statusAccepts, addressAccepts, action, guarded_isSome]
    by_cases h : coefOk build bank tap <;> simp_all [guarded, coefOk]
  | rddmf bank tap =>
    simp only [exec, execRddmf, rddmfWith, readFrame_eq, statusAccepts, addressAccepts, action, guarded_isSome]
    by_cases h : coefOk build bank tap <;> simp_all [guarded, coefOk]
  | rdhdr addr =>
    simp only [exec, execRdhdr, readInRun_eq, readFrame_eq, statusAccepts, addressAccepts, action, guarded_isSome]
    have e : hdrIdxOk s.cfg addr = decide (addr.toNat < cfgUserBytes s.cfg + 6) := rfl
    by_cases h : addr.toNat < cfgUserBytes s.cfg + 6 <;> simp [guarded, e, h]
  | rdpay addr =>
    simp only [exec, execRdpay, readInRun_eq, readFrame_eq, statusAccepts, addressAccepts, action, guarded_isSome]
    by_cases h : payIdxOk s addr <;> simp_all [guarded, payIdxOk]
  | push re im => simp [exec, execPush, pushWith, running, statusAccepts, addressAccepts, action]

/-- The next state of a command. -/
theorem exec_next {i : Instr} {s t : State} (h : exec i s = .next t) : t = answered build i s := by
  rw [exec_eq] at h; cases h; rfl

/-- PUSH in RUN (R245). -/
theorem exec_push (re im : BitVec 16) {s : State} (h : s.status = .run) :
    exec (.push re im) s = .next (respond .ok
      (pushData (pushSample build ⟨re, im⟩ s).2 (pushSample build ⟨re, im⟩ s).1.fsm)
      (pushSample build ⟨re, im⟩ s).1) := by
  simp [exec, execPush, pushWith, running, h, smpOf]

/-- One step of a run. -/
theorem run_succ (M : Host.Core) {n : Nat} {s t : M.State} (h : M.step s = .next t) : M.run (n + 1) s = M.run n t := by
  simp only [Host.Core.run, h]

/-- One step of a run of the machine. -/
theorem run_next {n : Nat} {s t : State} (h : step s = .next t) :
    Host.Core.run core (n + 1) s = Host.Core.run core n t := run_succ core h

end Sys2Proof.Machine
end

