-- ==== Sys2Proof/Laws/PerInstr.lean ====
section
/-! SUPPORT. What is stated of every command as syntax, one lemma per constructor. -/

namespace Sys2Proof.Laws

/-- The row of the opcode map a command belongs to is in the map, and its mask and match accept the command's word
(R101). -/
def EncodesInRow.Statement (i : Instr) : Prop := i.row ∈ opTable ∧ i.row.accepts (encode i) = true

theorem EncodesInRow.nop : EncodesInRow.Statement .nop := by
  unfold EncodesInRow.Statement
  decide

theorem EncodesInRow.init : EncodesInRow.Statement .init := by
  unfold EncodesInRow.Statement
  decide

theorem EncodesInRow.srst : EncodesInRow.Statement .srst := by
  unfold EncodesInRow.Statement
  decide

theorem EncodesInRow.dstr : EncodesInRow.Statement .dstr := by
  unfold EncodesInRow.Statement
  decide

theorem EncodesInRow.wrcfg (addr : BitVec 16) (data : BitVec 32) : EncodesInRow.Statement (.wrcfg addr data) := by
  refine ⟨by simp [opTable, Instr.row], ?_⟩
  rw [accepts_cut (a := 0x10) (b := 0xFF) (c := 0) (d := 0) (e := 0) _ rfl rfl]
  exact row_fieldsW _ _ _

theorem EncodesInRow.wrref (addr : BitVec 16) (re : BitVec 16) (im : BitVec 16) : EncodesInRow.Statement (.wrref addr re im) := by
  refine ⟨by simp [opTable, Instr.row], ?_⟩
  rw [accepts_cut (a := 0x11) (b := 0xFF) (c := 0) (d := 0) (e := 0) _ rfl rfl]
  exact row_fieldsW _ _ _

theorem EncodesInRow.wrmf (bank : BitVec 8) (tap : BitVec 8) (coef : BitVec 16) : EncodesInRow.Statement (.wrmf bank tap coef) := by
  refine ⟨by simp [opTable, Instr.row], ?_⟩
  rw [accepts_cut (a := 0x12) (b := 0xFF) (c := 0) (d := 0xFFFF) (e := 0) _ rfl rfl]
  exact row_fieldsC _ _ _ _

theorem EncodesInRow.wrdmf (bank : BitVec 8) (tap : BitVec 8) (coef : BitVec 16) : EncodesInRow.Statement (.wrdmf bank tap coef) := by
  refine ⟨by simp [opTable, Instr.row], ?_⟩
  rw [accepts_cut (a := 0x13) (b := 0xFF) (c := 0) (d := 0xFFFF) (e := 0) _ rfl rfl]
  exact row_fieldsC _ _ _ _

theorem EncodesInRow.rdreg (addr : BitVec 16) : EncodesInRow.Statement (.rdreg addr) := by
  refine ⟨by simp [opTable, Instr.row], ?_⟩
  rw [accepts_cut (a := 0x18) (b := 0xFF) (c := 0) (d := 0xFFFF) (e := 0xFFFF) _ rfl rfl]
  exact row_fieldsA _ _

theorem EncodesInRow.rdref (addr : BitVec 16) : EncodesInRow.Statement (.rdref addr) := by
  refine ⟨by simp [opTable, Instr.row], ?_⟩
  rw [accepts_cut (a := 0x19) (b := 0xFF) (c := 0) (d := 0xFFFF) (e := 0xFFFF) _ rfl rfl]
  exact row_fieldsA _ _

theorem EncodesInRow.rdmf (bank : BitVec 8) (tap : BitVec 8) : EncodesInRow.Statement (.rdmf bank tap) := by
  refine ⟨by simp [opTable, Instr.row], ?_⟩
  rw [accepts_cut (a := 0x1A) (b := 0xFF) (c := 0) (d := 0xFFFF) (e := 0xFFFF) _ rfl rfl]
  exact row_fieldsA _ _

theorem EncodesInRow.rddmf (bank : BitVec 8) (tap : BitVec 8) : EncodesInRow.Statement (.rddmf bank tap) := by
  refine ⟨by simp [opTable, Instr.row], ?_⟩
  rw [accepts_cut (a := 0x1B) (b := 0xFF) (c := 0) (d := 0xFFFF) (e := 0xFFFF) _ rfl rfl]
  exact row_fieldsA _ _

theorem EncodesInRow.rdhdr (addr : BitVec 16) : EncodesInRow.Statement (.rdhdr addr) := by
  refine ⟨by simp [opTable, Instr.row], ?_⟩
  rw [accepts_cut (a := 0x1C) (b := 0xFF) (c := 0) (d := 0xFFFF) (e := 0xFFFF) _ rfl rfl]
  exact row_fieldsA _ _

theorem EncodesInRow.rdpay (addr : BitVec 16) : EncodesInRow.Statement (.rdpay addr) := by
  refine ⟨by simp [opTable, Instr.row], ?_⟩
  rw [accepts_cut (a := 0x1D) (b := 0xFF) (c := 0) (d := 0xFFFF) (e := 0xFFFF) _ rfl rfl]
  exact row_fieldsA _ _

theorem EncodesInRow.push (re : BitVec 16) (im : BitVec 16) : EncodesInRow.Statement (.push re im) := by
  refine ⟨by simp [opTable, Instr.row], ?_⟩
  rw [accepts_cut (a := 0x20) (b := 0xFF) (c := 0xFFFF) (d := 0) (e := 0) _ rfl rfl]
  exact row_fieldsS _ _ _

end Sys2Proof.Laws
end

