-- ==== Sys2Proof/Laws/Timing.lean ====
section
/-! SUPPORT. The timing unit: the closed form of `wrap_idx` (R224), the delay line push, and what the seeding and
the strobe leave. -/

namespace Sys2Proof.Machine

/-- `k` wraps below 0 in one go. -/
def Wrap.shift (n : Nat) (k : Int) (w : Wrap) : Wrap := ⟨w.idx + k * n, w.soft + k * n * 2 ^ 24, w.timer - k⟩

theorem wrapUp_spec (n fuel : Nat) (hn : 1 ≤ n) (w : Wrap) :
    ∃ k : Int, wrapUp n fuel w = w.shift n k ∧ (-w.idx ≤ fuel → 0 ≤ (w.shift n k).idx) ∧
      (0 ≤ w.idx → k = 0) ∧ (w.idx < 0 → (w.shift n k).idx ≤ n - 1) := by
  induction fuel generalizing w with
  | zero => exact ⟨0, by simp [wrapUp, Wrap.shift], by simp [Wrap.shift], fun _ => rfl, by simp [Wrap.shift]; omega⟩
  | succ fuel ih =>
    unfold wrapUp
    split
    · rename_i h
      obtain ⟨k, he, h0, hk, h1⟩ := ih ⟨w.idx + n, w.soft + n * 2 ^ 24, w.timer - 1⟩
      have e : (⟨w.idx + n, w.soft + n * 2 ^ 24, w.timer - 1⟩ : Wrap).shift n k = w.shift n (k + 1) := by
        simp only [Wrap.shift, Wrap.mk.injEq]
        refine ⟨by ring, by ring, by ring⟩
      refine ⟨k + 1, by rw [he, e], fun hf => ?_, fun hw => by omega, fun _ => ?_⟩
      · rw [← e]; exact h0 (by simp only; omega)
      · rw [← e]
        by_cases hw : w.idx + n < 0
        · exact h1 hw
        · have := hk (by simp only; omega)
          subst this
          simp only [Wrap.shift]; omega
    · rename_i h
      exact ⟨0, by simp [Wrap.shift], by simp [Wrap.shift]; omega, fun _ => rfl, by omega⟩

theorem wrapDown_spec (n fuel : Nat) (hn : 1 ≤ n) (w : Wrap) (hw : 0 ≤ w.idx) :
    ∃ k : Int, wrapDown n fuel w = w.shift n (-k) ∧ (w.idx ≤ fuel + (n - 1) → (w.shift n (-k)).idx ≤ n - 1) ∧
      0 ≤ (w.shift n (-k)).idx := by
  induction fuel generalizing w with
  | zero => exact ⟨0, by simp [wrapDown, Wrap.shift], by simp [Wrap.shift], by simpa [Wrap.shift] using hw⟩
  | succ fuel ih =>
    unfold wrapDown
    split
    · rename_i h
      obtain ⟨k, he, h0, h1⟩ := ih ⟨w.idx - n, w.soft - n * 2 ^ 24, w.timer + 1⟩ (by simp only; omega)
      have e : (⟨w.idx - n, w.soft - n * 2 ^ 24, w.timer + 1⟩ : Wrap).shift n (-k) = w.shift n (-(k + 1)) := by
        simp only [Wrap.shift, Wrap.mk.injEq]
        refine ⟨by ring, by ring, by ring⟩
      refine ⟨k + 1, by rw [he, e], fun hf => ?_, by rw [← e]; exact h1⟩
      rw [← e]; exact h0 (by simp only; omega)
    · rename_i h
      exact ⟨0, by simp [Wrap.shift], by simp [Wrap.shift]; omega, by simpa [Wrap.shift] using hw⟩

/-- The closed form of `wrap_idx` (R224): one wrap per multiple of `NPFB`. -/
theorem wrapIdx_eq (n : Nat) (hn : 1 ≤ n) (soft timer : Int) :
    wrapIdx n soft timer =
      ⟨hardIdx soft % n, soft - hardIdx soft / n * n * 2 ^ 24, timer + hardIdx soft / n⟩ := by
  unfold wrapIdx
  obtain ⟨k, he, h0, hk, h1⟩ := wrapUp_spec n (hardIdx soft).natAbs hn ⟨hardIdx soft, soft, timer⟩
  have p0 := h0 (by simp only; omega)
  obtain ⟨j, hd, q1, q0⟩ := wrapDown_spec n (hardIdx soft).natAbs hn _ p0
  simp only
  rw [he, hd]
  have hi : ((⟨hardIdx soft, soft, timer⟩ : Wrap).shift n k).idx ≤ ((hardIdx soft).natAbs : Int) + (n - 1) := by
    by_cases hs : hardIdx soft < 0
    · have := h1 hs; omega
    · have := hk (by simp only; omega)
      subst this
      simp only [Wrap.shift]; omega
  have q1 := q1 hi
  have hn0 : (n : Int) ≠ 0 := by omega
  simp only [Wrap.shift] at q0 q1 ⊢
  have hx : hardIdx soft + k * n + -j * n = hardIdx soft + (k - j) * n := by ring
  rw [hx] at q0 q1
  have hm : (hardIdx soft + (k - j) * n) % n = hardIdx soft % n := Int.add_mul_emod_self_right _ _ _
  have hv : (hardIdx soft + (k - j) * n) / n = hardIdx soft / n + (k - j) := Int.add_mul_ediv_right _ _ hn0
  rw [Int.emod_eq_of_lt q0 (by omega)] at hm
  rw [Int.ediv_eq_zero_of_lt q0 (by omega)] at hv
  have hkj : k - j = -(hardIdx soft / n) := by omega
  rw [Wrap.mk.injEq, hx]
  refine ⟨hm, ?_, by omega⟩
  have : soft + k * n * 2 ^ 24 + -j * n * 2 ^ 24 = soft + (k - j) * n * 2 ^ 24 := by ring
  rw [this, hkj]; ring

/-- After `wrap_idx` the hard index lies in `[0, NPFB)` and is the rounding of the soft index (R224). -/
theorem wrapIdx_idx {n : Nat} (hn : 1 ≤ n) (soft timer : Int) :
    0 ≤ (wrapIdx n soft timer).idx ∧ (wrapIdx n soft timer).idx < n ∧
      hardIdx (wrapIdx n soft timer).soft = (wrapIdx n soft timer).idx := by
  rw [wrapIdx_eq n hn]
  refine ⟨Int.emod_nonneg _ (by omega), Int.emod_lt_of_pos _ (by omega), ?_⟩
  simp only [hardIdx, asr]
  rw [show soft - (soft + 2 ^ 23) / 2 ^ 24 / n * n * 2 ^ 24 + 2 ^ 23 =
    soft + 2 ^ 23 + (-((soft + 2 ^ 23) / 2 ^ 24 / n * n)) * 2 ^ 24 by ring, Int.add_mul_ediv_right _ _ (by norm_num),
    Int.emod_def]
  ring

/-- After `wrap_idx` the soft index lies in `[-2^23, NPFB * 2^24 - 2^23)` (R224). -/
theorem wrapIdx_soft {n : Nat} (hn : 1 ≤ n) (soft timer : Int) :
    -2 ^ 23 ≤ (wrapIdx n soft timer).soft ∧ (wrapIdx n soft timer).soft < n * 2 ^ 24 - 2 ^ 23 := by
  obtain ⟨h0, h1, h2⟩ := wrapIdx_idx hn soft timer
  simp only [hardIdx, asr] at h2
  omega

/-- The registers a wrap leaves: the index in range, and the soft index that rounds to it. -/
theorem timingOf_spec {n : Nat} (hn : 1 ≤ n) (hn' : n ≤ 128) (q soft timer : Int) :
    (timingOf q (wrapIdx n soft timer)).idx.toNat < n ∧
      hardIdx (timingOf q (wrapIdx n soft timer)).soft.toInt = (timingOf q (wrapIdx n soft timer)).idx.toNat := by
  obtain ⟨h0, h1, h2⟩ := wrapIdx_idx hn soft timer
  obtain ⟨s0, s1⟩ := wrapIdx_soft hn soft timer
  have e : (((timingOf q (wrapIdx n soft timer)).idx.toNat : Nat) : Int) = (wrapIdx n soft timer).idx :=
    toNat_ofInt_of_range h0 (by omega)
  have f : (timingOf q (wrapIdx n soft timer)).soft.toInt = (wrapIdx n soft timer).soft :=
    toInt_ofInt_of_range (by norm_num; omega) (by norm_num; omega) (by norm_num)
  rw [f]
  omega

/-- The registers a wrap leaves, as integers, when the timer fits. -/
theorem timingOf_toInt {n : Nat} (hn : 1 ≤ n) (hn' : n ≤ 128) (q soft timer : Int)
    (h1 : -2 ^ 31 ≤ timer + hardIdx soft / n) (h2 : timer + hardIdx soft / n < 2 ^ 31) :
    ((timingOf q (wrapIdx n soft timer)).idx.toNat : Int) = hardIdx soft % n ∧
    (timingOf q (wrapIdx n soft timer)).soft.toInt = soft - hardIdx soft / n * n * 2 ^ 24 ∧
    (timingOf q (wrapIdx n soft timer)).timer.toInt = timer + hardIdx soft / n := by
  have h0 := wrapIdx_idx hn soft timer
  have hs := wrapIdx_soft hn soft timer
  rw [wrapIdx_eq n hn] at h0 hs ⊢
  obtain ⟨a0, a1, -⟩ := h0
  have a1 : hardIdx soft % n < n := a1
  have s1 : -2 ^ 23 ≤ soft - hardIdx soft / n * n * 2 ^ 24 := hs.1
  have s2 : soft - hardIdx soft / n * n * 2 ^ 24 < n * 2 ^ 24 - 2 ^ 23 := hs.2
  exact ⟨toNat_ofInt_of_range a0 (lt_of_lt_of_le a1 (by norm_num; omega)),
    toInt_ofInt_of_range (by norm_num; omega) (by norm_num; omega) (by norm_num),
    toInt_ofInt_of_range (by norm_num; omega) (by norm_num; omega) (by norm_num)⟩

/-! ### Lanes (R12, R218) -/

theorem toLane_rounded (v : Int) (n : Nat) : (toLane v n).toInt = roundedLane v n := by
  rw [toLane_toInt]
  unfold sat rnd roundedLane
  omega

/-- Both lanes of a filter output are inner products with the delay line (R218). -/
theorem firSum_lanes (c : Nat → Coef) (d : Nat → Dat) (n : Nat) :
    FirLane c (fun j => (d j).re) n (firSum c d n).re ∧ FirLane c (fun j => (d j).im) n (firSum c d n).im := by
  constructor
  · exact (toLane_rounded ..).trans (by rw [csum_re]; rfl)
  · exact (toLane_rounded ..).trans (by rw [csum_im]; rfl)

/-! ### The delay line -/

theorem dlAt_dlPush (z : Dat) (s : State) (j : Nat) :
    dlAt (dlPush z s) j =
      if j < max s.der.taps.toNat 1 then (if j = 0 then z else dlAt s (j - 1)) else dlAt s j := by
  unfold dlAt dlPush
  simp only
  rw [memRead_setRange]
  simp [dlAt]

theorem memWf_dlPush {z : Dat} {s : State} (h : MemWf Dat.zero s.dl) : MemWf Dat.zero (dlPush z s).dl :=
  memWf_setRange h

theorem memBelow_dlPush {b : Nat} {z : Dat} {s : State} (h : MemBelow b s.dl) (h1 : 1 ≤ b)
    (ht : s.der.taps.toNat ≤ b) : MemBelow b (dlPush z s).dl :=
  memBelow_setRange h (by omega)

end Sys2Proof.Machine
end

