-- ==== Sys2Proof/Machine/Written.lean ====
section
/-! DEFINITION. The written form of commands, pseudo-instructions and responses (R110, R111) and the register names
usable in place of addresses (R112). Addresses, indices and data are written in hexadecimal, samples and
coefficients in signed decimal: R110 allows either (DESIGN CHOICE, log entry 24). -/

namespace Sys2Proof.Machine

/-- One hexadecimal digit. -/
def hexDigit (n : Nat) : Char := "0123456789ABCDEF".toList.getD n '0'

/-- The last `k` hexadecimal digits of `n`, highest first. -/
def hexDigits : Nat → Nat → List Char
  | 0, _ => []
  | k + 1, n => hexDigits k (n / 16) ++ [hexDigit (n % 16)]

/-- `0x` and `k` digits. -/
def hexText (k n : Nat) : List Char := '0' :: 'x' :: hexDigits k n

/-- Decimal digits of `n` in front of `tail`, at most `fuel` of them. -/
def decDigits : Nat → Nat → List Char → List Char
  | 0, _, tail => tail
  | fuel + 1, n, tail =>
    if n < 10 then hexDigit n :: tail else decDigits fuel (n / 10) (hexDigit (n % 10) :: tail)

/-- A signed decimal number of a 16-bit field. -/
def decText (v : BitVec 16) : List Char :=
  if v.toInt < 0 then '-' :: decDigits 5 v.toInt.natAbs [] else decDigits 5 v.toInt.natAbs []

/-- The operands of a command separated by commas. -/
def operandText : List (List Char) → List Char
  | [] => []
  | [x] => x
  | x :: xs => x ++ [',', ' '] ++ operandText xs

/-- `(re, im)` (R110). -/
def smpText (re im : BitVec 16) : List Char := '(' :: operandText [decText re, decText im] ++ [')']

/-- A mnemonic with its operands (R110). -/
def lineText (name : String) (ops : List (List Char)) : List Char :=
  match ops with
  | [] => name.toList
  | _ :: _ => name.toList ++ ' ' :: operandText ops

/-- The written form of a command (R110). -/
def written : Instr → List Char
  | .nop => lineText "NOP" []
  | .init => lineText "INIT" []
  | .srst => lineText "SRST" []
  | .dstr => lineText "DSTR" []
  | .wrcfg addr data => lineText "WRCFG" [hexText 4 addr.toNat, hexText 8 data.toNat]
  | .wrref addr re im => lineText "WRREF" [hexText 4 addr.toNat, smpText re im]
  | .wrmf bank tap coef => lineText "WRMF" [hexText 2 bank.toNat, hexText 2 tap.toNat, decText coef]
  | .wrdmf bank tap coef => lineText "WRDMF" [hexText 2 bank.toNat, hexText 2 tap.toNat, decText coef]
  | .rdreg addr => lineText "RDREG" [hexText 4 addr.toNat]
  | .rdref addr => lineText "RDREF" [hexText 4 addr.toNat]
  | .rdmf bank tap => lineText "RDMF" [hexText 2 bank.toNat, hexText 2 tap.toNat]
  | .rddmf bank tap => lineText "RDDMF" [hexText 2 bank.toNat, hexText 2 tap.toNat]
  | .rdhdr addr => lineText "RDHDR" [hexText 4 addr.toNat]
  | .rdpay addr => lineText "RDPAY" [hexText 4 addr.toNat]
  | .push re im => lineText "PUSH" [smpText re im]

/-- A parenthesized list (R111). -/
def listText (items : List (List Char)) : List Char := '(' :: operandText items ++ [')']

/-- The written form of a pseudo-instruction (R111). -/
def pseudoWritten : Pseudo → List Char
  | .exec xs => lineText "EXEC" [listText (xs.map fun x => smpText x.re x.im)]
  | .reset => lineText "RESET" []
  | .create => lineText "CREATE" []
  | .destroy => lineText "DESTROY" []
  | .loadref vs => lineText "LOADREF" [listText (vs.map fun x => smpText x.re x.im)]
  | .loadmf b cs => lineText "LOADMF" [hexText 2 b.toNat, listText (cs.map decText)]
  | .loaddmf b cs => lineText "LOADDMF" [hexText 2 b.toNat, listText (cs.map decText)]

/-- The name of a response code (R99). -/
def codeName : Code → String
  | .ok => "OK"
  | .errOpcode => "ERR_OPCODE"
  | .errState => "ERR_STATE"
  | .errAddr => "ERR_ADDR"
  | .errCfg => "ERR_CFG"

/-- The written form `code:data` of a response (R110). -/
def responseText (c : Code) (data : BitVec 32) : List Char :=
  (codeName c).toList ++ ':' :: hexText 8 data.toNat

/-- The names of the configuration registers with their addresses (R30 to R49, R112). -/
def cfgNames : List (String × BitVec 16) :=
  [ ("K", 0x00), ("M", 0x01), ("BETA", 0x02), ("NPFB", 0x03), ("PLEN", 0x04), ("THRESH", 0x05), ("DPHI_MAX", 0x06),
    ("SQ_THRESH", 0x07), ("SQ_TIMEOUT", 0x08), ("DEBOUNCE", 0x09), ("HDR_DLY", 0x0A), ("HDR_NSYM", 0x0B),
    ("HDR_MOD", 0x0C), ("HDR_LEN", 0x0D), ("AGC_ALPHA", 0x10), ("PLL_ALPHA", 0x11), ("PLL_BETA", 0x12),
    ("STR_A", 0x13), ("STR_B", 0x14), ("NCO_FMAX", 0x15) ]

/-- The names of the read-only registers with their addresses (R53, R112). -/
def runNames : List (String × BitVec 16) :=
  [ ("STATUS", 0x40), ("AGC_LVL", 0x41), ("AGC_GAIN", 0x42), ("NCO_THETA", 0x43), ("NCO_NU", 0x44),
    ("STR_SOFT", 0x45), ("STR_Q", 0x46), ("STR_IDX", 0x47), ("STR_TIMER", 0x48), ("SYM_CNT", 0x49), ("SQ_CNT", 0x4A),
    ("TAU_HAT", 0x4B), ("DPHI_HAT", 0x4C), ("GAMMA_HAT", 0x4D), ("CAP_SYM", 0x4E), ("CAP_ENC", 0x4F),
    ("CAP_DEC", 0x50), ("FRAME_CNT", 0x51), ("N", 0x52), ("TAPS", 0x53), ("ES_LO", 0x54), ("ES_HI", 0x55),
    ("PREF", 0x56), ("P_LEN", 0x57), ("P_FIELDS", 0x58), ("P_ENC", 0x59), ("P_NSYM", 0x5A), ("EVM_ACC_LO", 0x5B),
    ("EVM_ACC_HI", 0x5C), ("EVM_CNT", 0x5D), ("DET_EX_LO", 0x5E), ("DET_EX_HI", 0x5F), ("DET_RHO_PREV", 0x60),
    ("DET_AGE", 0x61), ("CAND_M0", 0x62), ("CAND_M1", 0x63), ("CAND_M2", 0x64), ("CAND_RHO2_LO", 0x65),
    ("CAND_RHO2_HI", 0x66), ("CAND_DPHI", 0x67), ("CAND_GAMMA", 0x68) ]

/-- The address a register name stands for (R112). -/
def regByName (name : String) : Option (BitVec 16) :=
  ((cfgNames ++ runNames).find? fun c => c.1 == name).map Prod.snd

end Sys2Proof.Machine
end

