-- ==== Sys2Proof/Tests/Slice0.lean ====
section
/-! SUPPORT. Tests of the model against the worked values of spec/95_test_vectors.md (each names its vector), and for
every statement with hypotheses a witness: a concrete state and operands that meet them, clause by clause. -/

namespace Sys2Proof.Tests

set_option Elab.async false

open Sys2Proof Sys2Proof.Machine

/-! ### The fixtures of spec/95: the collaborator set `T` (section 2) and the configuration `F8` (section 3) -/

/-- The first `n` bytes of a list. -/
def firstBytes (l : List Byte) (n : Nat) : Bytes n := ⟨(l ++ List.replicate n 0).take n, by simp⟩

/-- The sum of the bytes of a list. -/
def byteSum (l : List Byte) : Nat := (l.map BitVec.toNat).sum

/-- The answer of `MODEM` of set `T` for the decision `sym` and the ideal point `(a, b)`. -/
def decided (y : Dat) (sym : Byte) (a b : Int) : Demod :=
  { sym := sym
    perr := argn argDefault (y.re.toInt * a + y.im.toInt * b) (y.im.toInt * a - y.re.toInt * b)
    err2 := BitVec.ofInt 32 (usat 32 (asr ((y.re.toInt - a) * (y.re.toInt - a) + (y.im.toInt - b) * (y.im.toInt - b)) 12)) }

/-- `MODEM` of set `T`. -/
def modemT (m : BitVec 5) (bps : BitVec 4) (y : Dat) : Demod :=
  if m = 0 ∧ bps = 1 then if y.re.toInt < 0 then decided y 1 (-262144) 0 else decided y 0 262144 0
  else if m = 1 ∧ bps = 2 then
    decided y ((if y.im.toInt < 0 then 2 else 0) + if y.re.toInt < 0 then 1 else 0)
      (if y.re.toInt < 0 then -185364 else 185364) (if y.im.toInt < 0 then -185364 else 185364)
  else ⟨0, 0, 0⟩

/-- `CRC_VALIDATE` of set `T`. -/
def checkT (b : List Byte) : List Byte → Bool
  | [] => true
  | [x] => x.toNat == byteSum b % 256
  | [x, y] => x.toNat == byteSum b / 256 % 256 && y.toNat == byteSum b % 256
  | _ => false

/-- The build with the collaborator set `T` and unwritten tables of zeros. -/
def buildT : Params :=
  { build with
    modSupported := fun m b => (m == 0 && b == 1) || (m == 1 && b == 2)
    codecSupported := fun c f g => (c == 0 || c == 1) && f == 0 && g == 0
    modem := modemT
    pktEncLen := fun l c _ _ => if c = 1 then l.setWidth 32 + 1 else l.setWidth 32
    pktDecode := fun e l c _ _ =>
      (firstBytes e l.toNat, c != 1 || (e.getD l.toNat 0).toNat == byteSum (e.take l.toNat) % 256)
    intlvDepermute := fun _ b => b
    hdrFecDecode := firstBytes
    scrApply := fun n b => firstBytes (b.toList.map (· ^^^ 0xA5)) n
    crcValidate := checkT
    mem0Ref := fun _ _ => ⟨0, 0⟩
    mem0Mf := fun _ _ _ => 0
    mem0Dmf := fun _ _ _ => 0 }

/-- The configuration of `F8`. -/
def cfgF8 : Cfg :=
  { cfgReset with
    m := 1
    npfb := 4
    plen := 4
    hdrDly := 2
    hdrNsym := 64
    hdrLen := 0x00080101 }

/-- The reference of `F8`: (1, 1, 1, -1, -1, 1, -1, -1) at half scale. -/
def refF8 : Mem Smp :=
  [ (0, ⟨16384, 0⟩), (1, ⟨16384, 0⟩), (2, ⟨16384, 0⟩), (3, ⟨-16384, 0⟩), (4, ⟨-16384, 0⟩), (5, ⟨16384, 0⟩),
    (6, ⟨-16384, 0⟩), (7, ⟨-16384, 0⟩) ]

/-- A coefficient table of four banks of five taps, every tap 0 but the middle one. -/
def coefsF8 (c : Coef) : Mem Coef :=
  (List.range 4).flatMap fun b => (List.range 5).map fun j => (coefKey b j, if j = 2 then c else 0)

/-- `F8` before its INIT. -/
def loadedF8 : State := { State.reset with cfg := cfgF8, ref := refF8, mf := coefsF8 16384, dmf := coefsF8 0 }

/-- `F8` after its INIT. -/
def runF8 : State := { loadedF8 with status := .run, der := ⟨8, 5, 2147483648, 4194304⟩ }

/-- `F8` in RXHEADER with the loops as `PRE` leaves them, the timer at `v` (V3.1). -/
def headF8 (v : BitVec 32) : State :=
  { runF8 with fsm := .rxheader, bw := .closedBw, agcLvl := 4194304, str := ⟨0, 0, 0, v⟩, frameCnt := 1 }

/-- Program P2 in its payload, `n` symbols received, the timer at `v`. -/
def payF8 (n : Nat) (v : BitVec 32) : State :=
  { headF8 v with
    fsm := .rxpayload
    symCnt := BitVec.ofNat 32 n
    evm := ⟨0, BitVec.ofNat 32 (64 + n)⟩
    cap := ⟨24, 3, 2⟩
    hdr := ⟨2, 0, 1, 1, 0, 0, 1, 3, 24⟩ }

/-- The bits of bytes as one-bit symbols, most significant first, as a memory of bytes. -/
def bitCells (l : List Nat) : Mem Byte :=
  (List.range (8 * l.length)).filterMap fun i =>
    if (l.getD (i / 8) 0).testBit (7 - i % 8) then some (i, 1) else none

/-- `F8` with all 64 symbols of a sent header in HSYM. -/
def sentF8 (l : List Nat) : State :=
  { headF8 1 with hsym := bitCells l, symCnt := 64, evm := ⟨0, 64⟩, agcLvl := 0x3FC000 }

/-- `F8` with the window one sample short of the reference (V3.1 after t = 10, the window in time order). -/
def almostF8 : State :=
  { runF8 with agcLvl := 835829, win := refF8.take 7, det := { detReset with wptr := 7, ex := 1879048192, rhoPrev := 2241949 } }

/-- The state after a step; the reset state where there is none. -/
def done (o : Host.Outcome State Fault Refusal) : State :=
  match o with
  | .next t => t
  | .fault _ => State.reset
  | .refused _ => State.reset

/-- The response of a command word in a state. -/
def answer (w : Word) (s : State) : Option Word := (done (step { s with inputs := [.command w] })).resp

/-! ### WellFormed: one ill-formed term for each check -/

theorem test_loadref_too_long : (Pseudo.loadref (List.replicate 65537 Smp.zero)).wellFormed = false := by
  rw [Pseudo.wellFormed, List.length_replicate]
  decide

theorem test_loadmf_too_long : (Pseudo.loadmf 0 (List.replicate 257 0)).wellFormed = false := by
  rw [Pseudo.wellFormed, List.length_replicate]
  decide

theorem test_loaddmf_too_long : (Pseudo.loaddmf 0 (List.replicate 257 0)).wellFormed = false := by
  rw [Pseudo.wellFormed, List.length_replicate]
  decide

/-! ### Decode: the words of V1.1 and V1.2, and R110's written forms -/

theorem test_decode_control : decode 0x0000000000000000 = .ok .nop ∧ decode 0x0100000000000000 = .ok .init ∧
    decode 0x0200000000000000 = .ok .srst ∧ decode 0x0300000000000000 = .ok .dstr := by decide

theorem test_decode_writes : decode 0x1000000000000004 = .ok (.wrcfg 0 4) ∧
    decode 0x11000003C0000000 = .ok (.wrref 3 (-16384) 0) ∧ decode 0x1200010200004000 = .ok (.wrmf 1 2 16384) ∧
    decode 0x130000000000FFFF = .ok (.wrdmf 0 0 (-1)) := by decide

theorem test_decode_reads : decode 0x1800004000000000 = .ok (.rdreg 0x40) ∧ decode 0x1900000300000000 = .ok (.rdref 3) ∧
    decode 0x1A00010200000000 = .ok (.rdmf 1 2) ∧ decode 0x1B00000000000000 = .ok (.rddmf 0 0) ∧
    decode 0x1C00000000000000 = .ok (.rdhdr 0) ∧ decode 0x1D00000100000000 = .ok (.rdpay 1) := by decide

theorem test_decode_push : decode 0x200000004000C000 = .ok (.push 16384 (-16384)) := by decide

theorem test_decode_unassigned :
    ([0x0400000000000000, 0x1E00000000000000, 0x2100000000000000, 0xFF00000000000000] : List Word).all
      (decode · = .error .unassignedOpcode) := by decide +kernel

theorem test_decode_reserved :
    ([0x0000000000000001, 0x0100000000000001, 0x1001000000000001, 0x1200010200014000, 0x1800004000000001,
      0x2000000100000000] : List Word).all (decode · = .error .reservedBit) := by decide +kernel

theorem test_table_word : decodeTableWord 64 0x1D00000100000000 = some (.rdpay 1) ∧
    decodeTableWord 64 0x0400000000000000 = none := by decide

/-- R110: the written form of V1.1's PUSH, and a register by its name (R112). -/
theorem test_written : written (.push 16384 (-16384)) = "PUSH (16384, -16384)".toList ∧
    responseText .errCfg 0x11 = "ERR_CFG:0x00000011".toList ∧ regByName "HDR_LEN" = some 0x0D ∧
    regByName "CAND_GAMMA" = some 0x68 := by decide +kernel

/-! ### One step of each command -/

/-- V1.6. -/
theorem test_nop : answer 0x0000000000000000 State.reset = some 0 := by decide +kernel

/-- F8: what INIT derives (the collaborators those of set `T`). -/
theorem test_init_derives : (initWith buildT loadedF8).der = ⟨8, 5, 2147483648, 4194304⟩ ∧
    (initWith buildT loadedF8).status = .run ∧ (initWith buildT loadedF8).resp = some 0 := by decide +kernel

/-- P1, step 7: `K` = 0 with nothing loaded answers `ERR_CFG:0x00000011`. -/
theorem test_init_rejects :
    (initWith buildT { State.reset with cfg := { cfgReset with k := 0 } }).resp = some 0x0400000000000011 ∧
    (initWith buildT { State.reset with cfg := { cfgReset with k := 0 } }).status = .dead := by decide +kernel

/-- V1.6, P5: SRST in UNINIT, and in RUN keeping `frame_cnt`. -/
theorem test_srst : answer 0x0200000000000000 State.reset = some 0x0200000000000000 ∧
    (done (exec .srst (headF8 1))).frameCnt = 1 ∧ (done (exec .srst (headF8 1))).fsm = .detect ∧
    (done (exec .srst (headF8 1))).str = ⟨0, 0, 0, 0⟩ := by decide +kernel

/-- V1.6, P1 steps 151 to 153: DSTR in UNINIT, and in RUN clearing `N`. -/
theorem test_dstr : answer 0x0300000000000000 State.reset = some 0x0200000000000000 ∧
    (done (exec .dstr runF8)).status = .uninit ∧ (done (exec .dstr runF8)).der.n = 0 ∧
    (done (exec .dstr runF8)).frameCnt = 0 := by decide +kernel

/-- V1.4: the mask of HDR_MOD. V1.3: an unpopulated address, and the status checked first. -/
theorem test_wrcfg : (done (exec (.wrcfg 0x0C 0xFFFFFFFF) State.reset)).cfg.hdrMod = 0x71F ∧
    answer 0x1000000E00000001 State.reset = some 0x0300000000000000 ∧
    answer 0x1000010000000001 runF8 = some 0x0200000000000000 := by decide +kernel

/-- V1.5. -/
theorem test_wrref_rdref : (done (exec (.rdref 3) (done (exec (.wrref 3 (-16384) 0) State.reset)))).resp =
    some 0x00000000C0000000 := by decide +kernel

/-- V1.5. -/
theorem test_wrmf_rdmf : (done (exec (.rdmf 1 2) (done (exec (.wrmf 1 2 16384) State.reset)))).resp =
    some 0x0000000000004000 := by decide +kernel

/-- V1.5: the coefficient is not sign-extended. -/
theorem test_wrdmf_rddmf : (done (exec (.rddmf 0 0) (done (exec (.wrdmf 0 0 (-1)) State.reset)))).resp =
    some 0x000000000000FFFF := by decide +kernel

/-- V1.3: the first index outside REF and the first bank outside MF. -/
theorem test_table_ends : answer 0x1900100000000000 State.reset = some 0x0300000000000000 ∧
    answer 0x1A00400000000000 State.reset = some 0x0300000000000000 := by decide +kernel

/-- V1.6, V1.3. -/
theorem test_rdreg : answer 0x1800001300000000 State.reset = some 0x000000003F803C00 ∧
    answer 0x1800006900000000 State.reset = some 0x0300000000000000 := by decide +kernel

/-- P2: `RDHDR 7` is past the seven decoded bytes of `U` = 1; V1.6: no header in UNINIT. -/
theorem test_rdhdr : (done (exec (.rdhdr 0) { runF8 with hdec := [(0, 0x5A)] })).resp = some 0x5A ∧
    answer 0x1C00000700000000 runF8 = some 0x0300000000000000 ∧
    answer 0x1C00000000000000 State.reset = some 0x0200000000000000 := by decide +kernel

/-- P2: the payload bytes within the capacity of two. -/
theorem test_rdpay : (done (exec (.rdpay 1) { payF8 0 1 with pdec := [(0, 0x12), (1, 0x34)] })).resp = some 0x34 ∧
    answer 0x1D00000200000000 (payF8 0 1) = some 0x0300000000000000 := by decide +kernel

/-- V3.1, t = 11: the candidate. -/
theorem test_push_captures :
    let t := done (exec (.push (-16384) 0) almostF8)
    t.resp = some 0 ∧ t.agcLvl = 940781 ∧ t.det.ex = 2147483648 ∧ t.det.rhoPrev = 16777216 ∧ t.det.mode = .findPeak ∧
      t.det.candRho2 = 4294967296 ∧ t.det.candGamma = 16777216 ∧ t.det.candDphi = 0 := by decide +kernel

/-- P2, t = 141: the 64th symbol of the header, its bit 0; the header is valid and the payload of 24 symbols begins. -/
theorem test_push_last_header_symbol :
    let s := { headF8 0 with hsym := bitCells [0xff, 0xa5, 0xa7, 0xa5, 0x85, 0xa5, 0xa4, 0xd8], symCnt := 63,
                             evm := ⟨0, 63⟩, dl := [(0, ⟨262144, 0⟩), (1, ⟨262144, 0⟩)] }
    let t := pushWith buildT ⟨16384, 0⟩ s
    t.resp = some 0x12 ∧ t.cap = ⟨24, 3, 2⟩ ∧ t.symCnt = 0 ∧ t.hdr = ⟨2, 0, 1, 1, 0, 0, 1, 3, 24⟩ ∧ t.evt = none ∧
      hdecAt t 0 = 0x5A := by decide +kernel

/-! ### The pieces of a PUSH -/

/-- V2.1. -/
theorem test_sincos : sincosDefault 0x10000000 = (60547, 25080) ∧ sincosDefault 0xFFFFFFFF = (65535, -402) ∧
    sincosDefault 0x003FFFFF = (65536, 0) := by decide +kernel

/-- V2.2. -/
theorem test_arg : argn argDefault 3 4 = 0x25C80A09 ∧ argn argDefault (-1) (-1) = 0xA0000000 ∧
    argn argDefault 1 1000 = 0x3FF59191 := by decide +kernel

/-- V3.5. -/
theorem test_tau : tauOf 8388608 16777216 4194304 = -1677722 ∧ tauOf 0 10 10 = 8388607 ∧ tauOf 10 5 10 = 0 := by
  decide +kernel

/-- V4.1, V4.2. -/
theorem test_agc : agcNext 2048 ⟨0, 0⟩ 100 = 96 ∧ agcNext 256 ⟨32767, -32768⟩ 4177920 = 4292668 ∧
    agcGain 0 = 268435456 ∧ agcGain 5000000 = 120047 ∧ agcGain 4294967295 = 4096 := by decide +kernel

/-- V4.3, V4.4. -/
theorem test_agc_apply : agcApply 120047 ⟨12345, -6789⟩ = ⟨180906, -99487⟩ ∧
    agcApply 268435456 ⟨-32768, 32767⟩ = ⟨-8388608, 8388607⟩ ∧ agcSeedLevel 4294967295 4194304 = 4294967295 ∧
    agcSeedLevel 4096 4194304 = 0 := by decide +kernel

/-- V5.1. -/
theorem test_mix :
    ncoMixed build ⟨8388607, -8388608⟩ { State.reset with nco := ⟨0x80000000, -5⟩ } = ⟨-8388607, 8388607⟩ ∧
    ncoMixed build ⟨262144, 100000⟩ { State.reset with nco := ⟨0x10000000, 0⟩ } = ⟨280457, -7933⟩ ∧
    (ncoAdvance { State.reset with nco := ⟨0xFFFFFFF0, 32⟩ }).nco.theta = 0x10 := by decide +kernel

/-- V5.2. -/
theorem test_pll : (pllStep (-1) { State.reset with bw := .closedBw, nco := ⟨0, 100⟩ }).nco = ⟨0xFFFFFFFF, 99⟩ ∧
    (pllStep 0x40000000 { State.reset with nco := ⟨0, 0x1FFFFFF0⟩ }).nco = ⟨67108864, 536870912⟩ := by decide +kernel

/-- V6.1. -/
theorem test_wrap : wrapIdx 4 58720256 2 = ⟨0, -8388608, 3⟩ ∧ wrapIdx 4 (-8388609) 2 = ⟨3, 58720255, 1⟩ ∧
    wrapIdx 4 (-150994939) 2 = ⟨3, 50331653, -1⟩ := by decide +kernel

/-- V6.4, V6.5. -/
theorem test_fir_and_seed : firSum (fun _ => 32767) (fun _ => ⟨8388607, -8388608⟩) 5 = ⟨8388607, -8388608⟩ ∧
    wrapIdx 32 (-1677721 * 32) 6 = ⟨29, 483183840, 5⟩ := by decide +kernel

/-- V7.2: the level equal to the threshold clears the count and keeps the squelch closed; above it opens. -/
theorem test_squelch :
    (squelchUpdate { runF8 with cfg := { cfgF8 with sqThresh := 131072 }, sq := ⟨3, true⟩, agcLvl := 131072 }).sq = ⟨0, true⟩ ∧
    (squelchUpdate { runF8 with cfg := { cfgF8 with sqThresh := 131072 }, sq := ⟨3, true⟩, agcLvl := 131073 }).sq = ⟨0, false⟩ := by
  decide +kernel

/-- V8.1. -/
theorem test_pack : (pack (fun i => [5, 2, 7, 1, 0, 6].getD i 0) 3 2).toList = [0xAB, 0x91] ∧
    (pack (fun i => [2, 1, 3, 0].getD i 0) 2 1).toList = [0x9C] := by decide +kernel

/-- V8.2, third row. -/
theorem test_parse : parseHeader 1 [0x5a, 0x00, 0x02, 0x19, 0xa0, 0xe3, 0x07] hdrReset = ⟨2, 3, 2, 5, 0, 3, 7, 0, 0⟩ ∧
    fieldsWord ⟨2, 3, 2, 5, 0, 3, 7, 0, 0⟩ = 0x07030523 := by decide +kernel

/-- V8.4, V8.5 and P4: the events of an unsupported codec, an unsupported modulation, a growth failure and a failed
check. -/
theorem test_header_events :
    ((headerComplete buildT (sentF8 [0xff, 0xa5, 0xa7, 0xa5, 0x05, 0xa5, 0xa4, 0x58])).1.evt =
      some ⟨0x0001000500000202, 0x3FC000, 0, 0x0000000100000040⟩) ∧
    ((headerComplete buildT (sentF8 [0xff, 0xa5, 0xa7, 0xbc, 0x85, 0xa5, 0xa4, 0x33])).1.evt =
      some ⟨0x0001000123000202, 0x3FC000, 0, 0x0000000100000040⟩) ∧
    ((headerComplete { buildT with paydecMax := 1 } (sentF8 [0xff, 0xa5, 0xa7, 0xa5, 0x85, 0xa5, 0xa4, 0xd8])).1.evt =
      some ⟨0x0001000100000213, 0x3FC000, 0, 0x0000000100000040⟩) ∧
    (headerComplete buildT (sentF8 [0xff, 0xa5, 0xa7, 0xa5, 0x85, 0xa5, 0xa4, 0xd9])).1.evt =
      some ⟨1, 0x3FC000, 0, 0x0000000100000040⟩ := by decide +kernel

/-- P2, t = 189, and V8.8: the payload `12 34` with its check byte, and with its last bit inverted. -/
theorem test_payload_events :
    ((payloadComplete buildT { payF8 24 1 with psym := bitCells [0x12, 0x34, 0x46], agcLvl := 0x3FC000 }).evt =
      some ⟨0x0001000100000270, 0x3FC000, 0, 0x0000000100000058⟩) ∧
    (payloadComplete buildT { payF8 24 1 with psym := bitCells [0x12, 0x34, 0x47], agcLvl := 0x3FC000 }).evt =
      some ⟨0x0001000100000250, 0x3FC000, 0, 0x0000000100000058⟩ ∧
    pdecAt (payloadComplete buildT { payF8 24 1 with psym := bitCells [0x12, 0x34, 0x46] }) 1 = 0x34 := by decide +kernel

/-- V9.2. -/
theorem test_event_cfo :
    (buildEvent .headerFailed false false false { State.reset with nco := ⟨0, -6835652⟩ }).w1 = 0xFF97B23C00000000 := by
  decide +kernel

/-- Every command answers a next state, and `done` is it. -/
theorem exec_done (i : Instr) (s : State) : exec i s = .next (done (exec i s)) := by
  cases i <;> rfl

/-! ### Witnesses: a state and operands that meet the hypotheses of each statement, clause by clause -/

theorem witness_DecodeAndEncodeAgree : (Instr.push 0x7FFF 0x8000).wellFormed = true ∧
    decode 0x200000007FFF8000 = .ok (.push 0x7FFF 0x8000) := by decide

theorem witness_LegalWordsAreTheOpcodeMap : decode 0x130000000000FFFF = .ok (.wrdmf 0 0 (-1)) ∧
    (∀ r ∈ opTable, field 0xFF00000000000000 56 8 ≠ r.opcode) ∧
    ∃ r ∈ opTable, field 1 56 8 = r.opcode ∧ r.accepts 1 = false := by decide +kernel

/-- The longest lists the fields can index, and an index inside them. -/
theorem witness_PseudoInstructionsExpand : (Pseudo.loadref (List.replicate 65536 Smp.zero)).wellFormed = true ∧
    65535 < (List.replicate 65536 Smp.zero).length ∧ (Pseudo.loadmf 0 (List.replicate 256 1)).wellFormed = true ∧
    (Pseudo.loaddmf 255 (List.replicate 256 1)).wellFormed = true ∧ 255 < (List.replicate 256 (1 : Coef)).length := by
  rw [Pseudo.wellFormed, Pseudo.wellFormed, Pseudo.wellFormed, List.length_replicate, List.length_replicate]
  decide

theorem witness_StepRunsTheDecodedCommand :
    let s : State := { runF8 with inputs := [.command 0x200000004000C000, .hreset] }
    s.inputs = .command 0x200000004000C000 :: [.hreset] ∧ decode 0x200000004000C000 = .ok (.push 16384 (-16384)) ∧
      (Instr.push 16384 (-16384)).wellFormed = true := by decide +kernel

theorem witness_IllegalWordOnlyAnswers :
    let s : State := { runF8 with inputs := [.command 0x1001000000000001] }
    s.inputs = .command 0x1001000000000001 :: [] ∧ decode 0x1001000000000001 = .error .reservedBit := by decide +kernel

theorem witness_IdleCoreHoldsItsState : runF8.inputs = [] := by decide

theorem witness_HardwareResetLeavesResetValues :
    ({ runF8 with inputs := [.hreset, .command 0] } : State).inputs = .hreset :: [.command 0] := by decide

/-- Each clause at the ends of its range. -/
theorem witness_HardwareResetReads : 0x40 ≤ (0x40 : BitVec 16).toNat ∧ (0x68 : BitVec 16).toNat ≤ 0x68 ∧
    cfgRegAt 0x15 = some .ncoFmax ∧ (4095 : BitVec 16).toNat < build.nMax ∧ (63 : BitVec 8).toNat < build.npfbMax ∧
    (255 : BitVec 8).toNat < build.tapsMax := by decide +kernel

theorem witness_ErrorAnswersWriteNothing : answerCode build .srst State.reset = .errState ∧
    answerCode build (.wrcfg 0x16 0) State.reset = .errAddr ∧
    answerCode build .init { State.reset with cfg := { cfgReset with debounce := 0 } } = .errCfg := by
  refine ⟨by decide +kernel, by decide +kernel, ?_⟩
  have h : configCheck build { State.reset with cfg := { cfgReset with debounce := 0 } } ≠ 0 := by
    rw [Ne, configCheck_eq_zero]
    exact fun ⟨_, _, _, _, _, _, _, h⟩ => h (by decide +kernel)
  show (if _ then if _ then if _ ∧ _ then _ else _ else _ else _) = _
  rw [if_pos (by decide), if_pos (by decide), if_pos ⟨rfl, h⟩]

theorem witness_ConfigurationIsLockedInRun : runF8.status = .run ∧
    exec .dstr runF8 = .next (done (exec .dstr runF8)) ∧ exec (.push 1 1) runF8 = .next (done (exec (.push 1 1) runF8)) :=
  ⟨rfl, exec_done _ _, exec_done _ _⟩

theorem witness_OnlyPushEmits : exec .srst runF8 = .next (done (exec .srst runF8)) ∧
    (∀ re im, (Instr.srst : Instr) ≠ .push re im) ∧ exec (.push 0 0) State.reset = .next (done (exec (.push 0 0) State.reset)) ∧
    State.reset.status ≠ .run := ⟨exec_done _ _, nofun, exec_done _ _, nofun⟩

theorem witness_CapacitiesNeverShrink : exec .srst (payF8 24 0) = .next (done (exec .srst (payF8 24 0))) ∧
    (Instr.srst : Instr) ≠ .dstr ∧ (Instr.srst : Instr) ≠ .init ∧ (payF8 24 0).cap = ⟨24, 3, 2⟩ :=
  ⟨exec_done _ _, nofun, nofun, rfl⟩

theorem witness_NopOnlyAnswersOk :
    ({ runF8 with inputs := [.command 1, .hreset] } : State).inputs = .command 1 :: [.hreset] := by decide

theorem witness_InitConstructsTheObject : loadedF8.status ≠ .run ∧ geometryOk build loadedF8 = true := by decide +kernel

theorem witness_SrstRestartsTheObject : runF8.status = .run := by decide

theorem witness_DstrDestroysTheObject : runF8.status ≠ .uninit ∧ ({ State.reset with status := .dead } : State).status ≠ .uninit := by
  decide

theorem witness_WrcfgStoresMaskedData : runF8.status = .run ∧ State.reset.status ≠ .run ∧ configAddress 0x0E = false ∧
    configAddress 0x0F = false ∧ configAddress 0x16 = false ∧ configAddress 0x0D = true ∧ configAddress 0x10 = true ∧
    configAddress 0x15 = true := by decide +kernel

theorem witness_WrrefStoresOneEntry : runF8.status = .run ∧ State.reset.status ≠ .run ∧
    build.nMax ≤ (4096 : BitVec 16).toNat ∧ (4095 : BitVec 16).toNat < build.nMax := by decide +kernel

theorem witness_WrmfWrdmfStoreOneCoefficient : runF8.status = .run ∧ State.reset.status ≠ .run ∧
    build.npfbMax ≤ (64 : BitVec 8).toNat ∧ (63 : BitVec 8).toNat < build.npfbMax ∧
    (255 : BitVec 8).toNat < build.tapsMax := by decide +kernel

theorem witness_RdregAnswersTheRegister : readableAddress 0x0E = false ∧ readableAddress 0x3F = false ∧
    readableAddress 0x69 = false ∧ readableAddress 0x40 = true ∧ readableAddress 0x68 = true ∧ readableAddress 0x15 = true ∧
    cfgRegAt 0x15 = some .ncoFmax := by decide +kernel

theorem witness_DecodedBytesReadInRunOnly : State.reset.status ≠ .run ∧ (payF8 24 0).status = .run ∧
    (6 : BitVec 16).toNat < cfgUserBytes (payF8 24 0).cfg + 6 ∧ ¬(7 : BitVec 16).toNat < cfgUserBytes (payF8 24 0).cfg + 6 ∧
    (1 : BitVec 16).toNat < (payF8 24 0).cap.dec.toNat ∧ ¬(2 : BitVec 16).toNat < (payF8 24 0).cap.dec.toNat := by
  decide +kernel

theorem witness_WrittenEntriesReadBack : loadedF8.status ≠ .run ∧ (4095 : BitVec 16).toNat < build.nMax ∧
    (63 : BitVec 8).toNat < build.npfbMax ∧ (255 : BitVec 8).toNat < build.tapsMax := by decide +kernel

/-- A coefficient of 0, a level above the power, and a level below it by less than one step. -/
theorem witness_LevelTracksThePower : ((sel .openBw 0x01000000 : Nat) : Int) = 0 ∧
    (0 < ((sel runF8.bw runF8.cfg.agcAlpha : Nat) : Int) ∧ asr (mag2 (Smp.mk 0 0).cx) 6 < ((100 : BitVec 32).toNat : Int)) ∧
    (((0 : BitVec 32).toNat : Int) < asr (mag2 (Smp.mk 8 0).cx) 6 ∧
      ((sel runF8.bw runF8.cfg.agcAlpha : Nat) : Int) * (asr (mag2 (Smp.mk 8 0).cx) 6 - ((0 : BitVec 32).toNat : Int)) < 2 ^ 16) := by
  decide +kernel

/-- The squelch closed in `F8` with the threshold `v` (V7.2). -/
def closedF8 (v : BitVec 32) : State := { runF8 with cfg := { cfgF8 with sqThresh := v, sqTimeout := 3 }, sq := ⟨3, true⟩ }

/-- The level at the threshold, and below it. -/
theorem witness_SquelchedPushOnlyTracks : (closedF8 131072).status = .run ∧ (closedF8 131072).fsm = .detect ∧
    (closedF8 131072).sq.closed = true ∧
    (levelAfter ⟨16384, 0⟩ (closedF8 131072)).toNat = cfgSqThresh (closedF8 131072).cfg ∧
    (levelAfter ⟨16384, 0⟩ (closedF8 131073)).toNat < cfgSqThresh (closedF8 131073).cfg := by decide +kernel

/-- The third sample below the threshold, P3. -/
theorem witness_SquelchTimeoutResetsTheLoops :
    let s : State := { closedF8 65536 with sq := ⟨2, false⟩ }
    s.status = .run ∧ s.fsm = .detect ∧ s.sq.closed = false ∧ (levelAfter ⟨0, 0⟩ s).toNat < cfgSqThresh s.cfg ∧
      cfgSqTimeout s.cfg ≤ min (s.sq.cnt.toNat + 1) (2 ^ 32 - 1) := by decide +kernel

/-- What the detector measures of a sample, as the statements about DETECT write it. -/
def measured (x : Smp) (s : State) : Metric := measure build (winPush x s)

/-- The firing condition, as the statements about DETECT write it. -/
abbrev Passing (x : Smp) (s : State) : Prop :=
  cfgThresh s.cfg * cfgThresh s.cfg < (measured x s).rho2 ∧ |(measured x s).dphi| ≤ cfgDphiMax s.cfg

/-- The hypotheses common to the statements about a DETECT sample. -/
abbrev Detecting (x : Smp) (s : State) : Prop :=
  s.status = .run ∧ s.fsm = .detect ∧ 0 < s.der.n.toNat ∧ s.der.n.toNat ≤ 65536 ∧
    (cfgSqThresh s.cfg < (levelAfter x s).toNat ∨ s.sq.closed = false ∧
      ((levelAfter x s).toNat = cfgSqThresh s.cfg ∨ (levelAfter x s).toNat < cfgSqThresh s.cfg ∧
        min (s.sq.cnt.toNat + 1) (2 ^ 32 - 1) < cfgSqTimeout s.cfg))

/-- `almostF8` in FINDPEAK with a candidate, `DEBOUNCE` 3. -/
def peakF8 (age : BitVec 16) (rho2 : BitVec 33) : State :=
  { almostF8 with
    cfg := { cfgF8 with debounce := 3 }
    det := { almostF8.det with mode := .findPeak, age := age, candRho2 := rho2, candM0 := 4000000, candM1 := 16000000 } }

/-- The level 1 above the threshold with the squelch closed, at it and 1 below it one sample short of the timeout
with the squelch open (V7.2, P3). -/
theorem witness_squelchOpen :
    Detecting ⟨16384, 0⟩ (closedF8 131071) ∧ (levelAfter ⟨16384, 0⟩ (closedF8 131071)).toNat = 131072 ∧
    (closedF8 131071).sq.closed = true ∧ Detecting ⟨16384, 0⟩ { closedF8 131072 with sq := ⟨1, false⟩ } ∧
    Detecting ⟨16384, 0⟩ { closedF8 131073 with sq := ⟨1, false⟩ } ∧
    ¬Passing ⟨16384, 0⟩ (closedF8 131071) ∧ (closedF8 131071).det.mode = .seek := by decide +kernel

/-- SEEK passing and not passing; FINDPEAK with a candidate it beats, and one it does not that is not due yet. -/
theorem witness_DetectSampleSlidesTheWindow :
    (Detecting ⟨-16384, 0⟩ almostF8 ∧ almostF8.det.mode = .seek ∧ Passing ⟨-16384, 0⟩ almostF8) ∧
    (Detecting ⟨0, 0⟩ runF8 ∧ runF8.det.mode = .seek ∧ ¬Passing ⟨0, 0⟩ runF8) ∧
    (Detecting ⟨-16384, 0⟩ (peakF8 2 4294967295) ∧ (peakF8 2 4294967295).det.mode = .findPeak ∧
      Passing ⟨-16384, 0⟩ (peakF8 2 4294967295) ∧
      (peakF8 2 4294967295).det.candRho2.toNat < (measured ⟨-16384, 0⟩ (peakF8 2 4294967295)).rho2) ∧
    (Detecting ⟨-16384, 0⟩ (peakF8 1 4294967296) ∧ (peakF8 1 4294967296).det.mode = .findPeak ∧
      ((peakF8 1 4294967296).det.age + 1).toNat < cfgDebounce (peakF8 1 4294967296).cfg ∧
      ¬(peakF8 1 4294967296).det.candRho2.toNat < (measured ⟨-16384, 0⟩ (peakF8 1 4294967296)).rho2) := by decide +kernel

/-- The third PUSH after the peak (V3.7), and the first with `DEBOUNCE` 1, whose metric is `cand_m2`. -/
theorem witness_DetectionSeedsTheFrame :
    (Detecting ⟨-16384, 0⟩ (peakF8 2 4294967296) ∧ (peakF8 2 4294967296).det.mode = .findPeak ∧
      1 ≤ cfgBanks (peakF8 2 4294967296).cfg ∧ cfgBanks (peakF8 2 4294967296).cfg ≤ 128 ∧
      cfgDebounce (peakF8 2 4294967296).cfg ≤ ((peakF8 2 4294967296).det.age + 1).toNat ∧
      ¬(Passing ⟨-16384, 0⟩ (peakF8 2 4294967296) ∧
        (peakF8 2 4294967296).det.candRho2.toNat < (measured ⟨-16384, 0⟩ (peakF8 2 4294967296)).rho2)) ∧
    (Detecting ⟨0, 0⟩ { peakF8 0 4294967296 with cfg := cfgF8 } ∧ cfgDebounce cfgF8 ≤ ((0 : BitVec 16) + 1).toNat ∧
      ¬4294967296 < (measured ⟨0, 0⟩ { peakF8 0 4294967296 with cfg := cfgF8 }).rho2) := by decide +kernel

/-- P2, t = 190. -/
theorem witness_ResetPushIsADetectPush : ({ payF8 24 1 with fsm := .reset } : State).status = .run ∧
    ({ payF8 24 1 with fsm := .reset } : State).fsm = .reset := by decide

/-- P2, t = 14, and a sample of the payload. -/
theorem witness_FrameSampleWithoutStrobe : (headF8 1).status = .run ∧ (headF8 1).fsm = .rxheader ∧
    0 < (headF8 1).str.timer.toInt ∧ 0 < (headF8 1).der.taps.toNat ∧ (payF8 3 1).fsm = .rxpayload ∧
    0 < (payF8 3 1).str.timer.toInt := by decide

/-- P2, t = 15, and the 63rd symbol; a timer already negative (V6.1). -/
theorem witness_HeaderSymbolIsStored : (headF8 0).status = .run ∧ (headF8 0).fsm = .rxheader ∧
    (headF8 0).str.timer.toInt ≤ 0 ∧ ((headF8 0).symCnt + 1).toNat ≠ cfgHdrSyms (headF8 0).cfg ∧
    (headF8 (-1)).str.timer.toInt ≤ 0 ∧ ((62 : BitVec 32) + 1).toNat ≠ cfgHdrSyms (headF8 0).cfg := by decide +kernel

/-- P2, t = 187: the last payload symbol but one. -/
theorem witness_PayloadSymbolIsStored : (payF8 22 0).status = .run ∧ (payF8 22 0).fsm = .rxpayload ∧
    (payF8 22 0).str.timer.toInt ≤ 0 ∧ (payF8 22 0).symCnt + 1 ≠ (payF8 22 0).hdr.nsym := by decide

/-- P2, t = 141 and t = 189. -/
theorem witness_LastSymbolCompletesInThePush :
    (let s : State := { headF8 0 with symCnt := 63 }
     s.status = .run ∧ s.str.timer.toInt ≤ 0 ∧ s.fsm = .rxheader ∧ (s.symCnt + 1).toNat = cfgHdrSyms s.cfg) ∧
    (payF8 23 0).status = .run ∧ (payF8 23 0).str.timer.toInt ≤ 0 ∧ (payF8 23 0).fsm = .rxpayload ∧
    (payF8 23 0).symCnt + 1 = (payF8 23 0).hdr.nsym := by decide +kernel

/-- The five outcomes: P4, V8.4, V8.5, P2 and V8.7. -/
theorem witness_HeaderCompletionOutcomes :
    let bad := sentF8 [0xff, 0xa5, 0xa7, 0xa5, 0x85, 0xa5, 0xa4, 0xd9]
    let odd := sentF8 [0xff, 0xa5, 0xa7, 0xa5, 0x05, 0xa5, 0xa4, 0x58]
    let good := sentF8 [0xff, 0xa5, 0xa7, 0xa5, 0x85, 0xa5, 0xa4, 0xd8]
    let empty := sentF8 [0xd2, 0xa5, 0xa5, 0xa5, 0xa5, 0xa5, 0xa4, 0xdd]
    headerValid buildT bad = false ∧
    (headerValid buildT odd = true ∧ supported buildT (parsed buildT odd) = false) ∧
    (headerValid buildT good = true ∧ supported buildT (parsed buildT good) = true ∧
      (buildT.pktEncLen (parsed buildT good).len 1 0 0).toNat = 3 ∧ (parsed buildT good).len.toNat = 2 ∧
      { buildT with paydecMax := 1 }.paydecMax < (parsed buildT good).len.toNat ∧
      2 ≤ buildT.paydecMax ∧ ceildiv (8 * 3) (parsed buildT good).bps.toNat = 24 ∧ 24 ≤ buildT.paysymMax ∧
      3 ≤ buildT.payencMax) ∧
    (headerValid buildT empty = true ∧ supported buildT (parsed buildT empty) = true ∧
      (buildT.pktEncLen (parsed buildT empty).len 0 0 0).toNat = 0 ∧
      ceildiv (8 * 0) (parsed buildT empty).bps.toNat = 0 ∧
      (parsed buildT empty).len.toNat ≤ buildT.paydecMax) := by decide +kernel

/-- A symbol of one bit and of eight, the last bit of the last byte, and a source that differs only past the symbols
read. -/
theorem witness_PackingIsMostSignificantFirst : (1 ≤ 1 ∧ 1 ≤ 8 ∧ 1 ≤ 8 ∧ 8 ≤ 8 ∧ 2 < 3 ∧ 7 < 8) ∧
    ∀ i, i < ceildiv (8 * 3) 8 → (fun j => if j < 3 then (5 : Byte) else 9) i = (fun _ => 5) i := by decide +kernel

theorem witness_EventRecordFields : EventKind.headerFailed = .headerFailed ∧ ¬EventKind.growthFailed = .headerFailed := by
  decide

/-- A reset in mid-frame (P5), and an accepted PUSH in each of the four states. -/
theorem witness_FrameMachineTransitions : exec .srst (headF8 1) = .next (done (exec .srst (headF8 1))) ∧
    (done (exec .srst (headF8 1))).fsm ≠ (headF8 1).fsm ∧ runF8.status = .run ∧ runF8.fsm = .detect ∧
    (headF8 1).status = .run ∧ (headF8 1).fsm = .rxheader ∧ (payF8 0 1).status = .run ∧ (payF8 0 1).fsm = .rxpayload ∧
    ({ payF8 0 1 with fsm := .reset } : State).fsm = .reset := ⟨exec_done _ _, by decide +kernel, rfl, rfl, rfl, rfl, rfl, rfl, rfl⟩

/-- A detection, a strobe and an event (P2, t = 12, 15 and 189). -/
theorem witness_PushReportsWhatHappened : (runF8.status = .run ∧ runF8.evt = none) ∧
    (pushSample buildT ⟨0, 0⟩ { peakF8 0 4294967296 with cfg := cfgF8 }).2 = ⟨true, false, false⟩ ∧
    (pushSample buildT ⟨0, 0⟩ (headF8 0)).2 = ⟨false, true, false⟩ ∧
    (pushSample buildT ⟨0, 0⟩ (payF8 23 0)).2 = ⟨false, true, true⟩ := by decide +kernel

/-- The strobe itself and one PUSH before it, the timer at 2; and a timer that has run out. -/
theorem witness_FirstStrobeWhenTheTimerEnds : ((headF8 2).fsm = .rxheader ∨ (headF8 2).fsm = .rxpayload) ∧
    (([⟨0, 0⟩, ⟨0, 0⟩] : List Smp).length : Int) ≤ max (headF8 2).str.timer.toInt 0 ∧
    (headF8 2).str.timer.toInt ≤ (([⟨0, 0⟩, ⟨0, 0⟩] : List Smp).length : Int) ∧
    ¬(headF8 2).str.timer.toInt ≤ (([⟨0, 0⟩] : List Smp).length : Int) ∧ (payF8 3 (-1)).fsm = .rxpayload ∧
    (([] : List Smp).length : Int) ≤ max (payF8 3 (-1)).str.timer.toInt 0 := by decide

/-- V8.7 before t = 141: the last symbol of the header is still to come. -/
def lastHeadF8 : State :=
  { headF8 0 with
    hsym := bitCells [0xd2, 0xa5, 0xa5, 0xa5, 0xa5, 0xa5, 0xa4, 0xdc]
    symCnt := 63
    evm := ⟨0, 63⟩
    dl := [(0, ⟨-262144, 0⟩), (1, ⟨-262144, 0⟩)] }

theorem tables_F8 {s : State} (h : s.ref = refF8) (h2 : s.mf = coefsF8 16384) (h3 : s.dmf = coefsF8 0) : TablesOk buildT s := by
  refine ⟨?_, ?_, ?_, ?_, ?_, ?_⟩ <;> simp only [h, h2, h3] <;> decide +kernel

theorem masked_F8 : ∀ c ∈ [cfgF8, { cfgF8 with thresh := 0x10000 }, cfgReset], CfgMasked c := by
  intro c hc r
  simp only [List.mem_cons, List.not_mem_nil, or_false] at hc
  rcases hc with rfl | rfl | rfl <;> cases r <;> decide +kernel

theorem sound_lastHeadF8 : Sound buildT lastHeadF8 := by
  refine ⟨masked_F8 _ (by simp [lastHeadF8, headF8, runF8, loadedF8]), tables_F8 rfl rfl rfl, ?_, ?_, fun _ => ?_, nofun⟩
  · constructor <;> decide +kernel
  · constructor <;> decide +kernel
  · constructor <;> decide +kernel

theorem sound_payF8 : Sound buildT (payF8 23 0) := by
  refine ⟨masked_F8 _ (by simp [payF8, headF8, runF8, loadedF8]), tables_F8 rfl rfl rfl, ?_, ?_, fun _ => ?_, nofun⟩
  · constructor <;> decide +kernel
  · constructor <;> decide +kernel
  · constructor <;> decide +kernel

/-- A record of kind 0 with and one without payload symbols. -/
theorem witness_EventCountsItsSymbols : buildT.SizesOk ∧ (Sound buildT lastHeadF8 ∧ Sound buildT (payF8 23 0)) ∧
    lastHeadF8.status = .run ∧ lastHeadF8.evt = none ∧ (payF8 23 0).status = .run ∧ (payF8 23 0).evt = none ∧
    (pushWith buildT ⟨0, 0⟩ lastHeadF8).evt.map Event.w0 = some 0x0001000000000070 ∧
    (pushWith buildT ⟨0, 0⟩ lastHeadF8).evt.map Event.w3 = some 0x0000000100000040 ∧
    (pushWith buildT ⟨0, 0⟩ (payF8 23 0)).evt.map Event.w3 = some 0x0000000100000058 :=
  ⟨by decide +kernel, ⟨sound_lastHeadF8, sound_payF8⟩, rfl, rfl, rfl, rfl, by decide +kernel, by decide +kernel,
    by decide +kernel⟩

/-- One filter, and the most a build may have. -/
theorem witness_StrobeRunsTheTimingLoop : 1 ≤ cfgBanks { cfgF8 with npfb := 1 } ∧ cfgBanks { cfgF8 with npfb := 1 } ≤ 128 ∧
    1 ≤ cfgBanks { cfgF8 with npfb := 128 } ∧ cfgBanks { cfgF8 with npfb := 128 } ≤ 128 := by decide +kernel

theorem witness_WrapMovesTheIndexIntoRange : (1 : Nat) ≤ 1 := by decide

/-- A maximum, three equal metrics, a minimum, and equal neighbours (V3.5). -/
theorem witness_TimingEstimateIsTheClampedVertex : 2 * ((0 : Int) - 2 * (10 : Nat) + (10 : Nat)) < 0 ∧
    (0 : Int) ≤ 2 * (((5 : Nat) : Int) - 2 * (5 : Nat) + (5 : Nat)) ∧ (0 : Int) ≤ 2 * (((10 : Nat) : Int) - 2 * (5 : Nat) + (10 : Nat)) ∧
    (2241949 : Nat) = 2241949 := by decide

/-- `F8` just after INIT, and with `THRESH` 1.0. -/
theorem witness_CorrelationIsBounded : buildT.SizesOk ∧ Sound buildT { runF8 with cfg := { cfgF8 with thresh := 0x10000 } } ∧
    ({ runF8 with cfg := { cfgF8 with thresh := 0x10000 } } : State).status = .run ∧
    0x10000 ≤ cfgThresh { cfgF8 with thresh := 0x10000 } := by
  refine ⟨by decide +kernel, ⟨masked_F8 _ (by simp), tables_F8 rfl rfl rfl, ?_, ?_, fun _ => ?_, nofun⟩, rfl, by decide +kernel⟩
  · constructor <;> decide +kernel
  · constructor <;> decide +kernel
  · constructor <;> decide +kernel

theorem witness_BetaHasNoEffect : (Instr.push 1 1) ≠ .rdreg 0x02 ∧ (∀ d, Instr.push 1 1 ≠ .wrcfg 0x02 d) ∧
    (Instr.rdreg 0x03) ≠ .rdreg 0x02 ∧ exec (.push 1 1) runF8 = .next (done (exec (.push 1 1) runF8)) :=
  ⟨nofun, nofun, by decide, exec_done _ _⟩

/-- A block of two inputs, both taken before the next arrives. -/
theorem witness_BlockCutsDoNotMatter : 2 ≤ ({ runF8 with inputs := [.command 0x2000000000000000, .hreset] } : State).inputs.length := by
  decide

/-- A sound state about to construct its object; in the build of set `T` one about to take a sample. -/
theorem witness_SoundIsKeptByEveryStep :
    Sound build { State.reset with inputs := [.command 0x0100000000000000], fUnsup := true } ∧
    buildT.SizesOk ∧ Sound buildT (payF8 23 0) := by
  refine ⟨⟨masked_F8 _ (by simp [State.reset]), ?_, ?_, ?_, nofun, fun _ => ?_⟩, by decide +kernel, sound_payF8⟩
  · constructor <;> decide +kernel
  · constructor <;> decide +kernel
  · constructor <;> decide +kernel
  · constructor <;> decide +kernel

end Sys2Proof.Tests
end

section
/-! The configuration registers by address (R30 to R50), the fields the rules read from them, and the selector (R51). -/

namespace Sys2Proof.Machine

/-! ### Fields of a register as arithmetic -/

/-- The field `r[lo+len-1 : lo]` by division and remainder. -/
theorem regField_eq_div_mod (r : BitVec 32) (lo len : Nat) : regField r lo len = r.toNat / 2 ^ lo % 2 ^ len := by
  simp [regField, Nat.shiftRight_eq_div_pow]

/-- A field that starts at bit 0. -/
theorem regField_zero_eq_mod (r : BitVec 32) (len : Nat) : regField r 0 len = r.toNat % 2 ^ len := by
  rw [regField_eq_div_mod, pow_zero, Nat.div_one]

/-- The high half needs no remainder: the register has 32 bits. -/
theorem regField_high_half (r : BitVec 32) : regField r 16 16 = r.toNat / 2 ^ 16 := by
  rw [regField_eq_div_mod]
  exact Nat.mod_eq_of_lt (Nat.div_lt_of_lt_mul r.isLt)

/-- `hdr_mod` (R42) as a number. -/
theorem cfgHdrScheme_toNat (c : Cfg) : (cfgHdrScheme c).toNat = c.hdrMod.toNat % 2 ^ 5 :=
  regField_zero_eq_mod c.hdrMod 5

/-- `hdr_bps` (R42): the three bits give at most 7, so adding 1 does not wrap. -/
theorem cfgHdrBps_toNat (c : Cfg) : (cfgHdrBps c).toNat = c.hdrMod.toNat / 2 ^ 8 % 2 ^ 3 + 1 := by
  have hfield : (c.hdrMod.extractLsb' 8 3).toNat = c.hdrMod.toNat / 2 ^ 8 % 2 ^ 3 := regField_eq_div_mod c.hdrMod 8 3
  have hsum : (cfgHdrBps c).toNat = ((c.hdrMod.extractLsb' 8 3).toNat % 2 ^ 4 + 1) % 2 ^ 4 := by
    simp [cfgHdrBps]
  omega

/-- R51: in open bandwidth the selector is the low half. -/
theorem sel_openBw (r : BitVec 32) : sel .openBw r = r.toNat % 2 ^ 16 := regField_zero_eq_mod r 16

/-- R51: in closed bandwidth the selector is the high half. -/
theorem sel_closedBw (r : BitVec 32) : sel .closedBw r = r.toNat / 2 ^ 16 := regField_high_half r

/-! ### The registers by address -/

/-- RDREG reads the configuration register that the map has at the address (R134). -/
theorem readReg_of_cfgRegAt {addr : BitVec 16} {r : CfgReg} (s : State) (h : cfgRegAt addr = some r) :
    readReg s addr = some (cfgGet s.cfg r) := by
  simp [readReg, h]

/-- One row of the map: what RDREG reads follows from which register is at the address. -/
theorem configurationRow {s : State} {addr : BitVec 16} {r : CfgReg} {v mask init : BitVec 32}
    (hreg : cfgRegAt addr = some r) (hval : cfgGet s.cfg r = v) (hmask : cfgMask r = mask)
    (hinit : cfgGet cfgReset r = init) :
    cfgRegAt addr = some r ∧ cfgGet s.cfg r = v ∧ readReg s addr = some v ∧ cfgMask r = mask ∧
      cfgGet cfgReset r = init :=
  ⟨hreg, hval, hval ▸ readReg_of_cfgRegAt s hreg, hmask, hinit⟩

/-- Settles O9: each row of the map is read off the tables of R30 to R49, each field is its bit range as arithmetic,
and the selector (R51) is a half of the register. -/
theorem configurationRegisterMap : Obligations.ConfigurationRegisterMap := by
  refine ⟨fun s c hc => ?rows, fun c => ?fields, fun r => ⟨sel_openBw r, sel_closedBw r⟩⟩
  case rows =>
    simp only [List.mem_cons, List.not_mem_nil, or_false] at hc
    rcases hc with rfl | rfl | rfl | rfl | rfl | rfl | rfl | rfl | rfl | rfl |
      rfl | rfl | rfl | rfl | rfl | rfl | rfl | rfl | rfl | rfl <;>
    exact configurationRow rfl rfl rfl rfl
  case fields =>
    have low := regField_zero_eq_mod
    exact ⟨low c.k 8, low c.m 8, low c.npfb 8, low c.plen 16, low c.thresh 17, low c.dphiMax 31, rfl, rfl,
      low c.debounce 16, low c.hdrDly 16, low c.hdrNsym 16, cfgHdrScheme_toNat c, cfgHdrBps_toNat c,
      low c.hdrLen 8, regField_eq_div_mod c.hdrLen 8 8, regField_high_half c.hdrLen, low c.ncoFmax 31⟩

end Sys2Proof.Machine
end

section
/-! NOP and the words beside it (R122), and `config_check` bit by bit (R124). -/

namespace Sys2Proof.Machine

/-! ### NOP -/

/-- A word that does not decode is taken from the port and answered, whichever of the two reasons it has (R102, R103). -/
theorem step_of_decode_error {s : State} {w : Word} {rest : List Input} {e : DecodeError}
    (hin : s.inputs = .command w :: rest) (hdec : decode w = .error e) :
    step s = .next (answerIllegal (beginCommand rest s)) := by
  simp [step, hin, hdec]

/-- The answer to an ILLEGAL word on the ports: the code ERR_OPCODE, data 0 and no event (R102). -/
theorem answerIllegal_beginCommand (rest : List Input) (s : State) :
    answerIllegal (beginCommand rest s) = { s with inputs := rest, resp := some 0x0100000000000000, evt := none } := rfl

/-- NOP has no check to fail, and OK with data 0 is the word 0 (R98, R99). -/
theorem exec_nop (s : State) : exec .nop s = .next { s with resp := some 0 } := rfl

theorem decode_zero : decode 0 = .ok .nop := by decide

/-- R122: the opcode of NOP with a reserved bit set. -/
theorem decode_one : decode 1 = .error .reservedBit := by decide

/-- Settles O16: NOP is the bare OK answer; the word 1 has the opcode of NOP and a reserved bit set. -/
theorem nopOnlyAnswersOk : Obligations.NopOnlyAnswersOk := by
  refine ⟨exec_nop, decode_zero, fun s rest hin => ?illegal⟩
  case illegal => rw [step_of_decode_error hin decode_one, answerIllegal_beginCommand]

/-! ### The tests of `config_check` -/

theorem badFilter_iff (P : Params) (c : Cfg) : badFilter P c = true ↔ cfgSemi c = 0 ∨ cfgTaps c > P.tapsMax := by
  simp [badFilter]

theorem badPreamble_iff (P : Params) (c : Cfg) :
    badPreamble P c = true ↔ cfgPreLen c = 0 ∨ cfgWindow c > P.nMax := by
  simp [badPreamble]

theorem badBanks_iff (P : Params) (c : Cfg) : badBanks P c = true ↔ cfgBanks c = 0 ∨ cfgBanks c > P.npfbMax := by
  simp [badBanks]

theorem badEnergy_iff (P : Params) (s : State) :
    badEnergy P s = true ↔ cfgWindow s.cfg ≤ P.nMax ∧ refEnergy P s = 0 := by
  simp [badEnergy]

theorem badHeader_iff (P : Params) (c : Cfg) : badHeader P c = true ↔
    cfgHdrSyms c = 0 ∨ cfgHdrSyms c > P.hsymMax ∨ cfgEncBytes c = 0 ∨ cfgEncBytes c > P.hbufMax ∨
      cfgUserBytes c + 6 + cfgKeyBytes c > P.hbufMax ∨
      cfgHdrSyms c ≠ ceildiv (8 * cfgEncBytes c) (cfgHdrBps c).toNat := by
  simp [badHeader, or_assoc]

/-! ### The cause word -/

/-- The cause word is the eight tests, put one under the other from bit 7 down to bit 0. -/
theorem configCheck_eq_concat (P : Params) (s : State) : configCheck P s =
    (BitVec.ofBool (cfgDebounce s.cfg == 0)
      |>.concat (!P.modSupported (cfgHdrScheme s.cfg) (cfgHdrBps s.cfg))
      |>.concat (badHeader P s.cfg)
      |>.concat (badEnergy P s)
      |>.concat (badBanks P s.cfg)
      |>.concat (badPreamble P s.cfg)
      |>.concat (badFilter P s.cfg)
      |>.concat (decide (cfgSps s.cfg < 2))) := rfl

/-- The bit at each place of the cause word, as the test the place belongs to. -/
theorem configCheck_getLsbD (P : Params) (s : State) :
    (configCheck P s).getLsbD 0 = decide (cfgSps s.cfg < 2) ∧
    (configCheck P s).getLsbD 1 = badFilter P s.cfg ∧
    (configCheck P s).getLsbD 2 = badPreamble P s.cfg ∧
    (configCheck P s).getLsbD 3 = badBanks P s.cfg ∧
    (configCheck P s).getLsbD 4 = badEnergy P s ∧
    (configCheck P s).getLsbD 5 = badHeader P s.cfg ∧
    (configCheck P s).getLsbD 6 = !P.modSupported (cfgHdrScheme s.cfg) (cfgHdrBps s.cfg) ∧
    (configCheck P s).getLsbD 7 = (cfgDebounce s.cfg == 0) := by
  simp only [configCheck_eq_concat, BitVec.getLsbD_concat_zero, BitVec.getLsbD_concat_succ, BitVec.getLsbD_ofBool,
    decide_true, Bool.true_and, and_self]

/-- Settles O17: each bit is the test at its place, and each test is its row of R124. -/
theorem configCheckHasOneBitPerCause : Obligations.ConfigCheckHasOneBitPerCause := by
  intro P s
  obtain ⟨bit0, bit1, bit2, bit3, bit4, bit5, bit6, bit7⟩ := configCheck_getLsbD P s
  refine ⟨?sps, ?filter, ?preamble, ?banks, ?energy, ?header, ?scheme, ?debounce⟩
  case sps => rw [bit0, decide_eq_true_iff]
  case filter => rw [bit1]; exact badFilter_iff P s.cfg
  case preamble => rw [bit2]; exact badPreamble_iff P s.cfg
  case banks => rw [bit3]; exact badBanks_iff P s.cfg
  case energy => rw [bit4]; exact badEnergy_iff P s
  case header => rw [bit5]; exact badHeader_iff P s.cfg
  case scheme => rw [bit6, Bool.not_eq_true']
  case debounce => rw [bit7, beq_iff_eq]

end Sys2Proof.Machine
end

section
/-! The timing estimate of the detector (R166). -/

namespace Sys2Proof.Machine

/-- R166: where the three metrics have a maximum, the estimate is the floor quotient, clamped. -/
theorem tauOf_of_concave {m0 m1 m2 : Nat} (h : 2 * ((m0 : Int) - 2 * m1 + m2) < 0) : tauOf m0 m1 m2 =
    clamp (fdiv (((m0 : Int) - m2) * 2 ^ 24) (2 * ((m0 : Int) - 2 * m1 + m2))) (-2 ^ 23) (2 ^ 23 - 1) :=
  if_pos h

/-- R166: three metrics with no maximum (flat, or not concave) give 0. -/
theorem tauOf_of_not_concave {m0 m1 m2 : Nat} (h : 0 ≤ 2 * ((m0 : Int) - 2 * m1 + m2)) : tauOf m0 m1 m2 = 0 :=
  if_neg (not_lt.mpr h)

/-- Equal neighbours put the vertex on the middle point: the quotient is 0, and the clamp leaves it. -/
theorem tauOf_equal_neighbours (m m1 : Nat) : tauOf m m1 m = 0 := by
  rcases lt_or_ge (2 * ((m : Int) - 2 * m1 + m)) 0 with hmax | hnone
  · have hquot : fdiv (((m : Int) - m) * 2 ^ 24) (2 * ((m : Int) - 2 * m1 + m)) = 0 := by
      rw [sub_self, zero_mul]
      exact Int.zero_fdiv _
    rw [tauOf_of_concave hmax, hquot]
    exact clamp_of_mem (by norm_num) (by norm_num)
  · exact tauOf_of_not_concave hnone

/-- Settles O54: the bounds are those of the clamp, and the value follows the two branches of R166. -/
theorem timingEstimateIsTheClampedVertex : Obligations.TimingEstimateIsTheClampedVertex := by
  intro m0 m1 m2
  obtain ⟨hlow, hhigh⟩ := tauOf_mem m0 m1 m2
  refine ⟨hhigh, hlow, tauOf_of_concave, tauOf_of_not_concave, fun hsame => ?_⟩
  rw [← hsame]
  exact tauOf_equal_neighbours m0 m1

end Sys2Proof.Machine
end

section
/-! The level tracker of the AGC (R181): one step of `asr(alpha * d, 16)`, and the level's range. -/

namespace Sys2Proof.Machine

/-! ### One step of a Q16 fraction -/

theorem asr_mul_two_pow (d : Int) (n : Nat) : asr (2 ^ n * d) n = d :=
  Int.mul_ediv_cancel_left d (by positivity)

theorem asr_eq_zero {v : Int} {n : Nat} (h0 : 0 ≤ v) (h1 : v < 2 ^ n) : asr v n = 0 :=
  Int.ediv_eq_zero_of_lt h0 h1

theorem asr_neg_of_neg {v : Int} {n : Nat} (h : v < 0) : asr v n < 0 :=
  Int.ediv_neg_of_neg_of_pos h (by positivity)

/-- A fraction of a distance upward: up, and not past the end. -/
theorem asr_fraction_mem_of_nonneg {a d : Int} {n : Nat} (ha : 0 ≤ a) (han : a ≤ 2 ^ n) (hd : 0 ≤ d) :
    0 ≤ asr (a * d) n ∧ asr (a * d) n ≤ d := by
  refine ⟨asr_nonneg (mul_nonneg ha hd), ?_⟩
  calc asr (a * d) n ≤ asr (2 ^ n * d) n := asr_mono (mul_le_mul_of_nonneg_right han hd)
    _ = d := asr_mul_two_pow d n

/-- A fraction of a distance downward: down, and not past the end, which the floor reaches at most at the whole. -/
theorem asr_fraction_mem_of_nonpos {a d : Int} {n : Nat} (ha : 0 ≤ a) (han : a ≤ 2 ^ n) (hd : d ≤ 0) :
    d ≤ asr (a * d) n ∧ asr (a * d) n ≤ 0 := by
  constructor
  · calc d = asr (2 ^ n * d) n := (asr_mul_two_pow d n).symm
      _ ≤ asr (a * d) n := asr_mono (mul_le_mul_of_nonpos_right han hd)
  · calc asr (a * d) n ≤ asr (2 ^ n * 0) n := asr_mono (by simpa using mul_nonpos_of_nonneg_of_nonpos ha hd)
      _ = 0 := asr_mul_two_pow 0 n

/-! ### What the tracker is given -/

/-- R51: the selector is a half of its register, so it is below `2^16`. -/
theorem sel_lt (b : Bw) (r : BitVec 32) : sel b r < 2 ^ 16 := by
  cases b with
  | openBw => rw [sel_openBw]; exact Nat.mod_lt _ (by norm_num)
  | closedBw => rw [sel_closedBw]; exact Nat.div_lt_of_lt_mul r.isLt

/-- `p24`, the power of a sample in Q24 (R181). -/
theorem samplePower_mem (x : Smp) : 0 ≤ asr (mag2 x.cx) 6 ∧ asr (mag2 x.cx) 6 ≤ 2 ^ 25 := by
  have hmag : (mag2 x.cx : Int) ≤ 2 ^ 6 * 2 ^ 25 := by exact_mod_cast mag2_smp_le x
  refine ⟨asr_nonneg (Int.natCast_nonneg _), ?_⟩
  calc asr (mag2 x.cx) 6 ≤ asr (2 ^ 6 * 2 ^ 25) 6 := asr_mono hmag
    _ = 2 ^ 25 := asr_mul_two_pow _ 6

/-! ### The new level -/

/-- R181: the new level lies between the old one and the power. -/
theorem agcNext_between {alpha : Nat} (h : alpha < 2 ^ 16) (x : Smp) (lvl : Nat) :
    min (lvl : Int) (asr (mag2 x.cx) 6) ≤ agcNext alpha x lvl ∧
      agcNext alpha x lvl ≤ max (lvl : Int) (asr (mag2 x.cx) 6) := by
  have halpha : (alpha : Int) ≤ 2 ^ 16 := by exact_mod_cast h.le
  unfold agcNext
  rcases le_total (lvl : Int) (asr (mag2 x.cx) 6) with hup | hdown
  · have := asr_fraction_mem_of_nonneg (Int.natCast_nonneg alpha) halpha (sub_nonneg.2 hup)
    omega
  · have := asr_fraction_mem_of_nonpos (Int.natCast_nonneg alpha) halpha (sub_nonpos.2 hdown)
    omega

/-- R181: the register holds the new level exactly, as it lies between two values that fit 32 bits. -/
theorem agcTrack_agcLvl_toNat (x : Smp) (s : State) :
    ((agcTrack x s).agcLvl.toNat : Int) = agcNext (sel s.bw s.cfg.agcAlpha) x s.agcLvl.toNat := by
  obtain ⟨hlow, hhigh⟩ := agcNext_between (sel_lt s.bw s.cfg.agcAlpha) x s.agcLvl.toNat
  obtain ⟨hpow, hpow'⟩ := samplePower_mem x
  have hlvl := s.agcLvl.isLt
  rw [agcTrack_agcLvl]
  exact toNat_ofInt_of_range (by omega) (by omega)

theorem agcNext_of_alpha_zero (x : Smp) (lvl : Nat) : agcNext 0 x lvl = lvl := by
  simp [agcNext, asr]

/-- R181: the floor makes every move downward at least 1. -/
theorem agcNext_lt_of_power_lt {alpha : Nat} {x : Smp} {lvl : Nat} (ha : 0 < alpha)
    (h : asr (mag2 x.cx) 6 < lvl) : agcNext alpha x lvl < lvl := by
  have hstep : asr ((alpha : Int) * (asr (mag2 x.cx) 6 - lvl)) 16 < 0 :=
    asr_neg_of_neg (mul_neg_of_pos_of_neg (by exact_mod_cast ha) (sub_neg.2 h))
  unfold agcNext
  omega

/-- R181: the floor drops a move upward of less than 1. -/
theorem agcNext_eq_of_small_rise {alpha : Nat} {x : Smp} {lvl : Nat} (h : (lvl : Int) < asr (mag2 x.cx) 6)
    (hsmall : (alpha : Int) * (asr (mag2 x.cx) 6 - lvl) < 2 ^ 16) : agcNext alpha x lvl = lvl := by
  unfold agcNext
  rw [asr_eq_zero (mul_nonneg (Int.natCast_nonneg alpha) (sub_nonneg.2 h.le)) hsmall, add_zero]

/-- Settles O30: the register holds `agcNext` exactly, and each corner is the floor of R181 at that sign of the
difference. -/
theorem levelTracksThePower : Obligations.LevelTracksThePower := by
  intro x s
  obtain ⟨hpow, hpow'⟩ := samplePower_mem x
  obtain ⟨hlow, hhigh⟩ := agcNext_between (sel_lt s.bw s.cfg.agcAlpha) x s.agcLvl.toNat
  simp only [agcTrack_agcLvl_toNat]
  refine ⟨hpow, hpow', rfl, hlow, hhigh, fun hzero => ?frozen, fun hpos hbelow => ?falls, agcNext_eq_of_small_rise⟩
  case frozen => rw [Int.natCast_eq_zero.1 hzero, agcNext_of_alpha_zero]
  case falls => exact agcNext_lt_of_power_lt (by exact_mod_cast hpos) hbelow

end Sys2Proof.Machine
end

section
/-! The gain of the AGC (R183) and its address in the register space. -/

namespace Sys2Proof.Machine

/-- `isqrt` is the only number with its two bounds (R12). -/
theorem isqrt_eq_of_bounds {n r : Nat} (h0 : r * r ≤ n) (h1 : n < (r + 1) * (r + 1)) : isqrt n = r :=
  le_antisymm (Nat.lt_succ_iff.1 (isqrt_le_of_lt h1)) (le_isqrt h0)

/-- The floor of the quotient in `agcGain` costs nothing: a square is at most `2^56 / m` exactly when it is, times
`m`, at most `2^56`. -/
theorem sq_le_gainQuotient_iff (r lvl : Nat) : r * r ≤ 2 ^ 56 / max lvl 1 ↔ r * r * max lvl 1 ≤ 2 ^ 56 :=
  Nat.le_div_iff_mul_le (by omega)

theorem gainQuotient_lt_sq_iff (r lvl : Nat) : 2 ^ 56 / max lvl 1 < r * r ↔ 2 ^ 56 < r * r * max lvl 1 :=
  Nat.div_lt_iff_lt_mul (by omega)

/-- R183: the gain is the largest `g` with `g * g * max(lvl, 1)` at most `2^56`. -/
theorem agcGain_spec (lvl : Nat) : agcGain lvl * agcGain lvl * max lvl 1 ≤ 2 ^ 56 ∧
    2 ^ 56 < (agcGain lvl + 1) * (agcGain lvl + 1) * max lvl 1 := by
  rw [← sq_le_gainQuotient_iff, ← gainQuotient_lt_sq_iff]
  exact isqrt_spec _

theorem agcGain_eq_of_bounds {lvl g : Nat} (h0 : g * g * max lvl 1 ≤ 2 ^ 56)
    (h1 : 2 ^ 56 < (g + 1) * (g + 1) * max lvl 1) : agcGain lvl = g :=
  isqrt_eq_of_bounds ((sq_le_gainQuotient_iff g lvl).2 h0) ((gainQuotient_lt_sq_iff (g + 1) lvl).2 h1)

/-- R183: a level of 32 bits leaves a gain of at least 4096. -/
theorem le_agcGain {lvl : Nat} (h : lvl < 2 ^ 32) : 4096 ≤ agcGain lvl :=
  le_isqrt ((sq_le_gainQuotient_iff 4096 lvl).2 (by omega))

/-- R183: the largest gain is that of the level 1. -/
theorem agcGain_le (lvl : Nat) : agcGain lvl ≤ 2 ^ 28 := by
  have hquot : 2 ^ 56 / max lvl 1 ≤ 2 ^ 56 := Nat.div_le_self _ _
  exact Nat.lt_succ_iff.1 (isqrt_le_of_lt (hquot.trans_lt (by norm_num)))

/-- RDREG is the read frame over the register space (R134). -/
theorem exec_rdreg (addr : BitVec 16) (s : State) :
    exec (.rdreg addr) s = .next (readFrame (readReg s addr) s) := rfl

/-- RDREG of an address that has a register answers it (R134). -/
theorem exec_rdreg_of_readReg {s : State} {addr : BitVec 16} {v : BitVec 32} (h : readReg s addr = some v) :
    exec (.rdreg addr) s = .next { s with resp := some (respWord .ok v) } := by
  rw [exec_rdreg, h]
  rfl

/-- R53: address 0x42 is the gain of the level. -/
theorem readReg_agcGain (s : State) : readReg s 0x42 = some (BitVec.ofNat 32 (agcGain s.agcLvl.toNat)) := rfl

/-- Settles O31: the bounds of R183 are those of the integer square root, which also fix the values of the examples. -/
theorem gainIsTheReciprocalRoot : Obligations.GainIsTheReciprocalRoot := by
  refine ⟨fun lvl => ?bounds, ?unity, ?double, ?largest, ?smallest, fun s => exec_rdreg_of_readReg (readReg_agcGain s)⟩
  case bounds =>
    obtain ⟨hfits, hnext⟩ := agcGain_spec lvl.toNat
    exact ⟨hfits, hnext, le_agcGain lvl.isLt, agcGain_le lvl.toNat⟩
  all_goals exact agcGain_eq_of_bounds (by norm_num) (by norm_num)

end Sys2Proof.Machine
end

section
/-! The wrap of the timing unit (R224): one number of wraps moves the index, the soft index and the timer together. -/

namespace Sys2Proof.Machine

/-- `wrap_idx` is `-(hardIdx soft / NPFB)` wraps in one go, counted as in `Wrap.shift` (R224). -/
theorem wrapIdx_eq_shift {n : Nat} (hn : 1 ≤ n) (soft timer : Int) :
    wrapIdx n soft timer = Wrap.shift n (-(hardIdx soft / n)) ⟨hardIdx soft, soft, timer⟩ := by
  have hidx : hardIdx soft % n = hardIdx soft + -(hardIdx soft / n) * n := by rw [Int.emod_def]; ring
  have hsoft : soft - hardIdx soft / n * n * 2 ^ 24 = soft + -(hardIdx soft / n) * n * 2 ^ 24 := by ring
  rw [wrapIdx_eq n hn, hidx, hsoft, Wrap.shift, sub_neg_eq_add]

/-- Settles O53: the ranges are those of the closed form, and the number of wraps is that of `wrapIdx_eq_shift`. -/
theorem wrapMovesTheIndexIntoRange : Obligations.WrapMovesTheIndexIntoRange := by
  intro n soft timer hn
  obtain ⟨hidx_nonneg, hidx_lt, hround⟩ := wrapIdx_idx hn soft timer
  obtain ⟨hsoft_ge, hsoft_lt⟩ := wrapIdx_soft hn soft timer
  refine ⟨hidx_nonneg, Int.le_sub_one_of_lt hidx_lt, hround, hsoft_ge, hsoft_lt, -(hardIdx soft / n), ?moves⟩
  case moves =>
    rw [wrapIdx_eq_shift hn]
    exact ⟨rfl, rfl, rfl⟩

end Sys2Proof.Machine
end

section
/-! The packing of symbols into bytes (R252): the bits of one byte, and the symbols they are read from. -/

namespace Sys2Proof.Machine

/-! ### The bits of one byte -/

/-- The byte is its eight bits, put one under the other from bit 7 down to bit 0. -/
theorem packByte_eq_concat (sym : Nat → Byte) (bps j : Nat) : packByte sym bps j =
    (BitVec.ofBool (packBit sym bps j 0)
      |>.concat (packBit sym bps j 1)
      |>.concat (packBit sym bps j 2)
      |>.concat (packBit sym bps j 3)
      |>.concat (packBit sym bps j 4)
      |>.concat (packBit sym bps j 5)
      |>.concat (packBit sym bps j 6)
      |>.concat (packBit sym bps j 7)) := rfl

/-- R252: place `t` from the top is bit `7 - t` of the byte. -/
theorem packByte_getLsbD (sym : Nat → Byte) (bps j : Nat) {t : Nat} (ht : t < 8) :
    (packByte sym bps j).getLsbD (7 - t) = packBit sym bps j t := by
  rw [packByte_eq_concat]
  interval_cases t <;>
    simp only [Nat.reduceSub, BitVec.getLsbD_concat_zero, BitVec.getLsbD_concat_succ, BitVec.getLsbD_ofBool,
      decide_true, Bool.true_and]

/-- Two packed bytes with the same bits from the top are the same byte. -/
theorem packByte_eq_of_packBit_eq {sym sym' : Nat → Byte} {bps j : Nat}
    (h : ∀ t < 8, packBit sym' bps j t = packBit sym bps j t) : packByte sym' bps j = packByte sym bps j := by
  refine BitVec.eq_of_getLsbD_eq fun i hi => ?_
  have hplace : i = 7 - (7 - i) := by omega
  have htop : 7 - i < 8 := by omega
  rw [hplace, packByte_getLsbD sym' bps j htop, packByte_getLsbD sym bps j htop]
  exact h _ htop

/-! ### The packed bytes -/

theorem pack_getD (sym : Nat → Byte) (bps : Nat) {j n : Nat} (hj : j < n) :
    (pack sym bps n).toList.getD j 0 = packByte sym bps j := by
  simp [pack, hj]

/-- The place `p` of a string of `a` bits lies in a symbol that the count `ceildiv a bps` includes. -/
theorem div_lt_ceildiv {p a bps : Nat} (hbps : 1 ≤ bps) (hp : p < a) : p / bps < ceildiv a bps :=
  calc p / bps < p / bps + 1 := Nat.lt_succ_self _
    _ = (p + bps) / bps := (Nat.add_div_right p hbps).symm
    _ ≤ (a + bps - 1) / bps := Nat.div_le_div_right (by omega)

/-- R252: packing reads no symbol past those that `n` bytes take up. -/
theorem pack_congr {sym sym' : Nat → Byte} {bps n : Nat} (hbps : 1 ≤ bps)
    (h : ∀ i, i < ceildiv (8 * n) bps → sym' i = sym i) : pack sym' bps n = pack sym bps n := by
  refine Subtype.ext (List.map_congr_left fun j hj => packByte_eq_of_packBit_eq fun t ht => ?_)
  have hplace : 8 * j + t < 8 * n := by
    have := List.mem_range.1 hj
    omega
  have hsym : sym' ((8 * j + t) / bps) = sym ((8 * j + t) / bps) := h _ (div_lt_ceildiv hbps hplace)
  simp only [packBit, hsym]

/-- Settles O44: byte `j` of the string is `packByte`, whose bits are `packBit`, and no place of the string is in a
symbol past the count. -/
theorem packingIsMostSignificantFirst : Obligations.PackingIsMostSignificantFirst := by
  intro sym bps n hbps _
  refine ⟨fun j t hj ht => ?bits, fun sym' h => pack_congr hbps h⟩
  case bits =>
    rw [pack_getD sym bps hj, packByte_getLsbD sym bps j ht]
    rfl

end Sys2Proof.Machine
end

section
/-! The state after hardware reset as a host reads it (R362): the run registers are all 0 but the gain, and the status
UNINIT refuses what needs an object. -/

namespace Sys2Proof.Machine

/-! ### The answers of a command by its code -/

/-- R98, R330: a command whose checks all pass answers OK with the data of its action. -/
theorem exec_of_answerCode_ok {i : Instr} {s : State} (h : answerCode build i s = .ok) :
    exec i s = .next (respond .ok (action build i s).2 (action build i s).1) := by
  rw [exec_eq, answered, h]

/-- R121, R330: the status check is the first, so a status outside the command's row decides the code. -/
theorem answerCode_of_status_refused {P : Params} {i : Instr} {s : State} (h : statusAccepts i s.status = false) :
    answerCode P i s = .errState := by
  simp [answerCode, h]

/-- R120: what a command that its status refuses writes is the response ERR_STATE with data 0. -/
theorem exec_of_status_refused {i : Instr} {s : State} (h : statusAccepts i s.status = false) :
    exec i s = .next { s with resp := some 0x0200000000000000 } := by
  rw [exec_eq, answered, answerCode_of_status_refused h]
  rfl

/-- RDREF has no status check, only that of the index (R135). -/
theorem answerCode_rdref_of_lt {P : Params} {addr : BitVec 16} (s : State) (h : addr.toNat < P.nMax) :
    answerCode P (.rdref addr) s = .ok := by
  simp [answerCode, statusAccepts, addressAccepts, h]

/-- RDMF has no status check, only that of the bank and the tap (R136). -/
theorem answerCode_rdmf_of_lt {P : Params} {bank tap : BitVec 8} (s : State) (hbank : bank.toNat < P.npfbMax)
    (htap : tap.toNat < P.tapsMax) : answerCode P (.rdmf bank tap) s = .ok := by
  simp [answerCode, statusAccepts, addressAccepts, hbank, htap]

/-- RDDMF has the checks of RDMF (R137). -/
theorem answerCode_rddmf_of_lt {P : Params} {bank tap : BitVec 8} (s : State) (hbank : bank.toNat < P.npfbMax)
    (htap : tap.toNat < P.tapsMax) : answerCode P (.rddmf bank tap) s = .ok := by
  simp [answerCode, statusAccepts, addressAccepts, hbank, htap]

/-! ### The run registers by address -/

theorem mem_of_atAddr {α : Type} {regs : List (Nat × α)} {addr : Nat} {v : α} (h : atAddr regs addr = some v) :
    (addr, v) ∈ regs := by
  induction regs with
  | nil => cases h
  | cons head rest ih =>
    obtain ⟨a, w⟩ := head
    rw [atAddr] at h
    split at h
    next hit => cases h; rw [hit]; exact List.mem_cons_self
    next => exact List.mem_cons_of_mem _ (ih h)

/-- R53: from 0x40 to 0x68 every address has a register, and RDREG reads its row of `runRegs`. -/
theorem readReg_mem_runRegs (s : State) {addr : BitVec 16} (hlo : 0x40 ≤ addr.toNat) (hhi : addr.toNat ≤ 0x68) :
    ∃ v, readReg s addr = some v ∧ (addr.toNat, v) ∈ runRegs s := by
  have hnotConfig : cfgRegAt addr = none := by
    rw [← Option.not_isSome_iff_eq_none, cfgRegAt_isSome]
    simp only [configAddress, Bool.or_eq_true, Bool.and_eq_true, decide_eq_true_eq]
    omega
  obtain ⟨v, hv⟩ : ∃ v, atAddr (runRegs s) addr.toNat = some v := by
    rw [← Option.isSome_iff_exists, runRegs_isSome]
    simp [hlo, hhi]
  exact ⟨v, by simp [readReg, hnotConfig, hv], mem_of_atAddr hv⟩

/-! ### After hardware reset -/

/-- R362: the registers of R53 are 0 in the reset state, but for the gain of a zero level. -/
theorem runRegs_reset : ∀ row ∈ runRegs State.reset, row.2 = if row.1 = 0x42 then 0x10000000 else 0 := by
  decide +kernel

/-- No register of R53 holds what the host has pending or how many resets there were. -/
theorem runRegs_hresets_inputs (s : State) (n : Nat) (ins : List Input) :
    runRegs { s with hresets := n, inputs := ins } = runRegs s := rfl

theorem readReg_reset (n : Nat) (ins : List Input) {addr : BitVec 16} (hlo : 0x40 ≤ addr.toNat)
    (hhi : addr.toNat ≤ 0x68) : readReg { State.reset with hresets := n, inputs := ins } addr =
      some (if addr = 0x42 then 0x10000000 else 0) := by
  obtain ⟨v, hread, hrow⟩ := readReg_mem_runRegs { State.reset with hresets := n, inputs := ins } hlo hhi
  rw [runRegs_hresets_inputs] at hrow
  have hvalue : v = if addr.toNat = 0x42 then 0x10000000 else 0 := runRegs_reset _ hrow
  have hgain : addr.toNat = 0x42 ↔ addr = 0x42 := BitVec.toNat_inj (y := 0x42)
  simp only [hread, hvalue, hgain]

/-- R121: UNINIT is in the row of none of the commands that need an object. -/
theorem statusAccepts_uninit_of_needs_object {i : Instr}
    (h : (∃ a, i = .rdhdr a) ∨ (∃ a, i = .rdpay a) ∨ (∃ x y, i = .push x y) ∨ i = .srst ∨ i = .dstr) :
    statusAccepts i .uninit = false := by
  rcases h with ⟨_, rfl⟩ | ⟨_, rfl⟩ | ⟨_, _, rfl⟩ | rfl | rfl <;> rfl

/-- Settles O10: the register reads follow the rows of the map, the table reads pass their only check, and the
commands that need an object fail the check of the status. -/
theorem hardwareResetReads : Obligations.HardwareResetReads := by
  intro n ins s
  refine ⟨fun addr hlo hhi => ?run, fun addr r hreg => ?config, fun addr hidx => ?ref, fun b t hbank htap => ?coefs,
    fun i hi => ?refused⟩
  case run => exact exec_rdreg_of_readReg (readReg_reset n ins hlo hhi)
  case config => exact exec_rdreg_of_readReg (readReg_of_cfgRegAt s hreg)
  case ref => exact ⟨_, exec_of_answerCode_ok (answerCode_rdref_of_lt s hidx)⟩
  case coefs =>
    exact ⟨⟨_, exec_of_answerCode_ok (answerCode_rdmf_of_lt s hbank htap)⟩,
      ⟨_, exec_of_answerCode_ok (answerCode_rddmf_of_lt s hbank htap)⟩⟩
  case refused => exact exec_of_status_refused (statusAccepts_uninit_of_needs_object hi)

end Sys2Proof.Machine
end

section
/-! The decoder and the encoder are inverse (R90 to R103): each word is read by the row its opcode selects. -/

namespace Sys2Proof

/-! ### The reserved bits of a format are what its row masks -/

theorem and_byteOnes (x : BitVec 8) : x &&& 255#8 = x := BitVec.and_allOnes

theorem and_halfOnes (x : BitVec 16) : x &&& 65535#16 = x := BitVec.and_allOnes

theorem eq_zero_iff_toNat {n : Nat} (x : BitVec n) : x = 0 ↔ x.toNat = 0 := by
  rw [← BitVec.toNat_inj, BitVec.ofNat_eq_ofNat, BitVec.toNat_ofNat, Nat.zero_mod]

section
variable {w : Word} {r : OpRow} {op : BitVec 8}

/-- Format Z (R91): everything below the opcode is reserved. -/
theorem accepts_formatZ (hm : r.mask = 0xFF#8 ++ 0xFF#8 ++ 0xFFFF#16 ++ 0xFFFF#16 ++ 0xFFFF#16)
    (hv : r.matchBits = op ++ 0#8 ++ 0#16 ++ 0#16 ++ 0#16) (hop : field w 56 8 = op) :
    r.accepts w = (field w 0 56 == 0) := by
  rw [Bool.eq_iff_iff, accepts_cut w hm hv, beq_iff_eq]
  simp only [hop, true_and, and_byteOnes, and_halfOnes, eq_zero_iff_toNat, field_toNat]
  omega

/-- Format A (R92): the bits around `addr` are reserved. -/
theorem accepts_formatA (hm : r.mask = 0xFF#8 ++ 0xFF#8 ++ 0#16 ++ 0xFFFF#16 ++ 0xFFFF#16)
    (hv : r.matchBits = op ++ 0#8 ++ 0#16 ++ 0#16 ++ 0#16) (hop : field w 56 8 = op) :
    r.accepts w = (field w 48 8 == 0 && field w 0 32 == 0) := by
  rw [Bool.eq_iff_iff, accepts_cut w hm hv, Bool.and_eq_true, beq_iff_eq, beq_iff_eq]
  simp only [hop, true_and, BitVec.and_zero, and_byteOnes, and_halfOnes, eq_zero_iff_toNat, field_toNat,
    BitVec.toNat_ofNat, Nat.zero_mod]
  omega

/-- Format W (R93): only the byte under the opcode is reserved. -/
theorem accepts_formatW (hm : r.mask = 0xFF#8 ++ 0xFF#8 ++ 0#16 ++ 0#16 ++ 0#16)
    (hv : r.matchBits = op ++ 0#8 ++ 0#16 ++ 0#16 ++ 0#16) (hop : field w 56 8 = op) :
    r.accepts w = (field w 48 8 == 0) := by
  rw [Bool.eq_iff_iff, accepts_cut w hm hv, beq_iff_eq]
  simp [hop, and_byteOnes]

/-- Format C (R94): the bits on both sides of bank and tap are reserved. -/
theorem accepts_formatC (hm : r.mask = 0xFF#8 ++ 0xFF#8 ++ 0#16 ++ 0xFFFF#16 ++ 0#16)
    (hv : r.matchBits = op ++ 0#8 ++ 0#16 ++ 0#16 ++ 0#16) (hop : field w 56 8 = op) :
    r.accepts w = (field w 48 8 == 0 && field w 16 16 == 0) := by
  rw [Bool.eq_iff_iff, accepts_cut w hm hv, Bool.and_eq_true, beq_iff_eq, beq_iff_eq]
  simp [hop, and_byteOnes, and_halfOnes]

/-- Format S (R95): the 24 bits under the opcode are reserved. -/
theorem accepts_formatS (hm : r.mask = 0xFF#8 ++ 0xFF#8 ++ 0xFFFF#16 ++ 0#16 ++ 0#16)
    (hv : r.matchBits = op ++ 0#8 ++ 0#16 ++ 0#16 ++ 0#16) (hop : field w 56 8 = op) :
    r.accepts w = (field w 32 24 == 0) := by
  rw [Bool.eq_iff_iff, accepts_cut w hm hv, beq_iff_eq]
  simp only [hop, true_and, BitVec.and_zero, and_byteOnes, and_halfOnes, eq_zero_iff_toNat, field_toNat,
    BitVec.toNat_ofNat, Nat.zero_mod, and_true]
  omega

/-! ### A word with no reserved bit set is the format of its fields -/

theorem encodeZ_of_fields (hop : field w 56 8 = op) (hz : field w 0 56 = 0) : encodeZ op = w := by
  have hz := (eq_zero_iff_toNat _).1 hz
  apply word_ext
  rw [field_toNat] at hz
  rw [encodeZ_toNat, ← hop, field_toNat]
  omega

theorem encodeA_of_fields (hop : field w 56 8 = op) (hhi : field w 48 8 = 0) (hlo : field w 0 32 = 0) :
    encodeA op (field w 32 16) = w := by
  have hhi := (eq_zero_iff_toNat _).1 hhi
  have hlo := (eq_zero_iff_toNat _).1 hlo
  apply word_ext
  rw [field_toNat] at hhi hlo
  rw [encodeA_toNat, ← hop, field_toNat, field_toNat]
  omega

theorem encodeW_of_fields (hop : field w 56 8 = op) (hhi : field w 48 8 = 0) :
    encodeW op (field w 32 16) (field w 0 32) = w := by
  have hhi := (eq_zero_iff_toNat _).1 hhi
  apply word_ext
  rw [field_toNat] at hhi
  rw [encodeW_toNat, ← hop, field_toNat, field_toNat, field_toNat]
  omega

theorem encodeC_of_fields (hop : field w 56 8 = op) (hhi : field w 48 8 = 0) (hmid : field w 16 16 = 0) :
    encodeC op (field w 40 8) (field w 32 8) (field w 0 16) = w := by
  have hhi := (eq_zero_iff_toNat _).1 hhi
  have hmid := (eq_zero_iff_toNat _).1 hmid
  apply word_ext
  rw [field_toNat] at hhi hmid
  rw [encodeC_toNat, ← hop, field_toNat, field_toNat, field_toNat, field_toNat]
  omega

theorem encodeS_of_fields (hop : field w 56 8 = op) (hmid : field w 32 24 = 0) :
    encodeS op (field w 16 16) (field w 0 16) = w := by
  have hmid := (eq_zero_iff_toNat _).1 hmid
  apply word_ext
  rw [field_toNat] at hmid
  rw [encodeS_toNat, ← hop, field_toNat, field_toNat, field_toNat]
  omega

end

/-- Two adjacent fields are one field (R96, R97). -/
theorem field_append (w : Word) (lo m n : Nat) : field w (lo + n) m ++ field w lo n = field w lo (m + n) := by
  apply BitVec.eq_of_toNat_eq
  simp only [append_toNat, field_toNat]
  rw [Nat.add_comm m n, Nat.pow_add 2 n m, Nat.mod_mul, Nat.div_div_eq_div_mul, ← Nat.pow_add]
  ring

/-! ### Every word is read by the row of its opcode, or by none -/

/-- `i` is how the word is read (R103): its row has the opcode, the row's test is the whole test, and where it passes
the word is the encoding. -/
structure ReadAs (w : Word) (i : Instr) : Prop where
  row_mem : i.row ∈ opTable
  opcode : field w 56 8 = i.row.opcode
  decode_eq : decode w = guardReserved (i.row.accepts w) i
  encode_eq : i.row.accepts w = true → encode i = w

section
variable {w : Word} {i : Instr} {op : BitVec 8}

theorem readAs_formatZ (hmem : i.row ∈ opTable)
    (hm : i.row.mask = 0xFF#8 ++ 0xFF#8 ++ 0xFFFF#16 ++ 0xFFFF#16 ++ 0xFFFF#16)
    (hv : i.row.matchBits = op ++ 0#8 ++ 0#16 ++ 0#16 ++ 0#16) (hrow : i.row.opcode = op)
    (henc : encode i = encodeZ op) (hop : field w 56 8 = op)
    (hdec : decode w = guardReserved (field w 0 56 == 0) i) : ReadAs w i := by
  have hacc := accepts_formatZ hm hv hop
  refine ⟨hmem, hop.trans hrow.symm, by rw [hacc, hdec], fun hok => henc.trans ?_⟩
  exact encodeZ_of_fields hop (beq_iff_eq.1 (hacc ▸ hok))


theorem readAs_formatA (hmem : i.row ∈ opTable)
    (hm : i.row.mask = 0xFF#8 ++ 0xFF#8 ++ 0#16 ++ 0xFFFF#16 ++ 0xFFFF#16)
    (hv : i.row.matchBits = op ++ 0#8 ++ 0#16 ++ 0#16 ++ 0#16) (hrow : i.row.opcode = op)
    (henc : encode i = encodeA op (field w 32 16)) (hop : field w 56 8 = op)
    (hdec : decode w = guardReserved (field w 48 8 == 0 && field w 0 32 == 0) i) : ReadAs w i := by
  have hacc := accepts_formatA hm hv hop
  refine ⟨hmem, hop.trans hrow.symm, by rw [hacc, hdec], fun hok => henc.trans ?_⟩
  obtain ⟨h1, h2⟩ := Bool.and_eq_true_iff.1 (hacc ▸ hok)
  exact encodeA_of_fields hop (beq_iff_eq.1 h1) (beq_iff_eq.1 h2)


theorem readAs_formatW (hmem : i.row ∈ opTable)
    (hm : i.row.mask = 0xFF#8 ++ 0xFF#8 ++ 0#16 ++ 0#16 ++ 0#16)
    (hv : i.row.matchBits = op ++ 0#8 ++ 0#16 ++ 0#16 ++ 0#16) (hrow : i.row.opcode = op)
    (henc : encode i = encodeW op (field w 32 16) (field w 0 32)) (hop : field w 56 8 = op)
    (hdec : decode w = guardReserved (field w 48 8 == 0) i) : ReadAs w i := by
  have hacc := accepts_formatW hm hv hop
  refine ⟨hmem, hop.trans hrow.symm, by rw [hacc, hdec], fun hok => henc.trans ?_⟩
  exact encodeW_of_fields hop (beq_iff_eq.1 (hacc ▸ hok))


theorem readAs_formatC (hmem : i.row ∈ opTable)
    (hm : i.row.mask = 0xFF#8 ++ 0xFF#8 ++ 0#16 ++ 0xFFFF#16 ++ 0#16)
    (hv : i.row.matchBits = op ++ 0#8 ++ 0#16 ++ 0#16 ++ 0#16) (hrow : i.row.opcode = op)
    (henc : encode i = encodeC op (field w 40 8) (field w 32 8) (field w 0 16)) (hop : field w 56 8 = op)
    (hdec : decode w = guardReserved (field w 48 8 == 0 && field w 16 16 == 0) i) : ReadAs w i := by
  have hacc := accepts_formatC hm hv hop
  refine ⟨hmem, hop.trans hrow.symm, by rw [hacc, hdec], fun hok => henc.trans ?_⟩
  obtain ⟨h1, h2⟩ := Bool.and_eq_true_iff.1 (hacc ▸ hok)
  exact encodeC_of_fields hop (beq_iff_eq.1 h1) (beq_iff_eq.1 h2)


theorem readAs_formatS (hmem : i.row ∈ opTable)
    (hm : i.row.mask = 0xFF#8 ++ 0xFF#8 ++ 0xFFFF#16 ++ 0#16 ++ 0#16)
    (hv : i.row.matchBits = op ++ 0#8 ++ 0#16 ++ 0#16 ++ 0#16) (hrow : i.row.opcode = op)
    (henc : encode i = encodeS op (field w 16 16) (field w 0 16)) (hop : field w 56 8 = op)
    (hdec : decode w = guardReserved (field w 32 24 == 0) i) : ReadAs w i := by
  have hacc := accepts_formatS hm hv hop
  refine ⟨hmem, hop.trans hrow.symm, by rw [hacc, hdec], fun hok => henc.trans ?_⟩
  exact encodeS_of_fields hop (beq_iff_eq.1 (hacc ▸ hok))


end

/-- R103: the opcode selects the row by which a word is read, or no row has the opcode. -/
theorem decode_cases (w : Word) :
    (∃ i, ReadAs w i) ∨ (decode w = .error .unassignedOpcode ∧ ∀ r ∈ opTable, field w 56 8 ≠ r.opcode) := by
  obtain ⟨d, hd⟩ : ∃ d, decode w = d := ⟨_, rfl⟩
  have hread := hd
  unfold decode at hread
  split at hread
  next hop =>
    exact .inl ⟨.nop, readAs_formatZ (op := 0x00) (by simp [opTable, Instr.row]) rfl rfl rfl
      rfl (BitVec.eq_of_toNat_eq hop) (hd.trans hread.symm)⟩
  next hop =>
    exact .inl ⟨.init, readAs_formatZ (op := 0x01) (by simp [opTable, Instr.row]) rfl rfl rfl
      rfl (BitVec.eq_of_toNat_eq hop) (hd.trans hread.symm)⟩
  next hop =>
    exact .inl ⟨.srst, readAs_formatZ (op := 0x02) (by simp [opTable, Instr.row]) rfl rfl rfl
      rfl (BitVec.eq_of_toNat_eq hop) (hd.trans hread.symm)⟩
  next hop =>
    exact .inl ⟨.dstr, readAs_formatZ (op := 0x03) (by simp [opTable, Instr.row]) rfl rfl rfl
      rfl (BitVec.eq_of_toNat_eq hop) (hd.trans hread.symm)⟩
  next hop =>
    exact .inl ⟨.wrcfg _ _, readAs_formatW (op := 0x10) (by simp [opTable, Instr.row]) rfl rfl rfl
      rfl (BitVec.eq_of_toNat_eq hop) (hd.trans hread.symm)⟩
  next hop =>
    exact .inl ⟨.wrref _ _ _, readAs_formatW (op := 0x11) (by simp [opTable, Instr.row]) rfl rfl rfl
      (congrArg (encodeW _ _) (field_append w 0 16 16)) (BitVec.eq_of_toNat_eq hop) (hd.trans hread.symm)⟩
  next hop =>
    exact .inl ⟨.wrmf _ _ _, readAs_formatC (op := 0x12) (by simp [opTable, Instr.row]) rfl rfl rfl
      rfl (BitVec.eq_of_toNat_eq hop) (hd.trans hread.symm)⟩
  next hop =>
    exact .inl ⟨.wrdmf _ _ _, readAs_formatC (op := 0x13) (by simp [opTable, Instr.row]) rfl rfl rfl
      rfl (BitVec.eq_of_toNat_eq hop) (hd.trans hread.symm)⟩
  next hop =>
    exact .inl ⟨.rdreg _, readAs_formatA (op := 0x18) (by simp [opTable, Instr.row]) rfl rfl rfl
      rfl (BitVec.eq_of_toNat_eq hop) (hd.trans hread.symm)⟩
  next hop =>
    exact .inl ⟨.rdref _, readAs_formatA (op := 0x19) (by simp [opTable, Instr.row]) rfl rfl rfl
      rfl (BitVec.eq_of_toNat_eq hop) (hd.trans hread.symm)⟩
  next hop =>
    exact .inl ⟨.rdmf _ _, readAs_formatA (op := 0x1A) (by simp [opTable, Instr.row]) rfl rfl rfl
      (congrArg (encodeA _) (field_append w 32 8 8)) (BitVec.eq_of_toNat_eq hop) (hd.trans hread.symm)⟩
  next hop =>
    exact .inl ⟨.rddmf _ _, readAs_formatA (op := 0x1B) (by simp [opTable, Instr.row]) rfl rfl rfl
      (congrArg (encodeA _) (field_append w 32 8 8)) (BitVec.eq_of_toNat_eq hop) (hd.trans hread.symm)⟩
  next hop =>
    exact .inl ⟨.rdhdr _, readAs_formatA (op := 0x1C) (by simp [opTable, Instr.row]) rfl rfl rfl
      rfl (BitVec.eq_of_toNat_eq hop) (hd.trans hread.symm)⟩
  next hop =>
    exact .inl ⟨.rdpay _, readAs_formatA (op := 0x1D) (by simp [opTable, Instr.row]) rfl rfl rfl
      rfl (BitVec.eq_of_toNat_eq hop) (hd.trans hread.symm)⟩
  next hop =>
    exact .inl ⟨.push _ _, readAs_formatS (op := 0x20) (by simp [opTable, Instr.row]) rfl rfl rfl
      rfl (BitVec.eq_of_toNat_eq hop) (hd.trans hread.symm)⟩
  next =>
    refine .inr ⟨hd.trans hread.symm, fun r hr hop => ?_⟩
    simp only [opTable, List.mem_cons, List.not_mem_nil, or_false] at hr
    rcases hr with rfl | rfl | rfl | rfl | rfl | rfl | rfl | rfl | rfl | rfl | rfl | rfl | rfl | rfl | rfl <;>
      simp_all [Instr.row]

/-! ### The halves of a field that carries two operands -/

theorem encodeW_re (op : BitVec 8) (addr re im : BitVec 16) : field (encodeW op addr (re ++ im)) 16 16 = re :=
  BitVec.eq_of_toNat_eq (by rw [field_toNat, encodeW_toNat, append_toNat]; omega)

theorem encodeW_im (op : BitVec 8) (addr re im : BitVec 16) : field (encodeW op addr (re ++ im)) 0 16 = im :=
  BitVec.eq_of_toNat_eq (by rw [field_toNat, encodeW_toNat, append_toNat]; omega)

theorem encodeA_bank (op bank tap : BitVec 8) : field (encodeA op (bank ++ tap)) 40 8 = bank :=
  BitVec.eq_of_toNat_eq (by rw [field_toNat, encodeA_toNat, append_toNat]; omega)

theorem encodeA_tap (op bank tap : BitVec 8) : field (encodeA op (bank ++ tap)) 32 8 = tap :=
  BitVec.eq_of_toNat_eq (by rw [field_toNat, encodeA_toNat, append_toNat]; omega)

/-- R103: the decoder reads every command back from its word. -/
theorem decode_encode (i : Instr) : decode (encode i) = .ok i := by
  cases i with
  | nop | init | srst | dstr => simp [encode, decode, guardReserved, encodeZ_op, encodeZ_body]
  | wrcfg addr data => simp [encode, decode, guardReserved, encodeW_op, encodeW_hi, encodeW_addr, encodeW_data]
  | wrref addr re im =>
    simp [encode, decode, guardReserved, encodeW_op, encodeW_hi, encodeW_addr, encodeW_re, encodeW_im]
  | wrmf | wrdmf =>
    simp [encode, decode, guardReserved, encodeC_op, encodeC_hi, encodeC_mid, encodeC_bank, encodeC_tap, encodeC_coef]
  | rdreg | rdref | rdhdr | rdpay =>
    simp [encode, decode, guardReserved, encodeA_op, encodeA_hi, encodeA_addr, encodeA_data]
  | rdmf | rddmf =>
    simp [encode, decode, guardReserved, encodeA_op, encodeA_hi, encodeA_data, encodeA_bank, encodeA_tap]
  | push re im => simp [encode, decode, guardReserved, encodeS_op, encodeS_mid, encodeS_re, encodeS_im]

theorem guardReserved_eq_ok {ok : Bool} {i j : Instr} (h : guardReserved ok i = .ok j) : ok = true ∧ i = j := by
  cases ok with
  | true => exact ⟨rfl, Except.ok.inj h⟩
  | false => cases h

/-- A word that decodes is read as the command it decodes to, and passes its row's test. -/
theorem readAs_of_decode_ok {w : Word} {i : Instr} (h : decode w = .ok i) : ReadAs w i ∧ i.row.accepts w = true := by
  obtain ⟨j, hread⟩ | ⟨herr, -⟩ := decode_cases w
  · obtain ⟨hok, rfl⟩ := guardReserved_eq_ok (hread.decode_eq.symm.trans h)
    exact ⟨hread, hok⟩
  · rw [herr] at h; cases h

/-- Settles O1: the fields of an encoding are its operands, and a word whose reserved bits are 0 is made of its
fields. -/
theorem decodeAndEncodeAgree : Obligations.DecodeAndEncodeAgree := by
  refine ⟨fun i _ => decode_encode i, fun w i h => ?_⟩
  obtain ⟨hread, hok⟩ := readAs_of_decode_ok h
  exact hread.encode_eq hok

/-! ### The opcode map -/

/-- R101: no two rows share an opcode. -/
theorem opTable_opcodes_differ : opTable.Pairwise fun r q => r.opcode ≠ q.opcode := by decide

/-- A row of the map is found by its opcode. -/
theorem opTable_row_unique : ∀ r ∈ opTable, ∀ q ∈ opTable, r.opcode = q.opcode → r = q := by decide

/-- R101: the mask of every row covers the opcode, which its match names. -/
theorem opTable_opcode_masked : ∀ r ∈ opTable, field r.mask 56 8 = 0xFF#8 ∧ field r.matchBits 56 8 = r.opcode := by
  decide

theorem opcode_of_accepts {r : OpRow} {w : Word} (hr : r ∈ opTable) (h : r.accepts w = true) :
    field w 56 8 = r.opcode := by
  obtain ⟨hmask, hmatch⟩ := opTable_opcode_masked r hr
  calc field w 56 8 = field w 56 8 &&& field r.mask 56 8 := by rw [hmask, and_byteOnes]
    _ = field (w &&& r.mask) 56 8 := BitVec.extractLsb'_and.symm
    _ = field r.matchBits 56 8 := by rw [beq_iff_eq.1 h]
    _ = r.opcode := hmatch

/-- A word whose opcode is that of a row is read by this row. -/
theorem readAs_of_opcode {r : OpRow} {w : Word} (hr : r ∈ opTable) (h : field w 56 8 = r.opcode) :
    ∃ i, ReadAs w i ∧ i.row = r := by
  obtain ⟨i, hread⟩ | ⟨-, hnone⟩ := decode_cases w
  · exact ⟨i, hread, opTable_row_unique _ hread.row_mem _ hr (hread.opcode.symm.trans h)⟩
  · exact absurd h (hnone r hr)

/-- Settles O2: the row of a word's opcode decides how it is read, and its test whether it is. -/
theorem legalWordsAreTheOpcodeMap : Obligations.LegalWordsAreTheOpcodeMap := by
  refine ⟨fun w => ⟨?legal, ?read⟩, fun w i h => ?row, fun w => ⟨?unassigned, ?unread⟩, fun w => ⟨?reserved, ?reject⟩,
    opTable_opcodes_differ⟩
  case legal =>
    rintro ⟨i, h⟩
    obtain ⟨hread, hok⟩ := readAs_of_decode_ok h
    exact ⟨_, hread.row_mem, hok⟩
  case read =>
    rintro ⟨r, hr, hok⟩
    obtain ⟨i, hread, rfl⟩ := readAs_of_opcode hr (opcode_of_accepts hr hok)
    exact ⟨i, by rw [hread.decode_eq, hok]; rfl⟩
  case row =>
    obtain ⟨hread, hok⟩ := readAs_of_decode_ok h
    exact ⟨hread.row_mem, hok⟩
  case unassigned =>
    intro h r hr hop
    obtain ⟨i, hread, rfl⟩ := readAs_of_opcode hr hop
    have hd := hread.decode_eq.symm.trans h
    cases hok : i.row.accepts w <;> rw [hok] at hd <;> cases hd
  case unread =>
    intro hnone
    obtain ⟨i, hread⟩ | ⟨herr, -⟩ := decode_cases w
    · exact absurd hread.opcode (hnone _ hread.row_mem)
    · exact herr
  case reserved =>
    intro h
    obtain ⟨i, hread⟩ | ⟨herr, -⟩ := decode_cases w
    · refine ⟨_, hread.row_mem, hread.opcode, ?_⟩
      have hd := hread.decode_eq.symm.trans h
      cases hok : i.row.accepts w with
      | false => rfl
      | true => rw [hok] at hd; cases hd
    · rw [herr] at h; cases h
  case reject =>
    rintro ⟨r, hr, hop, hno⟩
    obtain ⟨i, hread, rfl⟩ := readAs_of_opcode hr hop
    rw [hread.decode_eq, hno]
    rfl

/-- Settles O3: the decoder evaluated on the words the spec writes out. -/
theorem writtenWordsDecode : Obligations.WrittenWordsDecode := by
  unfold Obligations.WrittenWordsDecode
  decide

end Sys2Proof
end

section
/-! Pseudo-instructions (R111) and the step (R70, R102, R361). -/

namespace Sys2Proof

/-! ### Pseudo-instructions -/

theorem indexed_getElem? {α : Type} (f : Nat → α → Instr) (i : Nat) (vs : List α) (n : Nat) :
    (indexed f i vs)[n]? = (vs[n]?).map (f (i + n)) := by
  induction vs generalizing i n with
  | nil => rfl
  | cons v vs ih =>
    cases n with
    | zero => rfl
    | succ n =>
      have hplace : i + 1 + n = i + (n + 1) := by omega
      simp only [indexed, List.getElem?_cons_succ, ih, hplace]

/-- An indexed load, read at one element: the write at that index (R111). -/
theorem indexed_zero_getElem? {α : Type} (f : Nat → α → Instr) (vs : List α) (n : Nat) :
    (indexed f 0 vs)[n]? = (vs[n]?).map (f n) := by
  rw [indexed_getElem?, Nat.zero_add]

/-- Settles O4: an indexed load is a map by index, and the length bound of a well-formed load keeps each index within
its field. -/
theorem pseudoInstructionsExpand : Obligations.PseudoInstructionsExpand := by
  refine ⟨rfl, rfl, rfl, fun xs n => List.getElem?_map, fun vs n hwf => ⟨indexed_zero_getElem? .., fun hn => ?ref⟩,
    fun b cs n hwf => ⟨indexed_zero_getElem? .., fun hn => ?mf⟩,
    fun b cs n hwf => ⟨indexed_zero_getElem? .., fun hn => ?dmf⟩⟩
  all_goals
    simp only [Pseudo.wellFormed, decide_eq_true_eq] at hwf
    exact Machine.toNat_ofNat_of_lt (by omega)

namespace Machine

/-! ### One step -/

theorem step_of_decode_ok {s : State} {w : Word} {rest : List Input} {i : Instr}
    (hin : s.inputs = .command w :: rest) (hdec : decode w = .ok i) : step s = exec i (beginCommand rest s) := by
  simp [step, hin, hdec]

theorem step_of_hreset {s : State} {rest : List Input} (hin : s.inputs = .hreset :: rest) :
    step s = .next (hardReset rest s) := by
  simp [step, hin]

theorem step_of_no_input {s : State} (hin : s.inputs = []) : step s = .next (waitForCommand s) := by
  simp [step, hin]

/-- Settles O5: the state a command begins in is the one the statement writes out. -/
theorem stepRunsTheDecodedCommand : Obligations.StepRunsTheDecodedCommand := fun _ _ _ _ hin hdec _ =>
  step_of_decode_ok hin hdec

/-- Settles O6: whichever the reason, an ILLEGAL word is only answered. -/
theorem illegalWordOnlyAnswers : Obligations.IllegalWordOnlyAnswers := by
  intro s w rest e hin hdec
  rw [step_of_decode_error hin hdec, answerIllegal_beginCommand]

/-- Settles O7: waiting empties the ports and no more. -/
theorem idleCoreHoldsItsState : Obligations.IdleCoreHoldsItsState := fun _ hin => step_of_no_input hin

/-- The reset state is as `run_init` leaves the run registers (R56). -/
theorem hardReset_runFresh (rest : List Input) (s : State) : RunFresh (hardReset rest s) :=
  ⟨⟨rfl, rfl, rfl, rfl, rfl, rfl⟩, rfl, rfl, rfl, rfl, rfl⟩

/-- Settles O8: every register of the state after HRESET is that of `State.reset`. -/
theorem hardwareResetLeavesResetValues : Obligations.HardwareResetLeavesResetValues := fun s rest hin =>
  ⟨hardReset rest s, step_of_hreset hin, rfl, rfl, rfl, rfl, rfl, rfl, rfl, rfl, rfl, rfl, rfl, rfl,
    hardReset_runFresh rest s⟩

end Machine
end Sys2Proof
end

section
/-! The answers of every command in their order (R120, R330), and what a command that is not a PUSH leaves alone. -/

namespace Sys2Proof.Machine

/-! ### The answers -/

/-- R330: the four answers of a command, each with the checks that lead to it. -/
theorem answered_cases (P : Params) (i : Instr) (s : State) :
    (answerCode P i s = .errState ∧ statusAccepts i s.status = false ∧ answered P i s = raise .errState s) ∨
    (answerCode P i s = .errAddr ∧ addressAccepts P s i = false ∧ answered P i s = raise .errAddr s) ∨
    (answerCode P i s = .errCfg ∧ i = .init ∧ statusAccepts i s.status = true ∧ configCheck P s ≠ 0 ∧
      answered P i s = respond .errCfg ((configCheck P s).setWidth 32)
        { s with status := .dead, cfgCause := configCheck P s }) ∨
    (answerCode P i s = .ok ∧ statusAccepts i s.status = true ∧ addressAccepts P s i = true ∧
      (i = .init → configCheck P s = 0) ∧
      answered P i s = respond .ok (action P i s).2 (action P i s).1) := by
  unfold answered answerCode
  cases hst : statusAccepts i s.status with
  | false => exact .inl ⟨rfl, rfl, rfl⟩
  | true =>
    cases had : addressAccepts P s i with
    | false => exact .inr (.inl ⟨rfl, rfl, rfl⟩)
    | true =>
      by_cases hcfg : i = .init ∧ configCheck P s ≠ 0
      · simp only [if_true, if_pos hcfg]
        exact .inr (.inr (.inl ⟨trivial, hcfg.1, trivial, hcfg.2, trivial⟩))
      · simp only [if_true, if_neg hcfg]
        exact .inr (.inr (.inr ⟨trivial, trivial, trivial, fun hi => not_not.1 fun hne => hcfg ⟨hi, hne⟩, trivial⟩))

/-- Settles O11: each of the four answers carries its own code. -/
theorem responseFollowsTheCheckOrder : Obligations.ResponseFollowsTheCheckOrder := by
  intro i s
  refine ⟨answered build i s, ?_⟩
  obtain ⟨hc, -, h⟩ | ⟨hc, -, h⟩ | ⟨hc, -, -, -, h⟩ | ⟨hc, -, -, -, h⟩ := answered_cases build i s <;>
    exact ⟨_, exec_eq i s, by rw [h, hc]; rfl⟩

/-- Settles O12: an error answer is the old state with the response, but for the two registers of a failed INIT. -/
theorem errorAnswersWriteNothing : Obligations.ErrorAnswersWriteNothing := by
  intro i s
  refine ⟨fun h => ?state, fun h => ?addr, fun h => ?cfg⟩
  all_goals
    rw [exec_eq, answered, h]
    rfl

/-! ### What a command leaves alone -/

/-- Whatever its answer, a command leaves alone what its action leaves alone, but that a failed INIT writes `status`
and `cfg_cause`. -/
theorem exec_keeps {i : Instr} {s t : State} (motive : State → Prop) (h : exec i s = .next t) (hself : motive s)
    (hact : statusAccepts i s.status = true → motive (action build i s).1)
    (hdead : i = .init → s.status ≠ .run → motive { s with status := .dead, cfgCause := configCheck build s })
    (hresp : ∀ c d u, motive u → motive (respond c d u)) : motive t := by
  rw [exec_next h]
  obtain ⟨-, -, he⟩ | ⟨-, -, he⟩ | ⟨-, hi, hst, -, he⟩ | ⟨-, hst, -, -, he⟩ := answered_cases build i s <;> rw [he]
  · exact hresp _ _ _ hself
  · exact hresp _ _ _ hself
  · exact hresp _ _ _ (hdead hi (by subst hi; simpa [statusAccepts] using hst))
  · exact hresp _ _ _ (hact hst)

theorem sameTables_refl (s : State) : SameTables s s := ⟨rfl, rfl, rfl, rfl, rfl, rfl⟩

theorem sameTables_of_sameBuild {s t : State} (h : SameBuild s t) : SameTables s t :=
  ⟨h.cfg, h.ref, h.mf, h.dmf, h.inputs, h.hresets⟩

/-- The action of a command RUN accepts: it leaves the tables alone, and all but DSTR the registers INIT fixed
(R65, R73). -/
theorem action_in_run {P : Params} {i : Instr} {s : State} (h : statusAccepts i .run = true) :
    SameTables s (action P i s).1 ∧ (i ≠ .dstr → (action P i s).1.status = s.status ∧
      (action P i s).1.der = s.der ∧ (action P i s).1.cfgCause = s.cfgCause) := by
  cases i with
  | init | wrcfg | wrref | wrmf | wrdmf => cases h
  | nop | srst | rdreg | rdref | rdmf | rddmf | rdhdr | rdpay =>
    exact ⟨⟨rfl, rfl, rfl, rfl, rfl, rfl⟩, fun _ => ⟨rfl, rfl, rfl⟩⟩
  | dstr => exact ⟨⟨rfl, rfl, rfl, rfl, rfl, rfl⟩, fun hne => absurd rfl hne⟩
  | push re im =>
    have hb := pushSample_build P (smpOf re im) s
    exact ⟨sameTables_of_sameBuild hb, fun _ => ⟨hb.status, hb.der, hb.cfgCause⟩⟩

/-- Settles O13: RUN refuses every command that writes the configuration or a table, and the others do not. -/
theorem configurationIsLockedInRun : Obligations.ConfigurationIsLockedInRun := by
  intro i s t hrun h
  refine exec_keeps (fun u => SameTables s u ∧ (i ≠ .dstr → u.status = .run ∧ u.der = s.der ∧ u.cfgCause = s.cfgCause))
    h ⟨sameTables_refl s, fun _ => ⟨hrun, rfl, rfl⟩⟩ (fun hst => ?_) (fun _ hne => absurd hrun hne)
    (fun _ _ _ hu => hu)
  rw [hrun] at hst
  rw [← hrun]
  exact action_in_run hst

/-- Only the action of PUSH touches the event port (R300). -/
theorem action_evt {P : Params} {i : Instr} {s : State} (h : ∀ re im, i ≠ .push re im) :
    (action P i s).1.evt = s.evt := by
  cases i with
  | push re im => exact absurd rfl (h re im)
  | wrcfg addr data =>
    simp only [action, putCfg]
    split <;> rfl
  | _ => rfl

/-- Settles O14: outside RUN a PUSH is refused, and no other command's action emits. -/
theorem onlyPushEmits : Obligations.OnlyPushEmits := by
  intro i s t h hcase
  refine exec_keeps (fun u => u.evt = s.evt) h rfl (fun hst => ?_) (fun _ _ => rfl) (fun _ _ _ hu => hu)
  rcases hcase with hpush | hrun
  · exact action_evt hpush
  · refine action_evt fun re im hi => hrun ?_
    subst hi
    simpa [statusAccepts] using hst

end Sys2Proof.Machine
end

section
/-! What no command reads: the value of `BETA` (R32, U13) but for the two commands on it, and the inputs still pending
(R70). Every operation commutes with a change of the two. -/

namespace Sys2Proof.Machine

/-- The state with `BETA` and the pending inputs changed. -/
def retouch (b : BitVec 32 → BitVec 32) (g : List Input → List Input) (s : State) : State :=
  { s with cfg := { s.cfg with beta := b s.cfg.beta }, inputs := g s.inputs }

/-- The same for a unit of PUSH, which answers something beside the state. -/
def retouchFst {α : Type} (b : BitVec 32 → BitVec 32) (g : List Input → List Input) (r : State × α) : State × α :=
  (retouch b g r.1, r.2)

section
variable {α : Type} (b : BitVec 32 → BitVec 32) (g : List Input → List Input)

@[simp] theorem retouchFst_fst (r : State × α) : (retouchFst b g r).1 = retouch b g r.1 := rfl

@[simp] theorem retouchFst_snd (r : State × α) : (retouchFst b g r).2 = r.2 := rfl

end

theorem peakSearch_of_seek {s : State} (m : Metric) (h : s.det.mode = .seek) : peakSearch m s =
    if passes s.cfg m then ({ s with det := { capture m s.det with mode := .findPeak } }, false) else (s, false) := by
  simp only [peakSearch, h]

theorem peakSearch_of_findPeak {s : State} (m : Metric) (h : s.det.mode = .findPeak) : peakSearch m s =
    if passes s.cfg m && (ageStep m s.det).candRho2.toNat < m.rho2 then
      ({ s with det := capture m (ageStep m s.det) }, false)
    else if cfgDebounce s.cfg ≤ (ageStep m s.det).age.toNat then (declareDet { s with det := ageStep m s.det }, true)
    else ({ s with det := ageStep m s.det }, false) := by
  simp only [peakSearch, h]

section
variable (b : BitVec 32 → BitVec 32) (g : List Input → List Input) (P : Params)

/-! ### The units of PUSH -/

theorem squelchUpdate_retouch (s : State) : squelchUpdate (retouch b g s) = retouch b g (squelchUpdate s) := by
  simp only [squelchUpdate, sqBelow, apply_ite (retouch b g)]
  rfl

theorem peakSearch_retouch (m : Metric) (s : State) :
    peakSearch m (retouch b g s) = retouchFst b g (peakSearch m s) := by
  cases hmode : s.det.mode with
  | seek =>
    rw [peakSearch_of_seek m hmode, peakSearch_of_seek (s := retouch b g s) m hmode, apply_ite (retouchFst b g)]
    rfl
  | findPeak =>
    rw [peakSearch_of_findPeak m hmode, peakSearch_of_findPeak (s := retouch b g s) m hmode,
      apply_ite (retouchFst b g), apply_ite (retouchFst b g)]
    rfl

theorem measure_retouch (s : State) : measure P (retouch b g s) = measure P s := rfl

theorem winPush_retouch (x : Smp) (s : State) : winPush x (retouch b g s) = retouch b g (winPush x s) := rfl

theorem detectorStep_retouch (x : Smp) (s : State) :
    detectorStep P x (retouch b g s) = retouchFst b g (detectorStep P x s) := by
  simp only [detectorStep, winPush_retouch, measure_retouch, peakSearch_retouch]
  rfl

theorem onDetect_retouch (s : State) : onDetect (retouch b g s) = retouch b g (onDetect s) := rfl

theorem detectSample_retouch (x : Smp) (s : State) :
    detectSample P x (retouch b g s) = retouchFst b g (detectSample P x s) := by
  simp only [detectSample, squelchUpdate_retouch, detectorStep_retouch, retouchFst_fst, retouchFst_snd,
    onDetect_retouch, apply_ite (retouchFst b g)]
  rfl

theorem startPayload_retouch (s : State) : startPayload P (retouch b g s) = retouchFst b g (startPayload P s) := by
  simp only [startPayload, apply_ite (retouchFst b g)]
  rfl

theorem headerComplete_retouch (s : State) :
    headerComplete P (retouch b g s) = retouchFst b g (headerComplete P s) := by
  simp only [headerComplete, apply_ite (retouchFst b g), ← startPayload_retouch]
  rfl

theorem onHdrSym_retouch (y : Dat) (s : State) : onHdrSym P y (retouch b g s) = retouchFst b g (onHdrSym P y s) := by
  simp only [onHdrSym, apply_ite (retouchFst b g), ← headerComplete_retouch]
  rfl

theorem onPaySym_retouch (y : Dat) (s : State) : onPaySym P y (retouch b g s) = retouchFst b g (onPaySym P y s) := by
  simp only [onPaySym, apply_ite (retouchFst b g)]
  rfl

theorem onSymbol_retouch (y : Dat) (s : State) : onSymbol P y (retouch b g s) = retouchFst b g (onSymbol P y s) := by
  simp only [onSymbol, apply_ite (retouchFst b g), onHdrSym_retouch, onPaySym_retouch]
  rfl

theorem strobe_retouch (s : State) : strobe P (retouch b g s) = retouchFst b g (strobe P s) := rfl

theorem frameSample_retouch (x : Smp) (s : State) :
    frameSample P x (retouch b g s) = retouchFst b g (frameSample P x s) := by
  have hdl : dlPush (mixedSample P x (retouch b g s)) (ncoAdvance (retouch b g s)) =
      retouch b g (dlPush (mixedSample P x s) (ncoAdvance s)) := rfl
  obtain ⟨ht, h⟩ | ⟨ht, h⟩ := frameSample_cases P x s <;>
    obtain ⟨ht', h'⟩ | ⟨ht', h'⟩ := frameSample_cases P x (retouch b g s)
  · rw [h, h']; rfl
  · exact absurd ht (not_lt.2 ht')
  · exact absurd ht' (not_lt.2 ht)
  · have htick : ∀ u, timerTick (retouch b g u) = retouch b g (timerTick u) := fun _ => rfl
    rw [h, h']
    simp only [hdl, strobe_retouch, retouchFst_fst, retouchFst_snd, htick, onSymbol_retouch]
    rfl

theorem leaveReset_retouch (s : State) : leaveReset (retouch b g s) = retouch b g (leaveReset s) := by
  simp only [leaveReset, apply_ite (retouch b g)]
  rfl

theorem pushSample_retouch (x : Smp) (s : State) :
    pushSample P x (retouch b g s) = retouchFst b g (pushSample P x s) := by
  have htrack : ∀ u, agcTrack x (retouch b g u) = retouch b g (agcTrack x u) := fun _ => rfl
  simp only [pushSample, leaveReset_retouch, htrack, detectSample_retouch, frameSample_retouch,
    apply_ite (retouchFst b g)]
  rfl

/-! ### Every command -/

theorem answerCode_retouch (i : Instr) (s : State) : answerCode P i (retouch b g s) = answerCode P i s := by
  cases i <;> rfl

/-- `BETA` keeps its value, or the register at the address is another one. -/
def BetaFreeAt (b : BitVec 32 → BitVec 32) (addr : BitVec 16) : Prop :=
  b = id ∨ ∀ r, cfgRegAt addr = some r → r ≠ .beta

/-- The only address of `BETA` is 0x02 (R50). -/
theorem betaFreeAt_of_ne {addr : BitVec 16} (h : addr ≠ 0x02) : BetaFreeAt b addr := by
  refine .inr fun r hr => ?_
  rintro rfl
  have hrow := mem_of_atAddr hr
  simp only [cfgRegs, List.mem_cons, Prod.mk.injEq, reduceCtorEq, and_false, false_or, and_true, List.not_mem_nil,
    or_false] at hrow
  exact h (BitVec.eq_of_toNat_eq hrow)

variable {b}

theorem cfgGet_retouch {r : CfgReg} (h : b = id ∨ r ≠ .beta) (s : State) :
    cfgGet (retouch b g s).cfg r = cfgGet s.cfg r := by
  cases r with
  | beta =>
    rcases h with rfl | h
    · rfl
    · exact absurd rfl h
  | _ => rfl

theorem cfgPut_retouch {r : CfgReg} (h : b = id ∨ r ≠ .beta) (v : BitVec 32) (s : State) :
    cfgPut (retouch b g s).cfg r v = (retouch b g { s with cfg := cfgPut s.cfg r v }).cfg := by
  cases r with
  | beta =>
    rcases h with rfl | h
    · rfl
    · exact absurd rfl h
  | _ => rfl

theorem readReg_retouch {addr : BitVec 16} (h : BetaFreeAt b addr) (s : State) :
    readReg (retouch b g s) addr = readReg s addr := by
  unfold readReg
  cases hr : cfgRegAt addr with
  | none => rfl
  | some r => exact congrArg some (cfgGet_retouch g (h.imp_right fun hne => hne r hr) s)

theorem putCfg_retouch {addr : BitVec 16} (h : BetaFreeAt b addr) (data : BitVec 32) (s : State) :
    putCfg addr data (retouch b g s) = retouch b g (putCfg addr data s) := by
  unfold putCfg
  cases hr : cfgRegAt addr with
  | none => rfl
  | some r =>
    simp only [cfgPut_retouch g (h.imp_right fun hne => hne r hr)]
    rfl

/-- A command that does not touch `BETA`, where it may change its value. -/
def BetaFree (b : BitVec 32 → BitVec 32) (i : Instr) : Prop :=
  (∀ addr, i = .rdreg addr → BetaFreeAt b addr) ∧ ∀ addr data, i = .wrcfg addr data → BetaFreeAt b addr

theorem action_retouch {i : Instr} (h : BetaFree b i) (s : State) :
    action P i (retouch b g s) = retouchFst b g (action P i s) := by
  obtain ⟨hread, hwrite⟩ := h
  cases i with
  | rdreg addr => simp only [action, readReg_retouch g (hread addr rfl)]; rfl
  | wrcfg addr data => simp only [action, putCfg_retouch g (hwrite addr data rfl)]; rfl
  | push re im => simp only [action, pushSample_retouch]; rfl
  | _ => rfl

/-- No command reads or writes what `retouch` changes. -/
theorem answered_retouch {i : Instr} (h : BetaFree b i) (s : State) :
    answered P i (retouch b g s) = retouch b g (answered P i s) := by
  unfold answered
  rw [answerCode_retouch, action_retouch g P h]
  cases answerCode P i s <;> rfl

theorem exec_retouch {i : Instr} {s t : State} (h : BetaFree b i) (hexec : exec i s = .next t) :
    exec i (retouch b g s) = .next (retouch b g t) := by
  rw [exec_eq, answered_retouch g build h, ← exec_next hexec]

end

/-- Settles O57: `withBeta` is a `retouch` of `BETA` alone, and the commands excluded are those at its one address. -/
theorem betaHasNoEffect : Obligations.BetaHasNoEffect := by
  intro i v s t hread hwrite hexec
  refine exec_retouch (b := fun _ => v) id ⟨fun addr hi => ?_, fun addr data hi => ?_⟩ hexec
  · exact betaFreeAt_of_ne _ fun haddr => hread (haddr ▸ hi)
  · exact betaFreeAt_of_ne _ fun haddr => hwrite data (haddr ▸ hi)

/-! ### The inputs still pending -/

theorem exec_deliver (ys : List Input) {i : Instr} {s t : State} (h : exec i s = .next t) :
    exec i (deliver ys s) = .next (deliver ys t) :=
  exec_retouch (b := id) (· ++ ys) ⟨fun _ _ => .inl rfl, fun _ _ _ => .inl rfl⟩ h

/-- A command takes no input beside its own word. -/
theorem exec_inputs {i : Instr} {s t : State} (h : exec i s = .next t) : t.inputs = s.inputs := by
  refine exec_keeps (fun u => u.inputs = s.inputs) h rfl (fun _ => ?_) (fun _ _ => rfl) (fun _ _ _ hu => hu)
  cases i with
  | wrcfg addr data =>
    simp only [action, putCfg]
    split <;> rfl
  | push re im => exact (pushSample_build build (smpOf re im) s).inputs
  | _ => rfl

/-- A step with an input pending takes one input, and does the same with a further block behind it. -/
theorem step_deliver (ys : List Input) {s : State} {y : Input} {rest : List Input} (hin : s.inputs = y :: rest) :
    ∃ t, step s = .next t ∧ t.inputs = rest ∧ step (deliver ys s) = .next (deliver ys t) := by
  have hin' : (deliver ys s).inputs = y :: (rest ++ ys) := by simp [deliver, hin]
  cases y with
  | hreset => exact ⟨_, step_of_hreset hin, rfl, step_of_hreset hin'⟩
  | command w =>
    cases hdec : decode w with
    | ok i =>
      have hexec := exec_eq i (beginCommand rest s)
      exact ⟨_, (step_of_decode_ok hin hdec).trans hexec, exec_inputs hexec,
        (step_of_decode_ok hin' hdec).trans (exec_deliver ys hexec)⟩
    | error e => exact ⟨_, step_of_decode_error hin hdec, rfl, step_of_decode_error hin' hdec⟩

/-- Settles O58, by induction on the number of steps. -/
theorem blockCutsDoNotMatter : Obligations.BlockCutsDoNotMatter := by
  intro n ys
  induction n with
  | zero => exact fun s _ => ⟨s, rfl, rfl⟩
  | succ n ih =>
    intro s hn
    cases hin : s.inputs with
    | nil => simp [hin] at hn
    | cons y rest =>
      obtain ⟨t, hstep, ht, hstep'⟩ := step_deliver ys hin
      rw [run_next hstep, run_next hstep']
      exact ih t (by rw [ht]; simp only [hin, List.length_cons] at hn; omega)

end Sys2Proof.Machine
end

section
/-! The invariant of R57: every unit keeps it, so every step does. -/

namespace Sys2Proof.Machine

section
variable {P : Params} {s : State}

/-! ### What the invariant does not read -/

/-- The ports and the pending inputs are no part of the invariant. -/
theorem sound_withPorts (h : Sound P s) (ins : List Input) (r : Option Word) (e : Option Event) :
    Sound P { s with inputs := ins, resp := r, evt := e } where
  masked := h.masked
  tables := { h.tables with }
  buffers := { h.buffers with }
  regs := { h.regs with }
  run hrun := { h.run hrun with }
  idle hrun := { h.idle hrun with }

theorem respond_sound (h : Sound P s) (c : Code) (d : BitVec 32) : Sound P (respond c d s) :=
  sound_withPorts h s.inputs _ s.evt

theorem emit_sound (h : Sound P s) (e : Event) : Sound P (emit e s) := sound_withPorts h s.inputs s.resp _

theorem beginCommand_sound (h : Sound P s) (rest : List Input) : Sound P (beginCommand rest s) :=
  sound_withPorts h rest _ _

theorem agcTrack_sound (h : Sound P s) (hrun : s.status = .run) (x : Smp) : Sound P (agcTrack x s) where
  masked := h.masked
  tables := { h.tables with }
  buffers := { h.buffers with }
  regs := { h.regs with }
  run hrun := { h.run hrun with }
  idle hne := absurd hrun hne

/-! ### What an accepted configuration gives -/

theorem legal_of_sound (h : Sound P s) (hrun : s.status = .run) : Legal P s := legal_of_check (h.run hrun).legal

theorem window_of_sound (h : Sound P s) (hrun : s.status = .run) : s.der.n.toNat = cfgWindow s.cfg := by
  rw [(h.run hrun).derived, derive_n]

theorem taps_of_sound (hP : P.SizesOk) (h : Sound P s) (hrun : s.status = .run) :
    s.der.taps.toNat = cfgTaps s.cfg := by
  obtain ⟨-, -, htaps, -⟩ := hP
  rw [(h.run hrun).derived, derive_taps ((legal_of_sound h hrun).taps.trans htaps)]

/-! ### The reset procedures (R125, R126) -/

theorem acqReset_winAt (s : State) {i : Nat} (hi : i < s.der.n.toNat) : winAt (acqReset s) i = Smp.zero := by
  simp [winAt, memRead_clear, hi]

theorem acqReset_dlAt (s : State) {j : Nat} (hj : j < s.der.taps.toNat) : dlAt (acqReset s) j = Dat.zero := by
  simp [dlAt, memRead_clear, hj]

/-- A cleared window has no energy. -/
theorem acqReset_energy (s : State) : nsum (fun i => mag2 (winAt (acqReset s) i).cx) s.der.n.toNat = 0 := by
  rw [nsum_congr (g := fun _ => 0) fun i hi => by rw [acqReset_winAt s hi, mag2_zero], nsum_zero]

theorem acqReset_buffersOk (h : BuffersOk P s) : BuffersOk P (acqReset s) :=
  { h with
    winWf := memWf_clear h.winWf
    dlWf := memWf_clear h.dlWf
    winBelow := memBelow_clear h.winBelow
    dlBelow := memBelow_clear h.dlBelow }

/-- The timing registers at 0: the hard index is the rounding of the soft index (R224). -/
theorem hardIdx_zero : hardIdx (0 : BitVec 32).toInt = ((0 : BitVec 8).toNat : Int) := by decide

/-- What INIT must have fixed for an object to run: an accepted configuration, and the constants derived of it. -/
structure Constructed (P : Params) (s : State) : Prop where
  legal : configCheck P s = 0
  derived : s.der = derive P s
  noCause : s.cfgCause = 0

theorem constructed_of_sound (h : Sound P s) (hrun : s.status = .run) : Constructed P s := { h.run hrun with }

/-- The loops of a constructed object after `acq_reset`, the state machine in DETECT (R126). -/
theorem runOk_acqReset (hc : Constructed P s) (q : Squelch) :
    RunOk P { acqReset s with sq := q, fsm := .detect } where
  legal := hc.legal
  derived := hc.derived
  noCause := hc.noCause
  wptrLt := lt_of_lt_of_le two_pos (legal_of_check hc.legal).windowPos
  energy := by
    have hn : s.der.n.toNat = cfgWindow s.cfg := by rw [hc.derived, derive_n]
    exact (hn ▸ acqReset_energy s).symm
  ageLt := nofun
  idxLt := (legal_of_check hc.legal).banksPos
  nuLo := Int.neg_nonpos_of_nonneg (Int.natCast_nonneg _)
  nuHi := Int.natCast_nonneg _
  headerCnt := nofun
  payloadCnt := nofun
  payloadFits := nofun

/-- The registers after `acq_reset`, the state machine in DETECT (R126, R247). -/
theorem regsOk_acqReset (h : RegsOk P s) (q : Squelch) : RegsOk P { acqReset s with sq := q, fsm := .detect } :=
  { h with
    hardIndex := hardIdx_zero
    bwClosed := ⟨nofun, fun hne => absurd rfl hne⟩
    squelched := fun _ => ⟨rfl, rfl⟩
    detectZero := fun _ => ⟨rfl, rfl, rfl, rfl⟩
    dlZero := fun _ _ hj => acqReset_dlAt s hj
    seeking := fun _ => rfl }

/-- `acq_reset` into DETECT keeps the invariant, whatever the squelch is left at (R238, R261). -/
theorem reacquire_sound (h : Sound P s) (hrun : s.status = .run) (q : Squelch) :
    Sound P { acqReset s with sq := q, fsm := .detect } where
  masked := h.masked
  tables := { h.tables with }
  buffers := { acqReset_buffersOk h.buffers with }
  regs := regsOk_acqReset h.regs q
  run _ := runOk_acqReset (constructed_of_sound h hrun) q
  idle hne := absurd hrun hne

/-- `run_init` of a state with an object constructed, or with none (R125). -/
theorem runInit_sound (hm : CfgMasked s.cfg) (ht : TablesOk P s) (hb : BuffersOk P s)
    (hcap : s.cap.sym.toNat ≤ P.paysymMax ∧ s.cap.enc.toNat ≤ P.payencMax ∧ s.cap.dec.toNat ≤ P.paydecMax)
    (hrun : s.status = .run → Constructed P s)
    (hidle : s.status ≠ .run → (s.cfgCause = 0 ↔ s.status = .uninit) ∧ s.cap = ⟨0, 0, 0⟩ ∧ s.der = ⟨0, 0, 0, 0⟩) :
    Sound P (runInit s) where
  masked := hm
  tables := { ht with }
  buffers := { acqReset_buffersOk hb with }
  regs :=
    { tauLo := (by decide : -2 ^ 23 ≤ (0 : BitVec 32).toInt)
      tauHi := (by decide : (0 : BitVec 32).toInt ≤ 2 ^ 23 - 1)
      bpsPos := (by decide : 1 ≤ hdrReset.bps.toNat)
      bpsLe := (by decide : hdrReset.bps.toNat ≤ 8)
      capSym := hcap.1
      capEnc := hcap.2.1
      capDec := hcap.2.2
      hardIndex := hardIdx_zero
      bwClosed := ⟨nofun, fun hne => absurd rfl hne⟩
      squelched := nofun
      detectZero := fun _ => ⟨rfl, rfl, rfl, rfl⟩
      dlZero := fun _ _ hj => acqReset_dlAt s hj
      seeking := fun _ => rfl }
  run hr := { runOk_acqReset (hrun hr) ⟨0, false⟩ with
    headerCnt := nofun
    payloadCnt := nofun
    payloadFits := nofun }
  idle hr :=
    { cause := (hidle hr).1, detect := rfl, level := rfl, squelch := rfl, detector := rfl, estimate := rfl,
      frame := rfl, noCap := (hidle hr).2.1, noDerived := (hidle hr).2.2 }

/-! ### The control commands -/

theorem srst_sound (h : Sound P s) (hrun : s.status = .run) : Sound P (runInit s) :=
  runInit_sound h.masked h.tables h.buffers ⟨h.regs.capSym, h.regs.capEnc, h.regs.capDec⟩
    (fun _ => constructed_of_sound h hrun) (fun hne => absurd hrun hne)

theorem destroy_sound (h : Sound P s) : Sound P (destroy s) :=
  runInit_sound h.masked { h.tables with } { h.buffers with } ⟨Nat.zero_le _, Nat.zero_le _, Nat.zero_le _⟩ nofun
    fun _ => ⟨⟨fun _ => rfl, fun _ => rfl⟩, rfl, rfl⟩

theorem construct_sound (h : Sound P s) (hcheck : configCheck P s = 0) : Sound P (construct P s) :=
  runInit_sound h.masked { h.tables with }
    { h.buffers with hdecWf := memWf_clear h.buffers.hdecWf, hdecBelow := memBelow_clear h.buffers.hdecBelow }
    ⟨Nat.zero_le _, Nat.zero_le _, Nat.zero_le _⟩ (fun _ => ⟨hcheck, rfl, rfl⟩) (fun hne => absurd rfl hne)

/-- A failed INIT leaves DEAD with a cause (R123). -/
theorem deadState_sound (h : Sound P s) (hne : s.status ≠ .run) (hcheck : configCheck P s ≠ 0) :
    Sound P { s with status := .dead, cfgCause := configCheck P s } where
  masked := h.masked
  tables := { h.tables with }
  buffers := { h.buffers with }
  regs := { h.regs with }
  run := nofun
  idle _ := { h.idle hne with cause := ⟨fun hc => absurd hc hcheck, nofun⟩ }

/-! ### The writes (R130 to R133) -/

/-- A write to a table, outside RUN. -/
theorem tableWrite_sound (h : Sound P s) (hne : s.status ≠ .run) {r : Mem Smp} {m d : Mem Coef}
    (ht : TablesOk P { s with ref := r, mf := m, dmf := d }) : Sound P { s with ref := r, mf := m, dmf := d } where
  masked := h.masked
  tables := ht
  buffers := { h.buffers with }
  regs := { h.regs with }
  run hrun := absurd hrun hne
  idle _ := { h.idle hne with }

theorem coefTable_insert {m : Mem Coef} (hm : ∀ c ∈ m, c.1 / 256 < P.npfbMax ∧ c.1 % 256 < P.tapsMax)
    {bank tap : BitVec 8} (hb : bank.toNat < P.npfbMax) (ht : tap.toNat < P.tapsMax) (v : Coef) :
    ∀ c ∈ memInsert m (coefKey bank.toNat tap.toNat) v, c.1 / 256 < P.npfbMax ∧ c.1 % 256 < P.tapsMax := by
  intro c hc
  rcases mem_insert_fst hc with rfl | hc
  · have := tap.isLt
    simp only [coefKey]
    omega
  · exact hm c hc

theorem wrref_sound (h : Sound P s) (hne : s.status ≠ .run) {i : Nat} (hi : i < P.nMax) (v : Smp) :
    Sound P { s with ref := memInsert s.ref i v } :=
  tableWrite_sound h hne { h.tables with
    refSorted := memSorted_insert h.tables.refSorted, refBelow := memBelow_insert h.tables.refBelow hi }

theorem wrmf_sound (h : Sound P s) (hne : s.status ≠ .run) {bank tap : BitVec 8} (hb : bank.toNat < P.npfbMax)
    (ht : tap.toNat < P.tapsMax) (v : Coef) :
    Sound P { s with mf := memInsert s.mf (coefKey bank.toNat tap.toNat) v } :=
  tableWrite_sound h hne { h.tables with
    mfSorted := memSorted_insert h.tables.mfSorted, mfIn := coefTable_insert h.tables.mfIn hb ht v }

theorem wrdmf_sound (h : Sound P s) (hne : s.status ≠ .run) {bank tap : BitVec 8} (hb : bank.toNat < P.npfbMax)
    (ht : tap.toNat < P.tapsMax) (v : Coef) :
    Sound P { s with dmf := memInsert s.dmf (coefKey bank.toNat tap.toNat) v } :=
  tableWrite_sound h hne { h.tables with
    dmfSorted := memSorted_insert h.tables.dmfSorted, dmfIn := coefTable_insert h.tables.dmfIn hb ht v }

/-- A masked write keeps every register within its mask (R130). -/
theorem cfgMasked_cfgPut {c : Cfg} (h : CfgMasked c) (r : CfgReg) (v : BitVec 32) :
    CfgMasked (cfgPut c r (v &&& cfgMask r)) := by
  intro q
  rw [cfgGet_cfgPut]
  split
  · subst_vars
    rw [BitVec.and_assoc, BitVec.and_self]
  · exact h q

theorem wrcfg_sound (h : Sound P s) (hne : s.status ≠ .run) (addr : BitVec 16) (data : BitVec 32) :
    Sound P (putCfg addr data s) := by
  unfold putCfg
  split
  next r _ =>
    exact
      { masked := cfgMasked_cfgPut h.masked r data
        tables := { h.tables with }
        buffers := { h.buffers with }
        regs := { h.regs with }
        run := fun hrun => absurd hrun hne
        idle := fun _ => { h.idle hne with } }
  next => exact h

/-! ### The hardware reset (R361) -/

theorem cfgMasked_reset : CfgMasked cfgReset := by
  intro r
  cases r <;> decide

/-- The reset state is what `run_init` leaves of itself, its memories empty. -/
theorem resetState_sound (P : Params) (rest : List Input) (n : Nat) :
    Sound P { State.reset with inputs := rest, hresets := n } :=
  runInit_sound (s := { State.reset with inputs := rest, hresets := n }) cfgMasked_reset
    ⟨memSorted_nil, memSorted_nil, memSorted_nil, memBelow_nil _, nofun, nofun⟩
    ⟨memWf_nil _, memWf_nil _, memWf_nil _, memWf_nil _, memWf_nil _, memWf_nil _, memWf_nil _, memBelow_nil _,
      memBelow_nil _, memBelow_nil _, memBelow_nil _, memBelow_nil _, memBelow_nil _, memBelow_nil _⟩
    ⟨Nat.zero_le _, Nat.zero_le _, Nat.zero_le _⟩ nofun fun _ => ⟨⟨fun _ => rfl, fun _ => rfl⟩, rfl, rfl⟩

/-- Settles O59: nothing is pending at reset, and no hardware reset was counted. -/
theorem soundAtReset : Obligations.SoundAtReset := resetState_sound build [] 0

/-! ### PUSH in DETECT (R247) -/

/-- Opening the squelch, or counting while it is open (R237). -/
theorem openSquelch_sound (h : Sound P s) (hrun : s.status = .run) {q : Squelch}
    (hq : q.closed = true → s.sq.closed = true) :
    Sound P { s with sq := q } where
  masked := h.masked
  tables := { h.tables with }
  buffers := { h.buffers with }
  regs := { h.regs with squelched := fun hc => h.regs.squelched (hq hc) }
  run hr := { h.run hr with }
  idle hne := absurd hrun hne

theorem squelchUpdate_sound (h : Sound P s) (hrun : s.status = .run) (hf : s.fsm = .detect) :
    Sound P (squelchUpdate s) := by
  obtain ⟨-, -, e⟩ | ⟨-, -, -, e⟩ | ⟨-, -, -, e⟩ | ⟨-, e⟩ | ⟨-, e⟩ := squelchUpdate_cases s <;> rw [e]
  · exact h
  · have hsame : acqReset { s with sq := ⟨sqCount s.sq.cnt, true⟩ } =
        { acqReset s with sq := ⟨sqCount s.sq.cnt, true⟩, fsm := .detect } := by rw [← hf]; rfl
    rw [hsame]
    exact reacquire_sound h hrun _
  · exact openSquelch_sound h hrun nofun
  · exact openSquelch_sound h hrun nofun
  · exact openSquelch_sound h hrun id

/-- The window push keeps the pointer in the window and the energy exact (R153). -/
theorem winPush_sound (hP : P.SizesOk) (h : Sound P s) (hrun : s.status = .run)
    (hopen : s.sq.closed = false) (x : Smp) :
    Sound P (winPush x s) := by
  have hl := legal_of_sound h hrun
  have hn := window_of_sound h hrun
  have hmax : cfgWindow s.cfg ≤ 65536 := hl.window.trans hP.1
  have hpos := hl.windowPos
  have hw := (h.run hrun).wptrLt
  exact
    { masked := h.masked
      tables := { h.tables with }
      buffers := { h.buffers with
        winWf := memWf_write h.buffers.winWf
        winBelow := memBelow_write h.buffers.winBelow (hw.trans_le hl.window) }
      regs := { h.regs with squelched := fun hc => absurd hc (by rw [winPush_sq, hopen]; decide) }
      run := fun hr => { h.run hr with
        wptrLt := hn ▸ winPush_wptr (by omega) (by omega)
        energy := winPush_energy hmax hw (h.run hr).energy }
      idle := fun hne => absurd hrun hne }

/-- A change of the detector registers that leaves the window's pointer and energy alone, with the squelch open. -/
theorem setDet_sound (h : Sound P s) (hrun : s.status = .run) (hf : s.fsm = .detect) (hopen : s.sq.closed = false)
    {d : Detector} {e : Estimate} (hptr : d.wptr = s.det.wptr) (hex : d.ex = s.det.ex)
    (hage : d.mode = .findPeak → d.age.toNat < cfgDebounce s.cfg)
    (htau : -2 ^ 23 ≤ e.tau.toInt ∧ e.tau.toInt ≤ 2 ^ 23 - 1) : Sound P { s with det := d, est := e } where
  masked := h.masked
  tables := { h.tables with }
  buffers := { h.buffers with }
  regs := { h.regs with
    tauLo := htau.1
    tauHi := htau.2
    squelched := fun hc => absurd (hopen.symm.trans hc) nofun
    seeking := fun hne => absurd hf hne }
  run hr := { h.run hr with
    wptrLt := hptr ▸ (h.run hr).wptrLt
    energy := hex ▸ (h.run hr).energy
    ageLt := hage }
  idle hne := absurd hrun hne

theorem tau_of_sound (h : Sound P s) : -2 ^ 23 ≤ s.est.tau.toInt ∧ s.est.tau.toInt ≤ 2 ^ 23 - 1 :=
  ⟨h.regs.tauLo, h.regs.tauHi⟩

theorem declareDet_tau_mem (s : State) :
    -2 ^ 23 ≤ (declareDet s).est.tau.toInt ∧ (declareDet s).est.tau.toInt ≤ 2 ^ 23 - 1 := by
  rw [declareDet_tau]
  exact tauOf_mem _ _ _

theorem peakSearch_sound (h : Sound P s) (hrun : s.status = .run) (hf : s.fsm = .detect) (hopen : s.sq.closed = false)
    (m : Metric) : Sound P (peakSearch m s).1 := by
  have hdeb : 0 < cfgDebounce s.cfg := (legal_of_sound h hrun).debounce
  have htau := tau_of_sound h
  obtain ⟨-, -, e⟩ | ⟨-, -, e⟩ | ⟨-, -, -, e⟩ | ⟨-, -, -, e⟩ | ⟨-, -, hage, e⟩ := peakSearch_cases m s <;> rw [e]
  · exact h
  · exact setDet_sound h hrun hf hopen rfl rfl (fun _ => hdeb) htau
  · exact setDet_sound h hrun hf hopen rfl rfl (fun _ => hdeb) htau
  · exact setDet_sound h hrun hf hopen rfl rfl nofun (declareDet_tau_mem { s with det := ageStep m s.det })
  · exact setDet_sound h hrun hf hopen rfl rfl (fun _ => hage) htau

/-- A step that declares a detection leaves the detector in SEEK (R165). -/
theorem peakSearch_declares {m : Metric} (hd : (peakSearch m s).2 = true) : (peakSearch m s).1.det.mode = .seek := by
  obtain ⟨-, -, e⟩ | ⟨-, -, e⟩ | ⟨-, -, -, e⟩ | ⟨-, -, -, e⟩ | ⟨-, -, -, e⟩ := peakSearch_cases m s <;> rw [e] at hd ⊢
  case inr.inr.inr.inl => rfl
  all_goals cases hd

/-- A detector step: the window push, then the peak search on what it measures (R167). -/
theorem detectorStep_eq (P : Params) (x : Smp) (s : State) : detectorStep P x s =
    (latchRho (measure P (winPush x s)) (peakSearch (measure P (winPush x s)) (winPush x s)).1,
      (peakSearch (measure P (winPush x s)) (winPush x s)).2) := rfl

theorem latchRho_mode (m : Metric) (s : State) : (latchRho m s).det.mode = s.det.mode := rfl

theorem detectorStep_declares {x : Smp} (hd : (detectorStep P x s).2 = true) :
    (detectorStep P x s).1.det.mode = .seek := by
  rw [detectorStep_eq] at hd ⊢
  rw [latchRho_mode]
  exact peakSearch_declares hd

theorem detectorStep_sound (hP : P.SizesOk) (h : Sound P s) (hrun : s.status = .run) (hf : s.fsm = .detect)
    (hopen : s.sq.closed = false) (x : Smp) : Sound P (detectorStep P x s).1 := by
  have hpush := winPush_sound hP h hrun hopen x
  have hpeak := peakSearch_sound hpush hrun hf hopen (measure P (winPush x s))
  obtain ⟨d, e, hframe⟩ := peakSearch_frame (measure P (winPush x s)) (winPush x s)
  have hage := (hpeak.run (by rw [hframe]; exact hrun)).ageLt
  have htau := tau_of_sound hpeak
  refine setDet_sound hpeak (by rw [hframe]; exact hrun) (by rw [hframe]; exact hf) (by rw [hframe]; exact hopen)
    rfl rfl hage htau

/-- Everything a detection writes (R250). -/
theorem onDetect_eq (s : State) : onDetect s =
    { s with
      nco := ⟨0, BitVec.ofInt 32 (clampFreq s.cfg s.est.dphi.toInt)⟩
      dl := memClear s.dl 0 s.der.taps.toNat
      str := timingOf 0 (wrapIdx (cfgBanks s.cfg) (s.est.tau.toInt * cfgBanks s.cfg) (cfgHdrDly s.cfg))
      agcLvl := BitVec.ofInt 32 (agcSeedLevel s.est.gamma.toNat s.der.pref.toNat)
      bw := .closedBw
      symCnt := 0
      evm := ⟨0, 0⟩
      sq := ⟨0, s.sq.closed⟩
      fsm := .rxheader
      frameCnt := s.frameCnt + 1 } := by
  simp only [onDetect, enterHeader, seedLoops, agcSeed, timingSeed, carrierSeed]

/-- The seeds of a detection (R203, R227, R250): the frequency is clamped, and the wrapped index is in range. -/
theorem onDetect_sound (hP : P.SizesOk) (h : Sound P s) (hrun : s.status = .run) (hopen : s.sq.closed = false)
    (hseek : s.det.mode = .seek) : Sound P (onDetect s) := by
  have hl := legal_of_sound h hrun
  have hidx := timingOf_spec hl.banksPos (hl.banks.trans hP.2.1) 0 (s.est.tau.toInt * cfgBanks s.cfg) (cfgHdrDly s.cfg)
  have hnu := clampFreq_toInt s.cfg s.est.dphi.toInt
  have hclamp := clampFreq_mem s.cfg s.est.dphi.toInt
  rw [onDetect_eq]
  exact
    { masked := h.masked
      tables := { h.tables with }
      buffers := { h.buffers with
        dlWf := memWf_clear h.buffers.dlWf
        dlBelow := memBelow_clear h.buffers.dlBelow }
      regs := { h.regs with
        hardIndex := hidx.2
        bwClosed := ⟨fun _ => nofun, fun _ => rfl⟩
        squelched := fun hc => absurd (hopen.symm.trans hc) nofun
        detectZero := nofun
        dlZero := nofun
        seeking := fun _ => hseek }
      run := fun hr => { h.run hr with
        ageLt := fun hm => absurd (hseek.symm.trans hm) nofun
        idxLt := hidx.1
        nuLo := hclamp.1.trans_eq hnu.symm
        nuHi := hnu.trans_le hclamp.2
        headerCnt := fun _ => ⟨hl.hdrSymsPos, rfl⟩
        payloadCnt := nofun
        payloadFits := nofun }
      idle := fun hne => absurd hrun hne }

theorem detectSample_sound (hP : P.SizesOk) (h : Sound P s) (hrun : s.status = .run) (hf : s.fsm = .detect) (x : Smp) :
    Sound P (detectSample P x s).1 := by
  have hsq := squelchUpdate_sound h hrun hf
  have hb := squelchUpdate_build s
  obtain ⟨-, e⟩ | ⟨hopen, -, e⟩ | ⟨hopen, hd, e⟩ := detectSample_cases P x s <;> rw [e]
  · exact hsq
  all_goals
    obtain ⟨q, hupd, -⟩ := squelchUpdate_open hopen
    have hrun' : (squelchUpdate s).status = .run := hb.status.trans hrun
    have hf' : (squelchUpdate s).fsm = .detect := by rw [hupd]; exact hf
    have hstep := detectorStep_sound hP hsq hrun' hf' hopen x
  · exact hstep
  · obtain ⟨d, e, hframe⟩ := detectorStep_frame P x (squelchUpdate s)
    exact onDetect_sound hP hstep ((detectorStep_build P x _).status.trans hrun') (by rw [hframe]; exact hopen)
      (detectorStep_declares hd)

/-! ### The units of a frame: what they write is under no counter's invariant

In a frame the counters are between two of their bounds while a symbol is handled. The state with `fsm` RESET has the
same invariant without the counters; the units are shown to keep that one. -/

/-- The state with the state machine in RESET. -/
def parked (s : State) : State := { s with fsm := .reset }

theorem parked_sound (h : Sound P s) (hrun : s.status = .run) (hf : s.fsm ≠ .detect) : Sound P (parked s) where
  masked := h.masked
  tables := { h.tables with }
  buffers := { h.buffers with }
  regs := { h.regs with
    bwClosed := ⟨fun _ => nofun, fun _ => h.regs.bwClosed.2 hf⟩
    squelched := fun hc => absurd (h.regs.squelched hc).1 hf
    detectZero := nofun
    dlZero := nofun
    seeking := fun _ => h.regs.seeking hf }
  run hr := { h.run hr with
    headerCnt := nofun
    payloadCnt := nofun
    payloadFits := nofun }
  idle hne := absurd hrun hne

/-- Back from `parked`: what the invariant says of the counters (R57). -/
theorem sound_of_parked (h : Sound P (parked s)) (hrun : s.status = .run) (hf : s.fsm ≠ .detect)
    (hhdr : s.fsm = .rxheader → s.symCnt.toNat < cfgHdrSyms s.cfg ∧ s.evm.cnt = s.symCnt)
    (hpay : s.fsm = .rxpayload → s.symCnt.toNat < s.hdr.nsym.toNat ∧
      s.evm.cnt = BitVec.ofNat 32 (cfgHdrSyms s.cfg) + s.symCnt)
    (hfits : s.fsm = .rxpayload → s.hdr.nsym.toNat ≤ s.cap.sym.toNat ∧ s.hdr.enc.toNat ≤ s.cap.enc.toNat ∧
      s.hdr.len.toNat ≤ s.cap.dec.toNat) : Sound P s where
  masked := h.masked
  tables := { h.tables with }
  buffers := { h.buffers with }
  regs := { h.regs with
    bwClosed := ⟨fun _ => hf, fun _ => h.regs.bwClosed.2 nofun⟩
    squelched := fun hc => absurd (h.regs.squelched hc).1 nofun
    detectZero := fun hd => absurd hd hf
    dlZero := fun hd => absurd hd hf
    seeking := fun _ => h.regs.seeking nofun }
  run hr := { h.run hr with
    headerCnt := hhdr
    payloadCnt := hpay
    payloadFits := hfits }
  idle hne := absurd hrun hne

/-- The carrier registers with the frequency in its range. -/
theorem setNco_sound (h : Sound P s) (hrun : s.status = .run) (hf : s.fsm ≠ .detect) {c : Carrier}
    (hnu : -(cfgNcoFmax s.cfg : Int) ≤ c.nu.toInt ∧ c.nu.toInt ≤ cfgNcoFmax s.cfg) : Sound P { s with nco := c } where
  masked := h.masked
  tables := { h.tables with }
  buffers := { h.buffers with }
  regs := { h.regs with detectZero := fun hd => absurd hd hf }
  run hr := { h.run hr with nuLo := hnu.1, nuHi := hnu.2 }
  idle hne := absurd hrun hne

/-- The timing registers with the hard index in range and the rounding of the soft index. -/
theorem setStr_sound (h : Sound P s) (hrun : s.status = .run) (hf : s.fsm ≠ .detect) {r : Timing}
    (hidx : r.idx.toNat < cfgBanks s.cfg) (hhard : hardIdx r.soft.toInt = r.idx.toNat) :
    Sound P { s with str := r } where
  masked := h.masked
  tables := { h.tables with }
  buffers := { h.buffers with }
  regs := { h.regs with hardIndex := hhard, detectZero := fun hd => absurd hd hf }
  run hr := { h.run hr with idxLt := hidx }
  idle hne := absurd hrun hne

theorem ncoAdvance_sound (h : Sound P s) (hrun : s.status = .run) (hf : s.fsm ≠ .detect) : Sound P (ncoAdvance s) :=
  setNco_sound h hrun hf ⟨(h.run hrun).nuLo, (h.run hrun).nuHi⟩

theorem pllStep_sound (h : Sound P s) (hrun : s.status = .run) (hf : s.fsm ≠ .detect) (perr : BitVec 32) :
    Sound P (pllStep perr s) := by
  refine setNco_sound h hrun hf ?_
  rw [clampFreq_toInt]
  exact clampFreq_mem _ _

theorem timerTick_sound (h : Sound P s) (hrun : s.status = .run) (hf : s.fsm ≠ .detect) : Sound P (timerTick s) :=
  setStr_sound h hrun hf (h.run hrun).idxLt h.regs.hardIndex

theorem strobe_sound (hP : P.SizesOk) (h : Sound P s) (hrun : s.status = .run) (hf : s.fsm ≠ .detect) :
    Sound P (strobe P s).1 := by
  have hl := legal_of_sound h hrun
  have hidx := timingOf_spec hl.banksPos (hl.banks.trans hP.2.1)
  exact setStr_sound h hrun hf (hidx ..).1 (hidx ..).2

theorem dlPush_sound (hP : P.SizesOk) (h : Sound P s) (hrun : s.status = .run) (hf : s.fsm ≠ .detect) (z : Dat) :
    Sound P (dlPush z s) := by
  have htaps := (taps_of_sound hP h hrun).trans_le (legal_of_sound h hrun).taps
  have hone : 1 ≤ P.tapsMax := le_trans (Nat.le_add_left 1 _) (legal_of_sound h hrun).taps
  exact
    { masked := h.masked
      tables := { h.tables with }
      buffers := { h.buffers with
        dlWf := memWf_dlPush h.buffers.dlWf
        dlBelow := memBelow_dlPush h.buffers.dlBelow hone htaps }
      regs := { h.regs with dlZero := fun hd => absurd hd hf }
      run := fun hr => { h.run hr with }
      idle := fun hne => absurd hrun hne }

/-- The counters and the quality accumulators are free while parked. -/
theorem setCounters_sound (h : Sound P s) (hrun : s.status = .run) (hf : s.fsm = .reset) (n : BitVec 32) (e : Evm) :
    Sound P { s with symCnt := n, evm := e } where
  masked := h.masked
  tables := { h.tables with }
  buffers := { h.buffers with }
  regs := { h.regs with detectZero := fun hd => absurd (hf.symm.trans hd) nofun }
  run hr := { h.run hr with
    headerCnt := fun hh => absurd (hf.symm.trans hh) nofun
    payloadCnt := fun hp => absurd (hf.symm.trans hp) nofun }
  idle hne := absurd hrun hne

theorem demodded_sound (h : Sound P s) (hrun : s.status = .run) (hf : s.fsm = .reset) (d : Demod) :
    Sound P (demodded d s) :=
  setCounters_sound (pllStep_sound h hrun (hf ▸ nofun) d.perr) hrun hf _ _

theorem storeHdrSym_sound (h : Sound P s) (hrun : s.status = .run) (hf : s.fsm = .reset)
    (hidx : s.symCnt.toNat < P.hsymMax) (sym : Byte) : Sound P (storeHdrSym sym s) :=
  have hc := setCounters_sound h hrun hf (s.symCnt + 1) s.evm
  { masked := h.masked
    tables := { h.tables with }
    buffers := { h.buffers with
      hsymWf := memWf_write h.buffers.hsymWf
      hsymBelow := memBelow_write h.buffers.hsymBelow hidx }
    regs := { hc.regs with }
    run := fun hr => { hc.run hr with }
    idle := fun hne => absurd hrun hne }

theorem storePaySym_sound (h : Sound P s) (hrun : s.status = .run) (hf : s.fsm = .reset)
    (hidx : s.symCnt.toNat < P.paysymMax) (sym : Byte) : Sound P (storePaySym sym s) :=
  have hc := setCounters_sound h hrun hf (s.symCnt + 1) s.evm
  { masked := h.masked
    tables := { h.tables with }
    buffers := { h.buffers with
      psymWf := memWf_write h.buffers.psymWf
      psymBelow := memBelow_write h.buffers.psymBelow hidx }
    regs := { hc.regs with }
    run := fun hr => { hc.run hr with }
    idle := fun hne => absurd hrun hne }

/-- HDEC has room for the decoded header (R124, R253). -/
theorem storeHeader_sound (h : Sound P s) (hrun : s.status = .run) (hdr : List Byte) : Sound P (storeHeader hdr s) :=
  have hlen : 0 + cfgDecBytes s.cfg ≤ P.hbufMax := by
    have := (legal_of_sound h hrun).decBytes
    omega
  { masked := h.masked
    tables := { h.tables with }
    buffers := { h.buffers with
      hdecWf := memWf_setRange h.buffers.hdecWf
      hdecBelow := memBelow_setRange h.buffers.hdecBelow hlen }
    regs := { h.regs with }
    run := fun hr => { h.run hr with }
    idle := fun hne => absurd hrun hne }

/-- The frame registers of a header of 1 to 8 bits a symbol (R29). -/
theorem setHdr_sound (h : Sound P s) (hrun : s.status = .run) (hf : s.fsm = .reset) {r : FrameRegs}
    (hbps : 1 ≤ r.bps.toNat ∧ r.bps.toNat ≤ 8) : Sound P (setHdr r s) where
  masked := h.masked
  tables := { h.tables with }
  buffers := { h.buffers with }
  regs := { h.regs with bpsPos := hbps.1, bpsLe := hbps.2 }
  run hr := { h.run hr with
    payloadCnt := fun hp => absurd (hf.symm.trans hp) nofun
    payloadFits := fun hp => absurd (hf.symm.trans hp) nofun }
  idle hne := absurd hrun hne

/-- The sticky flags are under no invariant. -/
theorem setFlags_sound (h : Sound P s) (hrun : s.status = .run) (a b : Bool) :
    Sound P { s with fGrowth := a, fUnsup := b } where
  masked := h.masked
  tables := { h.tables with }
  buffers := { h.buffers with }
  regs := { h.regs with }
  run hr := { h.run hr with }
  idle hne := absurd hrun hne

theorem growCap_toNat (cap need : BitVec 32) : (growCap cap need).toNat = max cap.toNat need.toNat := by
  unfold growCap
  split <;> omega

/-- Growth stays within the buffers where the needs do (R258, R259). -/
theorem grow_sound (h : Sound P s) (hrun : s.status = .run) (hf : s.fsm = .reset)
    (hsym : s.hdr.nsym.toNat ≤ P.paysymMax) (henc : s.hdr.enc.toNat ≤ P.payencMax)
    (hdec : (s.hdr.len.setWidth 32).toNat ≤ P.paydecMax) : Sound P (grow s) where
  masked := h.masked
  tables := { h.tables with }
  buffers := { h.buffers with
    psymWf := memWf_clear h.buffers.psymWf
    pencWf := memWf_clear h.buffers.pencWf
    pdecWf := memWf_clear h.buffers.pdecWf
    psymBelow := memBelow_clear h.buffers.psymBelow
    pencBelow := memBelow_clear h.buffers.pencBelow
    pdecBelow := memBelow_clear h.buffers.pdecBelow }
  regs := { h.regs with
    capSym := (growCap_toNat ..).trans_le (max_le h.regs.capSym hsym)
    capEnc := (growCap_toNat ..).trans_le (max_le h.regs.capEnc henc)
    capDec := (growCap_toNat ..).trans_le (max_le h.regs.capDec hdec) }
  run hr := { h.run hr with payloadFits := fun hp => absurd (hf.symm.trans hp) nofun }
  idle hne := absurd hrun hne

/-- PENC and PDEC have room for the payload the sizes were checked for (R258, R262). -/
theorem storePayload_sound (h : Sound P s) (hrun : s.status = .run) (henc : s.hdr.enc.toNat ≤ P.payencMax)
    (hdec : s.hdr.len.toNat ≤ P.paydecMax) (enc dec : List Byte) : Sound P (storePayload enc dec s) where
  masked := h.masked
  tables := { h.tables with }
  buffers := { h.buffers with
    pencWf := memWf_setRange h.buffers.pencWf
    pdecWf := memWf_setRange h.buffers.pdecWf
    pencBelow := memBelow_setRange h.buffers.pencBelow ((Nat.zero_add _).trans_le henc)
    pdecBelow := memBelow_setRange h.buffers.pdecBelow ((Nat.zero_add _).trans_le hdec) }
  regs := { h.regs with }
  run hr := { h.run hr with }
  idle hne := absurd hrun hne

/-! ### Completions (R253, R262) -/

theorem endFrame_sound (h : Sound P (parked s)) (k : EventKind) (hv pv pp : Bool) : Sound P (endFrame k hv pv pp s) :=
  emit_sound h _

theorem payloadComplete_sound (h : Sound P (parked s)) (hrun : s.status = .run) (henc : s.hdr.enc.toNat ≤ P.payencMax)
    (hdec : s.hdr.len.toNat ≤ P.paydecMax) : Sound P (payloadComplete P s) :=
  endFrame_sound (storePayload_sound h hrun henc hdec _ _) ..

/-- The three bits of a header give 1 to 8 bits a symbol (R106). -/
theorem parsed_bps (P : Params) (s : State) : 1 ≤ (parsed P s).bps.toNat ∧ (parsed P s).bps.toNat ≤ 8 := by
  refine ⟨parseHeader_bps .., ?_⟩
  simp only [parsed, parseHeader, BitVec.toNat_add, BitVec.toNat_setWidth, BitVec.extractLsb'_toNat,
    BitVec.ofNat_eq_ofNat, BitVec.toNat_ofNat]
  omega

/-- Sizes that pass the test of growth are within the buffers (R258). -/
theorem growthFails_eq_false {h : FrameRegs} (hg : growthFails P h = false) :
    h.nsym.toNat ≤ P.paysymMax ∧ h.enc.toNat ≤ P.payencMax ∧ h.len.toNat ≤ P.paydecMax := by
  simp only [growthFails, Bool.or_eq_false_iff, decide_eq_false_iff_not, not_lt] at hg
  exact ⟨hg.1.1, hg.1.2, hg.2⟩

theorem setWidth_len (l : BitVec 16) : (l.setWidth 32).toNat = l.toNat := by
  rw [BitVec.toNat_setWidth]
  omega

/-- The state in which the buffers have grown for a header that named a payload (R253, R259). -/
def grownFor (P : Params) (s : State) : State := grow (setHdr (sizeFrame P (parsed P s)) (withHeader P s))

theorem withHeader_sound (h : Sound P (parked s)) (hrun : s.status = .run) : Sound P (parked (withHeader P s)) :=
  storeHeader_sound h hrun _

theorem grownFor_sound (h : Sound P (parked s)) (hrun : s.status = .run)
    (hg : growthFails P (sizeFrame P (parsed P s)) = false) : Sound P (parked (grownFor P s)) := by
  obtain ⟨hsym, henc, hdec⟩ := growthFails_eq_false hg
  have hsized := setHdr_sound (r := sizeFrame P (parsed P s)) (withHeader_sound h hrun) hrun rfl (parsed_bps P s)
  exact grow_sound hsized hrun rfl hsym henc ((setWidth_len _).trans_le hdec)

/-- Opening a payload the buffers have grown for (R253): the counters begin as the invariant wants them. -/
theorem openPayload_sound (h : Sound P (parked s)) (hrun : s.status = .run)
    (hg : growthFails P (sizeFrame P (parsed P s)) = false) (hn : (sizeFrame P (parsed P s)).nsym ≠ 0)
    (hcnt : s.evm.cnt = BitVec.ofNat 32 (cfgHdrSyms s.cfg)) : Sound P (openPayload (grownFor P s)) := by
  refine sound_of_parked (setCounters_sound (grownFor_sound h hrun hg) hrun rfl 0 _) hrun nofun nofun
    (fun _ => ⟨?count, ?evm⟩) (fun _ => ⟨?sym, ?enc, ?dec⟩)
  case count =>
    have hne : (sizeFrame P (parsed P s)).nsym.toNat ≠ 0 := fun hz => hn (BitVec.eq_of_toNat_eq hz)
    exact Nat.pos_of_ne_zero hne
  case evm => exact hcnt.trans (BitVec.add_zero _).symm
  case sym => exact (le_max_right _ _).trans_eq (growCap_toNat ..).symm
  case enc => exact (le_max_right _ _).trans_eq (growCap_toNat ..).symm
  case dec => exact ((setWidth_len _).symm.le.trans (le_max_right _ _)).trans_eq (growCap_toNat ..).symm

theorem headerComplete_sound (h : Sound P (parked s)) (hrun : s.status = .run)
    (hcnt : s.evm.cnt = BitVec.ofNat 32 (cfgHdrSyms s.cfg)) : Sound P (headerComplete P s).1 := by
  have hw := withHeader_sound h hrun
  have hbps := parsed_bps P s
  obtain ⟨-, e⟩ | ⟨-, -, e⟩ | ⟨-, -, -, e⟩ | ⟨-, -, hg, -, e⟩ | ⟨-, -, hg, hn, e⟩ := headerComplete_cases P s <;> rw [e]
  · exact endFrame_sound hw ..
  · exact endFrame_sound (setFlags_sound (setHdr_sound hw hrun rfl hbps) hrun s.fGrowth true) ..
  · have hsized := setHdr_sound (r := sizeFrame P (parsed P s)) hw hrun rfl hbps
    exact endFrame_sound (setFlags_sound hsized hrun true s.fUnsup) ..
  · obtain ⟨-, henc, hdec⟩ := growthFails_eq_false hg
    exact payloadComplete_sound (setCounters_sound (grownFor_sound h hrun hg) hrun rfl 0 _) hrun henc hdec
  · exact openPayload_sound h hrun hg hn hcnt

/-! ### PUSH in a frame (R248, R251) -/

theorem cfgHdrSyms_lt (c : Cfg) : cfgHdrSyms c < 2 ^ 16 := regField_lt ..

/-- A header symbol, stored and counted, while parked (R251). -/
theorem headerSymbol_sound (h : Sound P s) (hrun : s.status = .run) (hf : s.fsm = .rxheader) (d : Demod) :
    Sound P (parked (storeHdrSym d.sym (demodded d s))) :=
  have hidx := ((h.run hrun).headerCnt hf).1.trans_le (legal_of_sound h hrun).hdrSyms
  storeHdrSym_sound (demodded_sound (parked_sound h hrun (hf ▸ nofun)) hrun rfl d) hrun rfl hidx d.sym

/-- A payload symbol, stored and counted, while parked (R251). -/
theorem payloadSymbol_sound (h : Sound P s) (hrun : s.status = .run) (hf : s.fsm = .rxpayload) (d : Demod) :
    Sound P (parked (storePaySym d.sym (demodded d s))) :=
  have hidx := (((h.run hrun).payloadCnt hf).1.trans_le ((h.run hrun).payloadFits hf).1).trans_le h.regs.capSym
  storePaySym_sound (demodded_sound (parked_sound h hrun (hf ▸ nofun)) hrun rfl d) hrun rfl hidx d.sym

/-- A counter below a bound counts without wrapping. -/
theorem succ_toNat {n : BitVec 32} {b : Nat} (h : n.toNat < b) (hb : b < 2 ^ 32) : (n + 1).toNat = n.toNat + 1 := by
  rw [BitVec.toNat_add]
  exact Nat.mod_eq_of_lt (by simp only [BitVec.ofNat_eq_ofNat, BitVec.toNat_ofNat]; omega)

theorem onSymbol_header_sound (h : Sound P s) (hrun : s.status = .run) (hf : s.fsm = .rxheader) (y : Dat) :
    Sound P (onSymbol P y s).1 := by
  obtain ⟨hlt, hcnt⟩ := (h.run hrun).headerCnt hf
  have hsucc := succ_toNat hlt ((cfgHdrSyms_lt s.cfg).trans (by norm_num))
  have hstored := headerSymbol_sound h hrun hf (P.modem (cfgHdrScheme s.cfg) (cfgHdrBps s.cfg) y)
  by_cases hlast : (s.symCnt + 1).toNat = cfgHdrSyms s.cfg
  · rw [onSymbol_lastHeader P y s hf hlast]
    refine headerComplete_sound hstored hrun ?_
    show s.evm.cnt + 1 = BitVec.ofNat 32 (cfgHdrSyms s.cfg)
    rw [hcnt, ← hlast, BitVec.ofNat_toNat, BitVec.setWidth_eq]
  · rw [onSymbol_header P y s hf hlast]
    refine sound_of_parked hstored hrun (hf ▸ nofun) (fun _ => ⟨?_, congrArg (· + 1) hcnt⟩) (hf ▸ nofun) (hf ▸ nofun)
    show (s.symCnt + 1).toNat < cfgHdrSyms s.cfg
    omega

theorem onSymbol_payload_sound (h : Sound P s) (hrun : s.status = .run) (hf : s.fsm = .rxpayload) (y : Dat) :
    Sound P (onSymbol P y s).1 := by
  obtain ⟨hlt, hcnt⟩ := (h.run hrun).payloadCnt hf
  obtain ⟨hsym, henc, hdec⟩ := (h.run hrun).payloadFits hf
  have hsucc := succ_toNat hlt s.hdr.nsym.isLt
  have hstored := payloadSymbol_sound h hrun hf (P.modem s.hdr.mod s.hdr.bps y)
  by_cases hlast : s.symCnt + 1 = s.hdr.nsym
  · rw [onSymbol_lastPayload P y s hf hlast]
    exact payloadComplete_sound hstored hrun (henc.trans h.regs.capEnc) (hdec.trans h.regs.capDec)
  · rw [onSymbol_payload P y s hf hlast]
    refine sound_of_parked hstored hrun (hf ▸ nofun) (hf ▸ nofun) (fun _ => ⟨?_, ?_⟩) (fun _ => ⟨hsym, henc, hdec⟩)
    · show (s.symCnt + 1).toNat < s.hdr.nsym.toNat
      have hne : (s.symCnt + 1).toNat ≠ s.hdr.nsym.toNat := fun he => hlast (BitVec.eq_of_toNat_eq he)
      omega
    · show s.evm.cnt + 1 = BitVec.ofNat 32 (cfgHdrSyms s.cfg) + (s.symCnt + 1)
      rw [hcnt, BitVec.add_assoc]

/-- The strobe of a frame, before the modem is asked (R226). -/
theorem beforeSymbol_sound (hP : P.SizesOk) (h : Sound P s) (hrun : s.status = .run) (hf : s.fsm ≠ .detect) (z : Dat) :
    Sound P (timerTick (strobe P (dlPush z (ncoAdvance s))).1) :=
  timerTick_sound (strobe_sound hP (dlPush_sound hP (ncoAdvance_sound h hrun hf) hrun hf z) hrun hf) hrun hf

theorem frameSample_sound (hP : P.SizesOk) (h : Sound P s) (hrun : s.status = .run)
    (hf : s.fsm = .rxheader ∨ s.fsm = .rxpayload) (x : Smp) : Sound P (frameSample P x s).1 := by
  have hne : s.fsm ≠ .detect := by rcases hf with hf | hf <;> rw [hf] <;> nofun
  obtain ⟨-, e⟩ | ⟨-, e⟩ := frameSample_cases P x s
  · rw [e]
    exact timerTick_sound (dlPush_sound hP (ncoAdvance_sound h hrun hne) hrun hne _) hrun hne
  · simp only at e
    rw [e]
    have hbefore := beforeSymbol_sound hP h hrun hne (mixedSample P x s)
    rcases hf with hf | hf
    · exact onSymbol_header_sound hbefore hrun hf _
    · exact onSymbol_payload_sound hbefore hrun hf _

theorem pushSample_sound (hP : P.SizesOk) (h : Sound P s) (hrun : s.status = .run) (x : Smp) :
    Sound P (pushSample P x s).1 := by
  cases hf : s.fsm with
  | detect =>
    rw [pushSample_detect P x hf]
    exact detectSample_sound hP (agcTrack_sound h hrun x) hrun hf x
  | reset =>
    rw [pushSample_reset P x hf]
    exact detectSample_sound hP (agcTrack_sound (reacquire_sound h hrun s.sq) hrun x) hrun rfl x
  | rxheader =>
    rw [pushSample_frame P x (.inl hf)]
    exact frameSample_sound hP (agcTrack_sound h hrun x) hrun (.inl hf) x
  | rxpayload =>
    rw [pushSample_frame P x (.inr hf)]
    exact frameSample_sound hP (agcTrack_sound h hrun x) hrun (.inr hf) x

/-! ### Every step -/

theorem pushWith_sound (hP : P.SizesOk) (h : Sound P s) (x : Smp) : Sound P (pushWith P x s) := by
  unfold pushWith
  split
  next hr => exact respond_sound (pushSample_sound hP h (beq_iff_eq.1 hr) x) _ _
  next => exact respond_sound h _ _

theorem initWith_sound (h : Sound P s) : Sound P (initWith P s) := by
  unfold initWith
  split
  next hne =>
    simp only
    split
    next hcheck => exact respond_sound (construct_sound h hcheck) _ _
    next hcheck => exact respond_sound (deadState_sound h (by simpa [notRunning] using hne) hcheck) _ _
  next => exact respond_sound h _ _

/-- The action of a command whose checks pass (R330). -/
theorem action_sound (hP : P.SizesOk) (h : Sound P s) {i : Instr} (hst : statusAccepts i s.status = true)
    (hadr : addressAccepts P s i = true) (hcfg : i = .init → configCheck P s = 0) : Sound P (action P i s).1 := by
  cases i with
  | nop | rdreg | rdref | rdmf | rddmf | rdhdr | rdpay => exact h
  | init => exact construct_sound h (hcfg rfl)
  | srst => exact srst_sound h (beq_iff_eq.1 hst)
  | dstr => exact destroy_sound h
  | wrcfg addr data => exact wrcfg_sound h (bne_iff_ne.1 hst) addr data
  | wrref addr re im => exact wrref_sound h (bne_iff_ne.1 hst) (of_decide_eq_true hadr) _
  | wrmf bank tap coef =>
    obtain ⟨hb, ht⟩ := Bool.and_eq_true_iff.1 hadr
    exact wrmf_sound h (bne_iff_ne.1 hst) (of_decide_eq_true hb) (of_decide_eq_true ht) _
  | wrdmf bank tap coef =>
    obtain ⟨hb, ht⟩ := Bool.and_eq_true_iff.1 hadr
    exact wrdmf_sound h (bne_iff_ne.1 hst) (of_decide_eq_true hb) (of_decide_eq_true ht) _
  | push re im => exact pushSample_sound hP h (beq_iff_eq.1 hst) _

theorem answered_sound (hP : P.SizesOk) (h : Sound P s) (i : Instr) : Sound P (answered P i s) := by
  obtain ⟨-, -, e⟩ | ⟨-, -, e⟩ | ⟨-, rfl, hst, hcheck, e⟩ | ⟨-, hst, hadr, hcfg, e⟩ := answered_cases P i s <;> rw [e]
  · exact respond_sound h _ _
  · exact respond_sound h _ _
  · exact respond_sound (deadState_sound h (bne_iff_ne.1 hst) hcheck) _ _
  · exact respond_sound (action_sound hP h hst hadr hcfg) _ _

/-- R57: a step from a sound state answers a sound state. -/
theorem step_sound {s : State} (h : Sound build s) : ∃ t, step s = .next t ∧ Sound build t := by
  cases hin : s.inputs with
  | nil => exact ⟨_, step_of_no_input hin, sound_withPorts h s.inputs none none⟩
  | cons y rest =>
    cases y with
    | hreset => exact ⟨_, step_of_hreset hin, resetState_sound build rest _⟩
    | command w =>
      cases hdec : decode w with
      | ok i =>
        exact ⟨_, (step_of_decode_ok hin hdec).trans (exec_eq i _),
          answered_sound build_sizesOk (beginCommand_sound h rest) i⟩
      | error e =>
        exact ⟨_, step_of_decode_error hin hdec, respond_sound (beginCommand_sound h rest) _ _⟩

end

/-- Settles O60: each unit keeps the invariant, in every build; so does each command, and each step. -/
theorem soundIsKeptByEveryStep : Obligations.SoundIsKeptByEveryStep :=
  ⟨fun _ h => step_sound h, fun _ x _ hP h => ⟨initWith_sound h, pushWith_sound hP h x⟩⟩

end Sys2Proof.Machine
end

section
/-! The control commands INIT, SRST and DSTR (R123 to R128), as what each leaves of the state. -/

namespace Sys2Proof.Machine

/-! ### A cleared buffer -/

theorem clearedBelow_clear {α : Type} (z : α) (m : Mem α) (n : Nat) :
    ClearedBelow n z (memRead z m) (memRead z (memClear m 0 n)) := by
  intro i
  simp only [memRead_clear, Nat.zero_le, true_and]

theorem runInit_runFresh (s : State) : RunFresh (runInit s) :=
  ⟨⟨rfl, rfl, rfl, rfl, rfl, rfl⟩, rfl, rfl, rfl, rfl, rfl⟩

theorem construct_runFresh (P : Params) (s : State) : RunFresh (construct P s) := runInit_runFresh _

theorem destroy_runFresh (s : State) : RunFresh (destroy s) := runInit_runFresh _

/-! ### INIT (R123) -/

theorem geometryOk_iff (P : Params) (s : State) : geometryOk P s = true ↔
    2 ≤ cfgSps s.cfg ∧ badFilter P s.cfg = false ∧ badPreamble P s.cfg = false ∧ badBanks P s.cfg = false ∧
      badEnergy P s = false ∧ badHeader P s.cfg = false ∧ cfgDebounce s.cfg ≠ 0 := by
  simp only [geometryOk, Bool.and_eq_true, decide_eq_true_eq, Bool.not_eq_true', bne_iff_ne, and_assoc]

/-- The modem decides, all other tests passing (R124). -/
theorem configCheck_of_geometryOk {P : Params} {s : State} (hg : geometryOk P s = true) : configCheck P s =
    if P.modSupported (cfgHdrScheme s.cfg) (cfgHdrBps s.cfg) = true then 0 else 0x40 := by
  obtain ⟨hsps, hfilter, hpre, hbanks, henergy, hheader, hdeb⟩ := (geometryOk_iff P s).1 hg
  have hsps : decide (cfgSps s.cfg < 2) = false := decide_eq_false (not_lt.2 hsps)
  have hdeb : (cfgDebounce s.cfg == 0) = false := beq_eq_false_iff_ne.2 hdeb
  rw [configCheck, hsps, hfilter, hpre, hbanks, henergy, hheader, hdeb]
  cases P.modSupported (cfgHdrScheme s.cfg) (cfgHdrBps s.cfg) <;> rfl

/-- INIT outside RUN (R123, R124). -/
theorem exec_init {s : State} (hne : s.status ≠ .run) : exec .init s = .next (
    if configCheck build s = 0 then respond .ok 0 (construct build s)
    else respond .errCfg ((configCheck build s).setWidth 32)
      { s with status := .dead, cfgCause := configCheck build s }) := by
  have hst : notRunning s = true := bne_iff_ne.2 hne
  simp only [exec, execInit, initWith, hst, if_true]

/-- `pref` fits its register: the mean power of the reference is below `2^32` (R52). -/
theorem derive_pref (P : Params) (s : State) :
    (derive P s).pref.toNat = refEnergy P s / 64 / cfgWindow s.cfg := by
  have hle : refEnergy P s / 64 / cfgWindow s.cfg ≤ 2 ^ 25 := by
    have := refEnergy_le (P := P) (s := s) (b := cfgWindow s.cfg) le_rfl
    exact Nat.div_le_of_le_mul (by omega)
  have hval : fdiv (asr (refEnergy P s) 6) (cfgWindow s.cfg) =
        ((refEnergy P s / 64 / cfgWindow s.cfg : Nat) : Int) := by
    unfold fdiv asr
    rw [Int.fdiv_eq_ediv_of_nonneg _ (Int.natCast_nonneg _)]
    norm_cast
  rw [derive, hval, BitVec.ofInt_natCast]
  exact toNat_ofNat_of_lt (by omega)

/-- Settles O18: `configCheck` is 0 or the modem's bit, and the constants derived fit their registers. -/
theorem initConstructsTheObject : Obligations.InitConstructsTheObject := by
  intro s hne hg
  refine ⟨_, exec_init hne, ?_⟩
  rw [configCheck_of_geometryOk hg]
  by_cases hmod : build.modSupported (cfgHdrScheme s.cfg) (cfgHdrBps s.cfg) = true
  · simp only [hmod, if_true]
    have hl : Legal build s := legal_of_check (by rw [configCheck_of_geometryOk hg, if_pos hmod])
    have hn := derive_n build s
    have htaps : (derive build s).taps.toNat = cfgTaps s.cfg := derive_taps hl.taps
    have hes : (derive build s).es.toNat = refEnergy build s := derive_es (hl.window.trans build_sizesOk.1)
    refine ⟨rfl, rfl, ⟨rfl, rfl, rfl, rfl, rfl, rfl⟩, rfl, rfl, rfl, rfl, rfl, rfl, construct_runFresh build s, hn,
      htaps, ?es,
      ?pref, clearedBelow_clear _ _ _, clearedBelow_clear _ _ _, clearedBelow_clear _ _ _, rfl, rfl, rfl, rfl⟩
    case es =>
      show (derive build s).es.toNat = nsum _ (derive build s).n.toNat
      rw [hn, hes]
      rfl
    case pref =>
      show (derive build s).pref.toNat = (derive build s).es.toNat / 64 / (derive build s).n.toNat
      rw [hn, hes, derive_pref]
  · rw [if_neg hmod, if_neg hmod]
    rfl

/-! ### SRST and DSTR (R127, R128) -/

theorem exec_srst {s : State} (hrun : s.status = .run) : exec .srst s = .next (respond .ok 0 (runInit s)) := by
  have hst : running s = true := beq_iff_eq.2 hrun
  simp only [exec, execSrst, hst, if_true]

theorem exec_dstr {s : State} (hne : s.status ≠ .uninit) : exec .dstr s = .next (respond .ok 0 (destroy s)) := by
  have hst : constructed s = true := bne_iff_ne.2 hne
  simp only [exec, execDstr, hst, if_true]

/-- Settles O19: `run_init`, which writes none of the registers kept. -/
theorem srstRestartsTheObject : Obligations.SrstRestartsTheObject := fun s hrun =>
  ⟨_, exec_srst hrun, rfl, rfl, ⟨rfl, rfl, rfl, rfl, rfl, rfl⟩, runInit_runFresh s, hrun, rfl, rfl, rfl, rfl, rfl, rfl,
    clearedBelow_clear _ _ _, clearedBelow_clear _ _ _, rfl, rfl, rfl, rfl, rfl⟩

/-- A range of no entries is cleared by writing nothing. -/
theorem memClear_empty {α : Type} (m : Mem α) : memClear m 0 0 = m := by
  simp [memClear]

/-- Settles O20: the derived constants are 0 before `run_init`, so its clearing loops are empty. -/
theorem dstrDestroysTheObject : Obligations.DstrDestroysTheObject := fun s hne =>
  ⟨_, exec_dstr hne, rfl, rfl, ⟨rfl, rfl, rfl, rfl, rfl, rfl⟩, destroy_runFresh s, rfl, rfl, rfl, rfl, rfl, rfl, rfl,
    memClear_empty s.win, memClear_empty s.dl, rfl, rfl, rfl, rfl, rfl⟩

end Sys2Proof.Machine
end

section
/-! The access commands (R130 to R139), each in the order of its checks, and the read map (R53). -/

namespace Sys2Proof.Machine

/-! ### The answers by code -/

section
variable {i : Instr} {s : State}

theorem exec_of_errState (h : answerCode build i s = .errState) :
    exec i s = .next { s with resp := some (respWord .errState 0) } := by
  rw [exec_eq, answered, h]
  rfl

theorem exec_of_errAddr (h : answerCode build i s = .errAddr) :
    exec i s = .next { s with resp := some (respWord .errAddr 0) } := by
  rw [exec_eq, answered, h]
  rfl

theorem answerCode_of_refused {P : Params} (hst : statusAccepts i s.status = false) : answerCode P i s = .errState := by
  simp only [answerCode, hst, Bool.false_eq_true, if_false]

theorem answerCode_of_badAddress {P : Params} (hst : statusAccepts i s.status = true)
    (hadr : addressAccepts P s i = false) : answerCode P i s = .errAddr := by
  simp only [answerCode, hst, hadr, Bool.false_eq_true, if_false, if_true]

theorem answerCode_of_accepted {P : Params} (hst : statusAccepts i s.status = true)
    (hadr : addressAccepts P s i = true) (hi : i ≠ .init) : answerCode P i s = .ok := by
  simp only [answerCode, hst, hadr, hi, false_and, if_false, if_true]

end

/-! ### The writes -/

/-- Settles O21: the masked data at one register; `cfgPut` writes no other. -/
theorem wrcfgStoresMaskedData : Obligations.WrcfgStoresMaskedData := by
  intro addr data s
  refine ⟨fun hrun => ?state, fun hne hadr => ?addr, fun hne hadr => ?ok⟩
  case state => exact exec_of_errState (answerCode_of_refused (by rw [hrun]; rfl))
  case addr => exact exec_of_errAddr (answerCode_of_badAddress (bne_iff_ne.2 hne) hadr)
  case ok =>
    obtain ⟨r, hr⟩ := Option.isSome_iff_exists.1 ((cfgRegAt_isSome addr).trans hadr)
    refine ⟨r, cfgPut s.cfg r (data &&& cfgMask r), hr, ?_, fun q => cfgGet_cfgPut ..⟩
    rw [exec_of_answerCode_ok (answerCode_of_accepted (i := .wrcfg addr data) (bne_iff_ne.2 hne) hadr nofun)]
    simp only [action, putCfg, hr, respond]

/-- Settles O22: the insertion is read at its own index only. -/
theorem wrrefStoresOneEntry : Obligations.WrrefStoresOneEntry := by
  intro addr re im s
  refine ⟨fun hrun => ?state, fun hne hidx => ?addr, fun hne hidx => ?ok⟩
  case state => exact exec_of_errState (answerCode_of_refused (by rw [hrun]; rfl))
  case addr => exact exec_of_errAddr (answerCode_of_badAddress (bne_iff_ne.2 hne) (decide_eq_false (not_lt.2 hidx)))
  case ok =>
    refine ⟨_, exec_of_answerCode_ok (answerCode_of_accepted (bne_iff_ne.2 hne) (decide_eq_true hidx) nofun), rfl,
      fun i => ?_⟩
    simp only [refAt, action, respond, memFind_insert]
    split <;> rfl

/-- A coefficient after a write of a coefficient (R132, R133). -/
theorem coef_insert {m : Mem Coef} {bank tap : BitVec 8} {v z : Coef} {b j : Nat} (hj : j < 256) :
    (memFind (memInsert m (coefKey bank.toNat tap.toNat) v) (coefKey b j)).getD z =
      if b = bank.toNat ∧ j = tap.toNat then v else (memFind m (coefKey b j)).getD z := by
  rw [memFind_insert]
  simp only [coefKey_inj hj]
  split <;> rfl

/-- Settles O23: the two tables are written alike, each in its own memory. -/
theorem wrmfWrdmfStoreOneCoefficient : Obligations.WrmfWrdmfStoreOneCoefficient := by
  intro bank tap coef s
  refine ⟨fun hrun => ⟨?_, ?_⟩, fun hne hidx => ?addr, fun hne hb ht => ?ok⟩
  · exact exec_of_errState (answerCode_of_refused (by rw [hrun]; rfl))
  · exact exec_of_errState (answerCode_of_refused (by rw [hrun]; rfl))
  case addr =>
    have hadr : (decide (bank.toNat < build.npfbMax) && decide (tap.toNat < build.tapsMax)) = false := by
      simpa only [Bool.and_eq_false_iff, decide_eq_false_iff_not, not_lt] using hidx
    exact ⟨exec_of_errAddr (answerCode_of_badAddress (bne_iff_ne.2 hne) hadr),
      exec_of_errAddr (answerCode_of_badAddress (bne_iff_ne.2 hne) hadr)⟩
  case ok =>
    have hadr : (decide (bank.toNat < build.npfbMax) && decide (tap.toNat < build.tapsMax)) = true := by
      simp only [hb, ht, decide_true, Bool.and_true]
    exact ⟨⟨_, exec_of_answerCode_ok (answerCode_of_accepted (bne_iff_ne.2 hne) hadr nofun), rfl,
        fun _ _ => coef_insert⟩,
      _, exec_of_answerCode_ok (answerCode_of_accepted (bne_iff_ne.2 hne) hadr nofun), rfl, fun _ _ => coef_insert⟩

/-! ### The reads -/

/-- Settles O24: the addresses that answer are those that have a register. -/
theorem rdregAnswersTheRegister : Obligations.RdregAnswersTheRegister := by
  intro addr s
  refine ⟨fun hadr => exec_of_errAddr (answerCode_of_badAddress rfl hadr), fun hadr => ?_⟩
  obtain ⟨v, hv⟩ := Option.isSome_iff_exists.1 ((readReg_isSome s addr).trans hadr)
  refine ⟨v, hv, exec_rdreg_of_readReg hv, fun r hr => ?_⟩
  rw [readReg_of_cfgRegAt s hr] at hv
  exact (Option.some.inj hv).symm

/-- Zero-extension is a concatenation with zeros. -/
theorem setWidth_eq_append {n : Nat} (k : Nat) (v : BitVec n) : v.setWidth (k + n) = 0#k ++ v := by
  apply BitVec.eq_of_toNat_eq
  rw [append_toNat, BitVec.toNat_setWidth, BitVec.toNat_ofNat, Nat.zero_mod, Nat.zero_mul, Nat.zero_add]
  exact Nat.mod_eq_of_lt (v.isLt.trans_le (Nat.pow_le_pow_right two_pos (Nat.le_add_left n k)))

/-- Settles O25: the rows of the map, those narrower than 32 bits extended with zeros. -/
theorem runRegisterMap : Obligations.RunRegisterMap := by
  intro s
  have hidx : s.str.idx.setWidth 32 = 0#24 ++ s.str.idx := setWidth_eq_append 24 _
  have htaps : s.der.taps.setWidth 32 = 0#16 ++ s.der.taps := setWidth_eq_append 16 _
  have hlen : s.hdr.len.setWidth 32 = 0#16 ++ s.hdr.len := setWidth_eq_append 16 _
  rw [← hidx, ← htaps, ← hlen]
  exact ⟨rfl, rfl, rfl, rfl, rfl, rfl, rfl, rfl, rfl, rfl, rfl, rfl, rfl, rfl, rfl, rfl, rfl, rfl, rfl, rfl, rfl, rfl,
    rfl, rfl, rfl, rfl, rfl, rfl, rfl, rfl, rfl, rfl⟩

/-! ### Words made of fields -/

/-- A bit of a word, by division. -/
theorem getLsbD_of_toNat {n : Nat} {v : BitVec n} {k : Nat} {b : Bool} (h : v.toNat / 2 ^ k % 2 = b.toNat) :
    v.getLsbD k = b := by
  rw [BitVec.getLsbD, Nat.testBit_eq_decide_div_mod_eq, h]
  cases b <;> rfl

/-- A field of a word, by division. -/
theorem extractLsb'_of_toNat {n lo len : Nat} {v : BitVec n} {f : BitVec len}
    (h : v.toNat / 2 ^ lo % 2 ^ len = f.toNat) :
    v.extractLsb' lo len = f := by
  apply BitVec.eq_of_toNat_eq
  rw [BitVec.extractLsb'_toNat, Nat.shiftRight_eq_div_pow, h]

/-- The STATUS word as a number (R53). -/
theorem statusWord_toNat (s : State) : (statusWord s).toNat =
    s.fUnsup.toNat * 2 ^ 17 + s.fGrowth.toNat * 2 ^ 16 + s.cfgCause.toNat * 2 ^ 8 +
      (detModeCode s.det.mode).toNat * 2 ^ 6 + s.sq.closed.toNat * 2 ^ 5 + (bwCode s.bw).toNat * 2 ^ 4 +
      (fsmCode s.fsm).toNat * 2 ^ 2 + (statusCode s.status).toNat := by
  simp only [statusWord, append_toNat, BitVec.toNat_ofBool, BitVec.toNat_ofNat, Nat.zero_mod]
  ring

theorem bwCode_eq_one_iff (b : Bw) : (bwCode b).toNat = 1 ↔ b = .closedBw := by cases b <;> decide

theorem detModeCode_eq_one_iff (m : DetMode) : (detModeCode m).toNat = 1 ↔ m = .findPeak := by cases m <;> decide

/-- The STATUS word, field by field. -/
theorem statusWord_fields (s : State) : let v := statusWord s
    v.extractLsb' 0 2 = statusCode s.status ∧ v.extractLsb' 2 2 = fsmCode s.fsm ∧
      (v.getLsbD 4 = true ↔ s.bw = .closedBw) ∧ v.getLsbD 5 = s.sq.closed ∧
      (v.getLsbD 6 = true ↔ s.det.mode = .findPeak) ∧ v.getLsbD 7 = false ∧ v.extractLsb' 8 8 = s.cfgCause ∧
      v.getLsbD 16 = s.fGrowth ∧ v.getLsbD 17 = s.fUnsup ∧ v.extractLsb' 18 14 = 0 := by
  have hv := statusWord_toNat s
  have hunsup := s.fUnsup.toNat_le
  have hgrowth := s.fGrowth.toNat_le
  have hclosed := s.sq.closed.toNat_le
  have hcause := s.cfgCause.isLt
  have hmode := (detModeCode s.det.mode).isLt
  have hbw := (bwCode s.bw).isLt
  have hfsm := (fsmCode s.fsm).isLt
  have hstatus := (statusCode s.status).isLt
  refine ⟨extractLsb'_of_toNat ?_, extractLsb'_of_toNat ?_, ?bw, getLsbD_of_toNat ?_, ?mode, getLsbD_of_toNat ?gap,
    extractLsb'_of_toNat ?_, getLsbD_of_toNat ?_, getLsbD_of_toNat ?_, extractLsb'_of_toNat ?top⟩
  case bw =>
    rw [BitVec.getLsbD, Nat.testBit_eq_decide_div_mod_eq, decide_eq_true_iff, ← bwCode_eq_one_iff]
    omega
  case mode =>
    rw [BitVec.getLsbD, Nat.testBit_eq_decide_div_mod_eq, decide_eq_true_iff, ← detModeCode_eq_one_iff]
    omega
  case gap =>
    rw [Bool.toNat_false]
    omega
  case top =>
    rw [BitVec.ofNat_eq_ofNat, BitVec.toNat_ofNat, Nat.zero_mod]
    omega
  all_goals omega

/-- A wide register is its high half over its low half (R63 c). -/
theorem halves_append {n : Nat} (hn : n ≤ 64) (v : BitVec n) : hiHalf v ++ loHalf v = v.setWidth 64 := by
  have hv : v.toNat < 2 ^ 64 := v.isLt.trans_le (Nat.pow_le_pow_right two_pos hn)
  apply BitVec.eq_of_toNat_eq
  simp only [hiHalf, loHalf, append_toNat, BitVec.toNat_setWidth, BitVec.toNat_ushiftRight, Nat.shiftRight_eq_div_pow]
  omega

/-- Settles O26: STATUS by its fields, and each wide register by its halves. -/
theorem statusAndWideRegistersRead : Obligations.StatusAndWideRegistersRead := fun s =>
  ⟨⟨_, rfl, statusWord_fields s⟩, ⟨_, _, rfl, rfl, halves_append (by norm_num) _⟩,
    ⟨_, _, rfl, rfl, (halves_append (by norm_num) _).trans (BitVec.setWidth_eq _)⟩,
    ⟨_, _, rfl, rfl, halves_append (by norm_num) _⟩, _, _, rfl, rfl, halves_append (by norm_num) _⟩

/-! ### The reads of the tables and of the decoded bytes -/

/-- A read behind a check (R129). -/
theorem readFrame_guarded (ok : Bool) (v : BitVec 32) (s : State) : readFrame (guarded ok v) s =
    if ok = true then { s with resp := some (respWord .ok v) } else { s with resp := some (respWord .errAddr 0) } := by
  cases ok <;> rfl

/-- Settles O27: the table reads have no check of the status. -/
theorem tableReadsAnswerTheEntry : Obligations.TableReadsAnswerTheEntry := by
  intro s
  have hzext : ∀ c : Coef, c.setWidth 32 = 0#16 ++ c := setWidth_eq_append 16
  refine ⟨fun addr => ?_, fun bank tap => ⟨?_, ?_⟩⟩
  · simp only [exec, execRdref, rdrefWith, readFrame_guarded, refOk, smpBits, decide_eq_true_eq]
  · simp only [exec, execRdmf, rdmfWith, readFrame_guarded, coefOk, Bool.and_eq_true, decide_eq_true_eq, hzext]
  · simp only [exec, execRddmf, rddmfWith, readFrame_guarded, coefOk, Bool.and_eq_true, decide_eq_true_eq, hzext]

theorem hdrIdxOk_iff (c : Cfg) (addr : BitVec 16) : hdrIdxOk c addr = true ↔ addr.toNat < cfgUserBytes c + 6 :=
  decide_eq_true_iff

/-- Settles O28: outside RUN the status refuses both, in RUN the index decides. -/
theorem decodedBytesReadInRunOnly : Obligations.DecodedBytesReadInRunOnly := by
  intro addr s
  have hzext : ∀ b : Byte, b.setWidth 32 = 0#24 ++ b := setWidth_eq_append 24
  refine ⟨fun hne => ?_, fun hrun => ⟨?_, ?_⟩⟩
  · have hst : (s.status == .run) = false := beq_eq_false_iff_ne.2 hne
    exact ⟨exec_of_errState (answerCode_of_refused hst), exec_of_errState (answerCode_of_refused hst)⟩
  · simp only [exec, execRdhdr, readInRun_eq, hrun, if_true, readFrame_guarded, hdrIdxOk_iff, hzext]
  · simp only [exec, execRdpay, readInRun_eq, hrun, if_true, readFrame_guarded, payIdxOk, decide_eq_true_eq, hzext]

/-! ### A write and the read that follows it -/

/-- Two commands from the queue: the response of the second is what it answers in the state the first leaves. -/
theorem run_two_commands {s t u : State} {i j : Instr}
    (hfirst : exec i (beginCommand [.command (encode j)] s) = .next t)
    (hsecond : exec j (beginCommand [] t) = .next u) :
    Host.Core.run core 2 { s with inputs := [.command (encode i), .command (encode j)] } = .next u := by
  have hin : t.inputs = [.command (encode j)] := exec_inputs hfirst
  have hstep : step { s with inputs := [.command (encode i), .command (encode j)] } = .next t :=
    (step_of_decode_ok rfl (decode_encode i)).trans hfirst
  rw [run_next hstep, run_next ((step_of_decode_ok hin (decode_encode j)).trans hsecond)]
  rfl

/-- Settles O29: the read answers the entry, which is the one the write inserted. -/
theorem writtenEntriesReadBack : Obligations.WrittenEntriesReadBack := by
  intro s hne
  refine ⟨fun addr re im hidx => ?ref, fun bank tap coef hb ht => ⟨?mf, ?dmf⟩⟩
  case ref =>
    obtain ⟨-, -, hwrite⟩ := wrrefStoresOneEntry addr re im (beginCommand [.command (encode (.rdref addr))] s)
    obtain ⟨t, hexec, -, hread⟩ := hwrite hne hidx
    refine ⟨_, run_two_commands hexec ((tableReadsAnswerTheEntry _).1 addr), ?_⟩
    have hentry : refAt build (beginCommand [] t) addr.toNat = ⟨re, im⟩ := (hread addr.toNat).trans (if_pos rfl)
    simp only [hidx, if_true, hentry]
  case mf =>
    obtain ⟨-, -, hwrite⟩ :=
      wrmfWrdmfStoreOneCoefficient bank tap coef (beginCommand [.command (encode (.rdmf bank tap))] s)
    obtain ⟨⟨t, hexec, -, hread⟩, -⟩ := hwrite hne hb ht
    refine ⟨_, run_two_commands hexec ((tableReadsAnswerTheEntry _).2 bank tap).1, ?_⟩
    have hentry : mfAt build (beginCommand [] t) bank.toNat tap.toNat = coef :=
      (hread bank.toNat tap.toNat tap.isLt).trans (if_pos ⟨rfl, rfl⟩)
    simp only [hb, ht, and_self, if_true, hentry]
  case dmf =>
    obtain ⟨-, -, hwrite⟩ :=
      wrmfWrdmfStoreOneCoefficient bank tap coef (beginCommand [.command (encode (.rddmf bank tap))] s)
    obtain ⟨-, t, hexec, -, hread⟩ := hwrite hne hb ht
    refine ⟨_, run_two_commands hexec ((tableReadsAnswerTheEntry _).2 bank tap).2, ?_⟩
    have hentry : dmfAt build (beginCommand [] t) bank.toNat tap.toNat = coef :=
      (hread bank.toNat tap.toNat tap.isLt).trans (if_pos ⟨rfl, rfl⟩)
    simp only [hb, ht, and_self, if_true, hentry]

end Sys2Proof.Machine
end

section
/-! Growth, header fields and the event record (R106, R259, R301). -/

namespace Sys2Proof.Machine

/-! ### Growth (R259) -/

/-- Settles O43: each capacity is a maximum, and the entries between the two bounds are cleared. -/
theorem growthRaisesCapacities : Obligations.GrowthRaisesCapacities := by
  intro s
  refine ⟨growCap_toNat .., growCap_toNat .., ?dec, fun i => memRead_clear .., fun i => memRead_clear ..,
    fun i => memRead_clear .., rfl⟩
  case dec => exact (growCap_toNat ..).trans (by rw [setWidth_len])

/-! ### The header on the wire (R106) -/

theorem extractLsb'_toNat_eq {n : Nat} (v : BitVec n) (lo len : Nat) :
    (v.extractLsb' lo len).toNat = v.toNat / 2 ^ lo % 2 ^ len := by
  rw [BitVec.extractLsb'_toNat, Nat.shiftRight_eq_div_pow]

/-- Three bits and one more: the sum does not wrap (R106). -/
theorem bitsPlusOne_toNat (b : Byte) : ((b.extractLsb' 0 3).setWidth 4 + 1).toNat = b.toNat % 8 + 1 := by
  simp only [BitVec.toNat_add, BitVec.toNat_setWidth, extractLsb'_toNat_eq, BitVec.ofNat_eq_ofNat, BitVec.toNat_ofNat]
  omega

/-- Settles O45: each field of the wire layout as a quotient and a remainder of its byte. -/
theorem headerFieldsAreParsed : Obligations.HeaderFieldsAreParsed := by
  intro u hdr old b h
  have hb : ∀ i, (b i).toNat < 2 ^ 8 := fun i => (b i).isLt
  have h2 := hb 2
  have h3 := hb 3
  have h4 := hb 4
  refine ⟨append_toNat .., (extractLsb'_toNat_eq (b 2) 3 5).trans ?_, bitsPlusOne_toNat (b 2),
    (extractLsb'_toNat_eq (b 3) 5 3).trans ?_, (extractLsb'_toNat_eq (b 3) 0 5).trans ?_,
    (extractLsb'_toNat_eq (b 4) 0 5).trans ?_, rfl, rfl, rfl⟩
  all_goals omega

/-! ### The event record (R301) -/

/-- W0 as a number. -/
theorem eventW0_toNat (k : EventKind) (hv pv pp : Bool) (h : FrameRegs) : (eventW0 k hv pv pp h).toNat =
    (eventFields k h).ver.toNat * 2 ^ 48 + (eventFields k h).fec1.toNat * 2 ^ 40 +
      (eventFields k h).fec0.toNat * 2 ^ 35 + (eventFields k h).crc.toNat * 2 ^ 32 +
      (((eventFields k h).bps - 1).setWidth 3).toNat * 2 ^ 29 +
      (eventFields k h).mod.toNat * 2 ^ 24 + (eventFields k h).len.toNat * 2 ^ 8 + pp.toNat * 2 ^ 6 + pv.toNat * 2 ^ 5 +
      hv.toNat * 2 ^ 4 + (kindBits k).toNat := by
  simp only [eventW0, append_toNat, BitVec.toNat_ofBool, BitVec.toNat_ofNat, Nat.zero_mod]
  ring

/-- A record of a failed header carries no header fields (R301). -/
theorem eventFields_headerFailed (h : FrameRegs) : eventFields .headerFailed h = hdrReset := rfl

theorem eventFields_of_ne {k : EventKind} (hk : k ≠ .headerFailed) (h : FrameRegs) : eventFields k h = h := by
  cases k with
  | headerFailed => exact absurd rfl hk
  | frameComplete | unsupported | growthFailed => rfl

/-- The two halves of a word of two registers. -/
theorem extractLsb'_append_halves (a b : BitVec 32) :
    (a ++ b).extractLsb' 0 32 = b ∧ (a ++ b).extractLsb' 32 32 = a := by
  have ha := a.isLt
  have hb := b.isLt
  constructor <;> refine extractLsb'_of_toNat ?_ <;> rw [append_toNat] <;> omega

/-- The kind and the flags of W0 (R301). -/
theorem eventW0_flags (k : EventKind) (hv pv pp : Bool) (h : FrameRegs) : let w := eventW0 k hv pv pp h
    w.extractLsb' 0 4 = kindBits k ∧ w.getLsbD 4 = hv ∧ w.getLsbD 5 = pv ∧ w.getLsbD 6 = pp ∧ w.getLsbD 7 = false := by
  have hw := eventW0_toNat k hv pv pp h
  have hpp := pp.toNat_le
  have hpv := pv.toNat_le
  have hhv := hv.toNat_le
  have hk := (kindBits k).isLt
  refine ⟨extractLsb'_of_toNat ?_, getLsbD_of_toNat ?_, getLsbD_of_toNat ?_, getLsbD_of_toNat ?_, getLsbD_of_toNat ?gap⟩
  case gap =>
    rw [Bool.toNat_false]
    omega
  all_goals omega

/-- The header fields of W0 (R301, R302). -/
theorem eventW0_fields {k : EventKind} {h f : FrameRegs} (hf : eventFields k h = f) (hv pv pp : Bool) :
    let w := eventW0 k hv pv pp h
    w.extractLsb' 8 16 = f.len ∧ w.extractLsb' 24 5 = f.mod ∧ w.extractLsb' 29 3 = (f.bps - 1).setWidth 3 ∧
      w.extractLsb' 32 3 = f.crc ∧ w.extractLsb' 35 5 = f.fec0 ∧ w.extractLsb' 40 5 = f.fec1 ∧
      w.extractLsb' 45 3 = 0 ∧ w.extractLsb' 48 8 = f.ver ∧ w.extractLsb' 56 8 = 0 := by
  have hw := eventW0_toNat k hv pv pp h
  rw [hf] at hw
  have hpp := pp.toNat_le
  have hpv := pv.toNat_le
  have hhv := hv.toNat_le
  have hk := (kindBits k).isLt
  have hlen := f.len.isLt
  have hmod := f.mod.isLt
  have hbps := ((f.bps - 1).setWidth 3).isLt
  have hcrc := f.crc.isLt
  have hfec0 := f.fec0.isLt
  have hfec1 := f.fec1.isLt
  have hver := f.ver.isLt
  refine ⟨extractLsb'_of_toNat ?_, extractLsb'_of_toNat ?_, extractLsb'_of_toNat ?_, extractLsb'_of_toNat ?_,
    extractLsb'_of_toNat ?_, extractLsb'_of_toNat ?_, extractLsb'_of_toNat ?gap, extractLsb'_of_toNat ?_,
    extractLsb'_of_toNat ?top⟩
  case gap | top =>
    rw [BitVec.ofNat_eq_ofNat, BitVec.toNat_ofNat, Nat.zero_mod]
    omega
  all_goals omega

/-- The record of a failed header is 0 above its kind and flags (R301). -/
theorem eventW0_headerFailed (hv pv pp : Bool) (h : FrameRegs) :
    (eventW0 .headerFailed hv pv pp h).extractLsb' 8 56 = 0 := by
  have hw := eventW0_toNat .headerFailed hv pv pp h
  have hpp := pp.toNat_le
  have hpv := pv.toNat_le
  have hhv := hv.toNat_le
  have hk := (kindBits .headerFailed).isLt
  have hbps : ((hdrReset.bps - 1).setWidth 3).toNat = 0 := by decide
  rw [eventFields_headerFailed, hbps] at hw
  simp only [hdrReset, BitVec.ofNat_eq_ofNat, BitVec.toNat_ofNat, Nat.zero_mod] at hw
  refine extractLsb'_of_toNat ?_
  rw [BitVec.ofNat_eq_ofNat, BitVec.toNat_ofNat, Nat.zero_mod]
  omega

/-- Settles O46: W0 field by field, and the halves of W1 and W3. -/
theorem eventRecordFields : Obligations.EventRecordFields := by
  intro k hv pv pp s e z
  obtain ⟨hkind, hhv, hpv, hpp, hgap⟩ := eventW0_flags k hv pv pp s.hdr
  obtain ⟨hlvl, hnu⟩ := extractLsb'_append_halves s.nco.nu s.agcLvl
  obtain ⟨hcnt, hframes⟩ := extractLsb'_append_halves s.frameCnt s.evm.cnt
  refine ⟨hkind, hhv, hpv, hpp, hgap, fun hz => ?none, fun hz => ?some, hlvl, hnu, rfl, hcnt, hframes⟩
  case none =>
    have hz : k = .headerFailed := hz
    subst hz
    exact eventW0_headerFailed hv pv pp s.hdr
  case some => exact eventW0_fields (eventFields_of_ne hz s.hdr) hv pv pp

end Sys2Proof.Machine
end

section
/-! The loops: the PLL and its seed (R200, R203), the strobe (R218 to R226) and the correlation (R154 to R158). -/

namespace Sys2Proof.Machine

/-! ### The carrier -/

/-- A register that holds an exact integer modulo `2^32` (R200). -/
theorem ofInt_toNat_emod (v : Int) : ((BitVec.ofInt 32 v).toNat : Int) = v % 2 ^ 32 := by
  rw [BitVec.toNat_ofInt]
  exact Int.toNat_of_nonneg (Int.emod_nonneg _ (by norm_num))

/-- Settles O51: the register holds the clamped frequency exactly and the phase modulo `2^32`. -/
theorem frequencyStaysClamped : Obligations.FrequencyStaysClamped := fun _ _ =>
  ⟨clampFreq_toInt .., ofInt_toNat_emod _, rfl, clampFreq_toInt .., rfl⟩

/-! ### The strobe -/

theorem sat_32_eq (v : Int) : sat 32 v = max (-2 ^ 31) (min (2 ^ 31 - 1) v) := by
  unfold sat
  omega

/-- The hard index of a saturated soft index: at most 128 in size (R223). -/
theorem hardIdx_sat_mem (v : Int) : -128 ≤ hardIdx (sat 32 v) ∧ hardIdx (sat 32 v) ≤ 128 := by
  have := sat_mem (n := 32) (v := v)
  unfold hardIdx asr
  omega

/-- Settles O52: the lanes are those of `firSum`, and the wraps those of the closed form of `wrap_idx`. -/
theorem strobeRunsTheTimingLoop : Obligations.StrobeRunsTheTimingLoop := by
  intro P s hn hn' b taps mf dmf sat32 e q soft idx n t
  have hsat : ∀ v, sat32 v = sat 32 v := fun v => (sat_32_eq v).symm
  have he : e = timingError mf dmf := hsat _
  have hq : q = timingFilter (sel s.bw s.cfg.strA) (sel s.bw s.cfg.strB) s.str.q.toInt (timingError mf dmf) := by
    rw [← he]
    exact hsat _
  have hsoft : soft = sat 32 (s.str.soft.toInt + q) := hsat _
  have hidx : idx = hardIdx soft := rfl
  have hstr : t.str = timingOf q (wrapIdx (cfgBanks s.cfg) soft (cfgSps s.cfg)) := by
    rw [hsoft, hq]
    rfl
  have hrange := hardIdx_sat_mem (s.str.soft.toInt + q)
  have hsps : cfgSps s.cfg < 2 ^ 8 := regField_lt ..
  have hquot : -128 ≤ hardIdx soft / (cfgBanks s.cfg : Int) ∧ hardIdx soft / (cfgBanks s.cfg : Int) ≤ 128 := by
    rw [hsoft]
    exact ⟨Int.le_ediv_of_mul_le (by omega) (by omega), Int.ediv_le_of_le_mul (by omega) (by omega)⟩
  obtain ⟨hi, hs, ht⟩ := timingOf_toInt hn hn' q soft (cfgSps s.cfg) (by omega) (by omega)
  have hmf := firSum_lanes (mfAt P s b) (dlAt s) taps
  have hdmf := firSum_lanes (dmfAt P s b) (dlAt s) taps
  refine ⟨hmf.1, hmf.2, hdmf.1, hdmf.2, rfl, ?q, ?idx, ?soft, ?timer, rfl⟩
  case q =>
    rw [hstr]
    have hmem : -2 ^ 31 ≤ q ∧ q < 2 ^ 31 := by rw [hq]; exact sat_mem (n := 32)
    exact toInt_ofInt_of_range hmem.1 hmem.2 (by norm_num)
  case idx => rw [hstr]; exact hi
  case soft => rw [hstr]; exact hs
  case timer => rw [hstr]; exact ht

/-! ### The correlation -/

/-- Settles O55: the energies of the two factors of the Cauchy-Schwarz bound are the registers `det_ex` and `es`. -/
theorem correlationIsBounded : Obligations.CorrelationIsBounded := by
  intro P x s hP h hrun u m
  have hl := legal_of_sound h hrun
  have hn : u.der.n.toNat = cfgWindow s.cfg := (window_of_sound h hrun :)
  have hmax : cfgWindow s.cfg ≤ 65536 := hl.window.trans hP.1
  have hex : u.det.ex.toNat = nsum (fun i => mag2 (winAt u i).cx) (cfgWindow s.cfg) :=
    winPush_energy hmax (h.run hrun).wptrLt (h.run hrun).energy
  have hes : u.der.es.toNat = nsum (fun i => mag2 (refAt P u i).cx) (cfgWindow s.cfg) := by
    have hder : u.der = derive P s := (h.run hrun).derived
    rw [hder, derive_es hmax]
    rfl
  have hcorr : mag2 (corr P u 0 u.der.n.toNat) ≤ u.det.ex.toNat * u.der.es.toNat := by
    have hcs := corr_energy (fun i => winOrd u (0 + i)) (fun i => (refAt P u (0 + i)).cx) u.der.n.toNat
    simp only [Nat.zero_add] at hcs
    have hrot : nsum (fun i => mag2 (winOrd u i)) u.der.n.toNat = u.det.ex.toNat := by
      rw [hex, ← hn]
      exact nsum_rotate (fun i => mag2 (winAt u i).cx) (by have := hl.windowPos; omega)
    rw [hrot, hn, ← hes, ← hn] at hcs
    simpa only [corr, Nat.zero_add] using hcs
  have hrho2 : m.rho2 ≤ 2 ^ 32 := by
    have hhalves := corr_halves P u (u.der.n.toNat / 2) (u.der.n.toNat - u.der.n.toNat / 2)
    rw [show u.der.n.toNat / 2 + (u.der.n.toNat - u.der.n.toNat / 2) = u.der.n.toNat by omega] at hhalves
    refine rho2Of_le ?_
    rw [hhalves]
    exact hcorr
  exact ⟨hcorr, hrho2, rhoOf_le hrho2, fun hthresh => passes_of_thresh hthresh hrho2⟩

end Sys2Proof.Machine
end

section
/-! PUSH in DETECT and RESET (R247, R261): the squelch, a step that does not declare, a step that does. -/

namespace Sys2Proof.Machine

/-! ### The level and the squelch -/

/-- PUSH in RUN and DETECT (R245, R247). -/
theorem exec_push_detect (re im : BitVec 16) {s : State} (hrun : s.status = .run) (hf : s.fsm = .detect) :
    exec (.push re im) s = .next (respond .ok
      (pushData (detectSample build ⟨re, im⟩ (agcTrack ⟨re, im⟩ s)).2
        (detectSample build ⟨re, im⟩ (agcTrack ⟨re, im⟩ s)).1.fsm)
      (detectSample build ⟨re, im⟩ (agcTrack ⟨re, im⟩ s)).1) := by
  rw [exec_push re im hrun, pushSample_detect build ⟨re, im⟩ hf]

theorem detectSample_of_closed {P : Params} {x : Smp} {s : State} (h : (squelchUpdate s).sq.closed = true) :
    detectSample P x s = (squelchUpdate s, ⟨false, false, false⟩) := by
  simp only [detectSample, h, if_true]

/-- While squelched, a level that does not exceed the threshold opens nothing (R240). -/
theorem squelchUpdate_of_closed {s : State} (hc : s.sq.closed = true) (hl : s.agcLvl.toNat ≤ cfgSqThresh s.cfg) :
    squelchUpdate s =
      { s with sq := ⟨if s.agcLvl.toNat = cfgSqThresh s.cfg then 0 else s.sq.cnt, true⟩ } := by
  obtain ⟨hlt, -, e⟩ | ⟨-, hopen, -, -⟩ | ⟨-, hopen, -, -⟩ | ⟨hgt, -⟩ | ⟨heq, e⟩ := squelchUpdate_cases s
  · rw [e, if_neg hlt.ne, ← hc]
  · exact absurd (hc.symm.trans hopen) nofun
  · exact absurd (hc.symm.trans hopen) nofun
  · omega
  · rw [e, if_pos heq, hc]

/-- Settles O32: the squelch stays closed, so the sample goes no further. -/
theorem squelchedPushOnlyTracks : Obligations.SquelchedPushOnlyTracks := by
  intro re im s hrun hf hc hl
  have hsq := squelchUpdate_of_closed (s := agcTrack ⟨re, im⟩ s) hc hl
  have hdet : detectSample build ⟨re, im⟩ (agcTrack ⟨re, im⟩ s) = _ := detectSample_of_closed (by rw [hsq])
  rw [exec_push_detect re im hrun hf, hdet, hsq]
  simp only [agcTrack_fsm, hf]
  rfl

/-- The sample that brings the count to the timeout (R238). -/
theorem squelchUpdate_timeout {s : State} (hc : s.sq.closed = false) (hl : s.agcLvl.toNat < cfgSqThresh s.cfg)
    (ht : cfgSqTimeout s.cfg ≤ min (s.sq.cnt.toNat + 1) (2 ^ 32 - 1)) :
    squelchUpdate s = acqReset { s with sq := ⟨sqCount s.sq.cnt, true⟩ } := by
  have hcases := squelchUpdate_cases s
  rw [sqCount_toNat] at hcases
  obtain ⟨-, hclosed, -⟩ | ⟨-, -, -, e⟩ | ⟨-, -, hlt, -⟩ | ⟨hgt, -⟩ | ⟨heq, -⟩ := hcases
  · exact absurd (hc.symm.trans hclosed) nofun
  · exact e
  all_goals omega

/-- Settles O33: the squelch is closed by the update itself, so the detector does not see the sample. -/
theorem squelchTimeoutResetsTheLoops : Obligations.SquelchTimeoutResetsTheLoops := by
  intro re im s hrun hf hc hl ht
  have hsq := squelchUpdate_timeout (s := agcTrack ⟨re, im⟩ s) hc hl ht
  have hdet : detectSample build ⟨re, im⟩ (agcTrack ⟨re, im⟩ s) = _ := detectSample_of_closed (by rw [hsq]; rfl)
  refine ⟨_, exec_push_detect re im hrun hf, ?_⟩
  rw [hdet, hsq]
  refine ⟨?resp, ⟨rfl, rfl, rfl, rfl, rfl, rfl⟩, rfl, rfl, sqCount_toNat _, clearedBelow_clear _ _ _,
    clearedBelow_clear _ _ _, rfl⟩
  case resp =>
    simp only [respond_resp, acqReset_fsm, agcTrack_fsm, hf]
    rfl

/-! ### The window -/

/-- The energy of a window push, as integers (R153). -/
theorem winPush_ex (x : Smp) (s : State) : (winPush x s).det.ex =
    BitVec.ofInt 48 (s.det.ex.toNat -
      ((winAt s s.det.wptr.toNat).re.toInt ^ 2 + (winAt s s.det.wptr.toNat).im.toInt ^ 2) +
      (x.re.toInt ^ 2 + x.im.toInt ^ 2)) := by
  have hmag : ∀ y : Smp, (mag2 y.cx : Int) = y.re.toInt ^ 2 + y.im.toInt ^ 2 := fun y => by
    rw [mag2_cast, sq, sq]
    rfl
  rw [← hmag, ← hmag]
  rfl

/-- What a step measures depends on the window, its pointer and energy, the derived constants and REF only. -/
theorem measure_congr {P : Params} {s t : State} (hw : t.win = s.win) (hp : t.det.wptr = s.det.wptr)
    (he : t.det.ex = s.det.ex) (hd : t.der = s.der) (hr : t.ref = s.ref) (hh : t.hresets = s.hresets) :
    measure P t = measure P s := by
  simp only [measure, corr, winOrd, winAt, refAt, hw, hp, he, hd, hr, hh]

/-! ### A step that does not declare (R163, R164) -/

/-- What the peak search leaves of the detector where it does not declare: a candidate captured, nothing, or the
candidate one sample older. -/
structure Searched (m : Metric) (pass : Prop) (d e : Detector) : Prop where
  wptr : e.wptr = d.wptr
  ex : e.ex = d.ex
  captured : pass → d.mode = .seek ∨ d.candRho2.toNat < m.rho2 → e.mode = .findPeak ∧ e.age = 0 ∧
    e.candM0 = d.rhoPrev ∧ e.candM1 = BitVec.ofNat 32 m.rho ∧ e.candM2 = 0 ∧ e.candRho2 = BitVec.ofNat 33 m.rho2 ∧
    e.candDphi = BitVec.ofInt 32 m.dphi ∧ e.candGamma = BitVec.ofNat 32 m.gamma
  waiting : d.mode = .seek → ¬pass → e = d
  aging : d.mode = .findPeak → ¬(pass ∧ d.candRho2.toNat < m.rho2) → e = ageStep m d

theorem peakSearch_searches {m : Metric} {s : State} (h : s.det.mode = .findPeak →
      passes s.cfg m = true ∧ s.det.candRho2.toNat < m.rho2 ∨ (s.det.age + 1).toNat < cfgDebounce s.cfg) :
    ∃ d, peakSearch m s = ({ s with det := d }, false) ∧ Searched m (passes s.cfg m = true) s.det d := by
  obtain ⟨hm, hp, e⟩ | ⟨hm, hp, e⟩ | ⟨hm, hp, hbeat, e⟩ | ⟨hm, hno, hage, e⟩ | ⟨hm, hno, -, e⟩ := peakSearch_cases m s
  · refine ⟨_, e, rfl, rfl, fun hpass => absurd (hp.symm.trans hpass) nofun, fun _ _ => rfl, fun hf => ?_⟩
    exact absurd (hm.symm.trans hf) nofun
  · refine ⟨_, e, rfl, rfl, fun _ _ => ⟨rfl, rfl, rfl, rfl, rfl, rfl, rfl, rfl⟩, fun _ hno => absurd hp hno,
      fun hf => ?_⟩
    exact absurd (hm.symm.trans hf) nofun
  · refine ⟨_, e, rfl, rfl, fun _ _ => ⟨hm, rfl, rfl, rfl, rfl, rfl, rfl, rfl⟩, fun hs => ?_, fun _ hno => ?_⟩
    · exact absurd (hm.symm.trans hs) nofun
    · exact absurd ⟨hp, hbeat⟩ hno
  · rcases h hm with hyes | hlt
    · exact absurd hyes hno
    · omega
  · refine ⟨_, e, rfl, rfl, fun hpass hbeat => ?_, fun hs => absurd (hm.symm.trans hs) nofun, fun _ _ => rfl⟩
    rcases hbeat with hs | hbeat
    · exact absurd (hm.symm.trans hs) nofun
    · exact absurd ⟨hpass, hbeat⟩ hno

/-- A DETECT sample that leaves the squelch open and does not declare (R247). -/
theorem detectSample_of_undeclared {P : Params} {x : Smp} {s : State} {q : Squelch} {d : Detector}
    (hq : squelchUpdate s = { s with sq := q }) (hopen : q.closed = false)
    (hpeak : peakSearch (measure P (winPush x s)) (winPush x { s with sq := q }) =
      ({ winPush x { s with sq := q } with det := d }, false)) :
    detectSample P x s = ({ s with
      sq := q
      win := memWrite Smp.zero s.win s.det.wptr.toNat x
      det := { d with rhoPrev := BitVec.ofNat 32 (measure P (winPush x s)).rho } }, ⟨false, false, false⟩) := by
  have hmeas : measure P (winPush x { s with sq := q }) = measure P (winPush x s) :=
    measure_congr rfl rfl rfl rfl rfl rfl
  have hstep : detectorStep P x { s with sq := q } = _ := detectorStep_eq P x _
  rw [hmeas, hpeak] at hstep
  simp only [detectSample, hq, hopen, hstep, Bool.false_eq_true, if_false, latchRho, winPush]

/-- Settles O34: the squelch in closed form, the window push, and the peak search without a declaration. -/
theorem detectSampleSlidesTheWindow : Obligations.DetectSampleSlidesTheWindow := by
  intro re im s hrun hf hn hn' lvl thr cnt hopen old m pass hsearch
  obtain ⟨q, hq, hqopen, hqcnt⟩ := squelchUpdate_openCount (s := agcTrack ⟨re, im⟩ s) hopen
  have hpass : passes s.cfg m = true ↔ pass := passes_iff s.cfg m
  obtain ⟨d, hpeak, hd⟩ := peakSearch_searches (m := m) (s := winPush ⟨re, im⟩ { agcTrack ⟨re, im⟩ s with sq := q })
    (fun hm => (hsearch hm).imp_left fun h => ⟨hpass.2 h.1, h.2⟩)
  have hsample := detectSample_of_undeclared (P := build) hq hqopen hpeak
  refine ⟨_, exec_push_detect re im hrun hf, ?_⟩
  rw [hsample]
  refine ⟨?resp, rfl, hqopen, hqcnt, fun i => memRead_write .., ?wptr, ?ex, ?measured, rfl, ?captured, ?waiting, ?aging,
    rfl⟩
  case resp =>
    show some (respWord .ok (pushData ⟨false, false, false⟩ s.fsm)) = some 0
    rw [hf]
    rfl
  case wptr =>
    show d.wptr.toNat = _
    rw [hd.wptr]
    exact toNat_ofNat_of_lt ((Nat.mod_lt _ hn).trans_le hn')
  case ex =>
    show d.ex = _
    rw [hd.ex]
    exact winPush_ex ⟨re, im⟩ { agcTrack ⟨re, im⟩ s with sq := q }
  case measured => exact measured_congr (measure_spec build (winPush ⟨re, im⟩ s)) rfl hd.wptr hd.ex rfl rfl rfl
  case captured => exact fun hp hbeat => hd.captured (hpass.2 hp) hbeat
  case waiting =>
    intro hseek hno
    obtain rfl := hd.waiting hseek fun hp => hno (hpass.1 hp)
    rfl
  case aging =>
    intro hfind hno
    obtain rfl := hd.aging hfind fun h => hno ⟨hpass.1 h.1, h.2⟩
    rfl

/-! ### A step that declares (R165, R250) -/

theorem peakSearch_declared {m : Metric} {s : State} (hm : s.det.mode = .findPeak)
    (hno : ¬(passes s.cfg m = true ∧ s.det.candRho2.toNat < m.rho2))
    (hage : cfgDebounce s.cfg ≤ (s.det.age + 1).toNat) :
    peakSearch m s = (declareDet { s with det := ageStep m s.det }, true) := by
  obtain ⟨hs, -, -⟩ | ⟨hs, -, -⟩ | ⟨-, hp, hbeat, -⟩ | ⟨-, -, -, e⟩ | ⟨-, -, hlt, -⟩ := peakSearch_cases m s
  · exact absurd (hm.symm.trans hs) nofun
  · exact absurd (hm.symm.trans hs) nofun
  · exact absurd ⟨hp, hbeat⟩ hno
  · exact e
  · omega

/-- The state at a declaration, before the loops are seeded (R163, R165, R167). -/
def declaredState (m : Metric) (x : Smp) (q : Squelch) (s : State) : State :=
  { s with
    sq := q
    win := memWrite Smp.zero s.win s.det.wptr.toNat x
    det := { ageStep m (winPush x s).det with mode := .seek, rhoPrev := BitVec.ofNat 32 m.rho }
    est :=
      { tau := BitVec.ofInt 32 (tauOf s.det.candM0.toNat s.det.candM1.toNat (ageStep m s.det).candM2.toNat)
        dphi := s.det.candDphi
        gamma := s.det.candGamma } }

/-- A DETECT sample that leaves the squelch open and declares (R247, R250). -/
theorem detectSample_of_declared {P : Params} {x : Smp} {s : State} {q : Squelch}
    (hq : squelchUpdate s = { s with sq := q }) (hopen : q.closed = false)
    (hpeak : peakSearch (measure P (winPush x s)) (winPush x { s with sq := q }) =
      (declareDet { winPush x { s with sq := q } with
        det := ageStep (measure P (winPush x s)) (winPush x { s with sq := q }).det }, true)) :
    detectSample P x s = (onDetect (declaredState (measure P (winPush x s)) x q s), ⟨true, false, false⟩) := by
  have hmeas : measure P (winPush x { s with sq := q }) = measure P (winPush x s) :=
    measure_congr rfl rfl rfl rfl rfl rfl
  have hstep : detectorStep P x { s with sq := q } = _ := detectorStep_eq P x _
  rw [hmeas, hpeak] at hstep
  simp only [detectSample, hq, hopen, hstep, Bool.false_eq_true, if_false, if_true]
  rfl

/-- The seeded level (R186). -/
theorem agcSeedLevel_toNat (gamma pref : Nat) : (BitVec.ofInt 32 (agcSeedLevel gamma pref)).toNat =
    min (2 ^ 32 - 1) (gamma * gamma / 2 ^ 24 * pref / 2 ^ 24) := by
  have hval : agcSeedLevel gamma pref = ((min (2 ^ 32 - 1) (gamma * gamma / 2 ^ 24 * pref / 2 ^ 24) : Nat) : Int) := by
    have hcast : asr (asr ((gamma : Int) * gamma) 24 * pref) 24 =
        ((gamma * gamma / 2 ^ 24 * pref / 2 ^ 24 : Nat) : Int) := by
      unfold asr
      norm_cast
    rw [agcSeedLevel, hcast]
    unfold usat
    omega
  rw [hval, BitVec.ofInt_natCast]
  exact toNat_ofNat_of_lt (by omega)

/-- The wraps of a seed are few: the estimate is less than a sample (R166, R227). -/
theorem hardIdx_seed_mem {tau : Int} {n : Nat} (hn : n ≤ 128) (h0 : -2 ^ 23 ≤ tau) (h1 : tau ≤ 2 ^ 23 - 1) :
    -64 ≤ hardIdx (tau * n) ∧ hardIdx (tau * n) ≤ 64 := by
  have hlow : -2 ^ 23 * (n : Int) ≤ tau * n := mul_le_mul_of_nonneg_right h0 (Int.natCast_nonneg n)
  have hhigh : tau * n ≤ (2 ^ 23 - 1) * (n : Int) := mul_le_mul_of_nonneg_right h1 (Int.natCast_nonneg n)
  unfold hardIdx asr
  omega

end Sys2Proof.Machine
end

section
/-! PUSH in DETECT that declares (R250) and PUSH in RESET (R261). -/

namespace Sys2Proof.Machine

theorem clampFreq_eq (c : Cfg) (v : Int) : clampFreq c v = max (-(cfgNcoFmax c : Int)) (min (cfgNcoFmax c) v) := by
  unfold clampFreq clamp
  omega

/-- The timing registers a seed leaves, as integers (R227). -/
theorem timingOf_seed {tau : Int} {n dly : Nat} (hn : 1 ≤ n) (hn' : n ≤ 128) (h0 : -2 ^ 23 ≤ tau)
    (h1 : tau ≤ 2 ^ 23 - 1) (hdly : dly < 2 ^ 16) :
    let w := timingOf 0 (wrapIdx n (tau * n) dly)
    let idx := (tau * n + 2 ^ 23) / 2 ^ 24
    w.q = 0 ∧ (w.idx.toNat : Int) = idx % n ∧ w.soft.toInt = tau * n - idx / n * n * 2 ^ 24 ∧
    w.timer.toInt = dly + idx / n := by
  intro w idx
  have hmem := hardIdx_seed_mem hn' h0 h1
  have hidx : hardIdx (tau * n) = idx := rfl
  have hquot : -64 ≤ hardIdx (tau * n) / (n : Int) ∧ hardIdx (tau * n) / (n : Int) ≤ 64 :=
    ⟨Int.le_ediv_of_mul_le (by omega) (by omega), Int.ediv_le_of_le_mul (by omega) (by omega)⟩
  obtain ⟨hi, hs, ht⟩ := timingOf_toInt hn hn' 0 (tau * n) dly (by omega) (by omega)
  rw [hidx] at hi hs ht
  exact ⟨rfl, hi, hs, ht⟩

/-- Settles O35: the declared state's estimate, then `onDetect` register by register. -/
theorem detectionSeedsTheFrame : Obligations.DetectionSeedsTheFrame := by
  intro re im s hrun hf hmode hn hn' hage lvl thr cnt hopen old m pass hno after
  obtain ⟨q, hq, hqopen, -⟩ := squelchUpdate_openCount (s := agcTrack ⟨re, im⟩ s) hopen
  have hpass : passes s.cfg m = true ↔ pass := passes_iff s.cfg m
  have hpeak := peakSearch_declared (m := m) (s := winPush ⟨re, im⟩ { agcTrack ⟨re, im⟩ s with sq := q }) hmode
    (fun h => hno ⟨hpass.1 h.1, h.2⟩) hage
  have hsample := detectSample_of_declared (P := build) hq hqopen hpeak
  have htau := tauOf_mem s.det.candM0.toNat s.det.candM1.toNat after.toNat
  have htauInt : (BitVec.ofInt 32 (tauOf s.det.candM0.toNat s.det.candM1.toNat after.toNat)).toInt = _ :=
    toInt_ofInt_of_range (by norm_num; omega) (by norm_num; omega) (by norm_num)
  have hdly : cfgHdrDly s.cfg < 2 ^ 16 := regField_lt ..
  refine ⟨_, exec_push_detect re im hrun hf, ?_⟩
  rw [hsample, onDetect_eq]
  refine ⟨?resp, rfl, rfl, rfl, rfl, ?sq, rfl, ?measured, ?det, htauInt, rfl, rfl, rfl, ?nu, agcSeedLevel_toNat _ _,
    ?timing, clearedBelow_clear _ _ _, fun i => memRead_write .., rfl⟩
  case resp =>
    show some (respWord .ok (pushData ⟨true, false, false⟩ .rxheader)) = some 9
    rfl
  case sq =>
    show (⟨0, q.closed⟩ : Squelch) = ⟨0, false⟩
    rw [hqopen]
  case measured => exact measured_congr (measure_spec build (winPush ⟨re, im⟩ s)) rfl rfl rfl rfl rfl rfl
  case det =>
    show { s.det with
      mode := .seek
      wptr := (winPush ⟨re, im⟩ s).det.wptr
      ex := (winPush ⟨re, im⟩ s).det.ex
      rhoPrev := BitVec.ofNat 32 m.rho
      age := s.det.age + 1
      candM2 := after } = _
    rw [winPush_ex]
    rfl
  case nu => exact (clampFreq_toInt ..).trans (clampFreq_eq ..)
  case timing =>
    have := timingOf_seed hn hn' htau.1 htau.2 hdly
    rw [← htauInt] at this
    exact this

/-! ### PUSH in RESET (R261) -/

/-- The squelch writes its own registers, or closes with the loops reset (R237, R238). -/
theorem squelchUpdate_frame (s : State) :
    ∃ q, squelchUpdate s = { s with sq := q } ∨ squelchUpdate s = acqReset { s with sq := q } := by
  obtain ⟨-, -, e⟩ | ⟨-, -, -, e⟩ | ⟨-, -, -, e⟩ | ⟨-, e⟩ | ⟨-, e⟩ := squelchUpdate_cases s
  · exact ⟨s.sq, .inl e⟩
  · exact ⟨_, .inr e⟩
  all_goals exact ⟨_, .inl e⟩

theorem squelchUpdate_seek {s : State} (h : s.det.mode = .seek) : (squelchUpdate s).det.mode = .seek := by
  obtain ⟨q, e | e⟩ := squelchUpdate_frame s <;> rw [e]
  · exact h
  · rfl

/-- A declaration needs a candidate of an earlier sample: in SEEK there is none (R168). -/
theorem detectorStep_of_seek {P : Params} {x : Smp} {s : State} (h : s.det.mode = .seek) :
    (detectorStep P x s).2 = false ∧ ∃ w d, (detectorStep P x s).1 = { s with win := w, det := d } := by
  rw [detectorStep_eq]
  obtain ⟨-, -, e⟩ | ⟨-, -, e⟩ | ⟨hm, -, -, -⟩ | ⟨hm, -, -, -⟩ | ⟨hm, -, -, -⟩ :=
    peakSearch_cases (measure P (winPush x s)) (winPush x s)
  · rw [e]
    exact ⟨rfl, _, _, rfl⟩
  · rw [e]
    exact ⟨rfl, _, _, rfl⟩
  all_goals exact absurd (h.symm.trans hm) nofun

theorem detectSample_of_seek {P : Params} {x : Smp} {s : State} (h : s.det.mode = .seek) :
    (detectSample P x s).2 = ⟨false, false, false⟩ ∧
      ∃ w d, (detectSample P x s).1 = { squelchUpdate s with win := w, det := d } := by
  obtain ⟨hno, w, d, hstep⟩ := detectorStep_of_seek (P := P) (x := x) (squelchUpdate_seek h)
  obtain ⟨-, e⟩ | ⟨-, -, e⟩ | ⟨-, hyes, -⟩ := detectSample_cases P x s
  · rw [e]
    exact ⟨rfl, _, _, rfl⟩
  · rw [e, hstep]
    exact ⟨rfl, w, d, rfl⟩
  · exact absurd (hno.symm.trans hyes) nofun

theorem respWord_quiet : some (respWord .ok (pushData ⟨false, false, false⟩ .detect)) = some 0 := by decide

/-- Settles O36: the detector enters the sample in SEEK, and a squelch that closes on it resets the loops once more. -/
theorem resetPushIsADetectPush : Obligations.ResetPushIsADetectPush := by
  intro re im s hrun hf
  have hreset := exec_push re im hrun
  rw [pushSample_reset build ⟨re, im⟩ hf] at hreset
  refine ⟨hreset.trans (exec_push_detect (s := toDetect (acqReset s)) re im hrun rfl).symm, _, hreset, ?_⟩
  obtain ⟨hflags, w, d, hstate⟩ :=
    detectSample_of_seek (P := build) (x := ⟨re, im⟩) (s := agcTrack ⟨re, im⟩ (toDetect (acqReset s))) rfl
  rw [hflags, hstate]
  obtain ⟨q, e | e⟩ := squelchUpdate_frame (agcTrack ⟨re, im⟩ (toDetect (acqReset s))) <;> rw [e]
  all_goals exact ⟨rfl, rfl, respWord_quiet, rfl, rfl, rfl, rfl, rfl, rfl⟩

end Sys2Proof.Machine
end

section
/-! PUSH in a frame: a sample between symbols, a symbol, the last symbol of a header or payload (R248, R251). -/

namespace Sys2Proof.Machine

/-! ### A frame sample without a strobe -/

/-- A frame sample while the sample timer runs (R226, R248). -/
theorem pushSample_countdown (P : Params) (x : Smp) {s : State} (hf : s.fsm = .rxheader ∨ s.fsm = .rxpayload)
    (ht : 0 < s.str.timer.toInt) : pushSample P x s =
      (timerTick (dlPush (timingInput P x s) (ncoAdvance (agcTrack x s))), ⟨false, false, false⟩) := by
  rw [pushSample_frame P x hf]
  obtain ⟨-, e⟩ | ⟨hle, -⟩ := frameSample_cases P x (agcTrack x s)
  · exact e
  · exact absurd ht (not_lt.2 hle)

/-- The response of a frame sample between symbols. -/
theorem respWord_frame {q : Fsm} (hf : q = .rxheader ∨ q = .rxpayload) :
    respWord .ok (pushData ⟨false, false, false⟩ q) = respWord .ok (if q = .rxheader then 8 else 16) := by
  rcases hf with rfl | rfl <;> decide

theorem pushData_strobe_rxheader : pushData ⟨false, true, false⟩ .rxheader = 10 := by decide

theorem pushData_strobe_rxpayload : pushData ⟨false, true, false⟩ .rxpayload = 18 := by decide

theorem pushData_strobe_event : pushData ⟨false, true, true⟩ .reset = 0x1E := by decide

theorem timerTick_timer {s : State} (h : 0 < s.str.timer.toInt) :
    (timerTick s).str.timer.toInt = s.str.timer.toInt - 1 := by
  have hlt : s.str.timer.toInt < 2 ^ 31 := BitVec.toInt_lt
  exact toInt_ofInt_of_range (by omega) (by omega) (by norm_num)

/-- Settles O37: the lanes of `agc_apply` and of the mixer, and the frame sample of `pushSample_countdown`. -/
theorem frameSampleWithoutStrobe : Obligations.FrameSampleWithoutStrobe := by
  refine ⟨fun P x s => ?lanes, fun re im s hrun hf ht htaps => ?sample⟩
  case lanes =>
    intro g c d yr yi
    have hre : (agcApply (agcGain (levelAfter x s).toNat) x).re.toInt = yr := toLane_rounded ..
    have him : (agcApply (agcGain (levelAfter x s).toNat) x).im.toInt = yi := toLane_rounded ..
    rw [← hre, ← him]
    exact ⟨toLane_rounded .., toLane_rounded ..⟩
  case sample =>
    have hpush := exec_push re im hrun
    rw [pushSample_countdown build ⟨re, im⟩ hf ht, timerTick_fsm, dlPush_fsm, ncoAdvance_fsm, agcTrack_fsm] at hpush
    refine ⟨_, hpush, congrArg some (respWord_frame hf), rfl, rfl, rfl, ?timer, rfl, rfl, rfl, fun j => ?dl, ?frame⟩
    case timer =>
      exact timerTick_timer (s := dlPush (timingInput build ⟨re, im⟩ s) (ncoAdvance (agcTrack ⟨re, im⟩ s))) ht
    case dl =>
      have hdl := dlAt_dlPush (timingInput build ⟨re, im⟩ s) (ncoAdvance (agcTrack ⟨re, im⟩ s)) j
      rw [ncoAdvance_der, agcTrack_der, max_eq_left (Nat.succ_le_of_lt htaps)] at hdl
      exact hdl
    case frame => simp only [respond, timerTick, dlPush, ncoAdvance, agcTrack]

/-! ### A symbol that is not the last -/

section
variable (P : Params) (x : Smp) (s : State)

@[simp] theorem strobeOf_fsm : (strobeOf P x s).1.fsm = s.fsm := by
  obtain ⟨n, l, r, h⟩ := strobeOf_frame P x s
  rw [h]

@[simp] theorem strobeOf_symCnt : (strobeOf P x s).1.symCnt = s.symCnt := by
  obtain ⟨n, l, r, h⟩ := strobeOf_frame P x s
  rw [h]

@[simp] theorem strobeOf_cfg : (strobeOf P x s).1.cfg = s.cfg := by
  obtain ⟨n, l, r, h⟩ := strobeOf_frame P x s
  rw [h]

@[simp] theorem strobeOf_hdr : (strobeOf P x s).1.hdr = s.hdr := by
  obtain ⟨n, l, r, h⟩ := strobeOf_frame P x s
  rw [h]

/-- A header symbol that is not the last, of a PUSH (R251). -/
theorem pushSample_header (hf : s.fsm = .rxheader) (ht : s.str.timer.toInt ≤ 0)
    (hlast : (s.symCnt + 1).toNat ≠ cfgHdrSyms s.cfg) :
    let d := P.modem (cfgHdrScheme s.cfg) (cfgHdrBps s.cfg) (strobeOf P x s).2
    pushSample P x s = (storeHdrSym d.sym (demodded d (strobeOf P x s).1), ⟨false, true, false⟩) := by
  rw [pushSample_strobe (.inl hf) ht, onSymbol_header P _ _ (by simpa using hf) (by simpa using hlast), strobeOf_cfg]

/-- A payload symbol that is not the last, of a PUSH (R251). -/
theorem pushSample_payload (hf : s.fsm = .rxpayload) (ht : s.str.timer.toInt ≤ 0) (hlast : s.symCnt + 1 ≠ s.hdr.nsym) :
    let d := P.modem s.hdr.mod s.hdr.bps (strobeOf P x s).2
    pushSample P x s = (storePaySym d.sym (demodded d (strobeOf P x s).1), ⟨false, true, false⟩) := by
  rw [pushSample_strobe (.inr hf) ht, onSymbol_payload P _ _ (by simpa using hf) (by simpa using hlast), strobeOf_hdr]

/-- The last header symbol, of a PUSH (R251, R253). -/
theorem pushSample_lastHeader (hf : s.fsm = .rxheader) (ht : s.str.timer.toInt ≤ 0)
    (hlast : (s.symCnt + 1).toNat = cfgHdrSyms s.cfg) :
    let d := P.modem (cfgHdrScheme s.cfg) (cfgHdrBps s.cfg) (strobeOf P x s).2
    let r := headerComplete P (storeHdrSym d.sym (demodded d (strobeOf P x s).1))
    pushSample P x s = (r.1, ⟨false, true, r.2⟩) := by
  rw [pushSample_strobe (.inl hf) ht, onSymbol_lastHeader P _ _ (by simpa using hf) (by simpa using hlast),
    strobeOf_cfg]

/-- The last payload symbol, of a PUSH (R251, R262). -/
theorem pushSample_lastPayload (hf : s.fsm = .rxpayload) (ht : s.str.timer.toInt ≤ 0)
    (hlast : s.symCnt + 1 = s.hdr.nsym) :
    let d := P.modem s.hdr.mod s.hdr.bps (strobeOf P x s).2
    pushSample P x s =
      (payloadComplete P (storePaySym d.sym (demodded d (strobeOf P x s).1)), ⟨false, true, true⟩) := by
  rw [pushSample_strobe (.inr hf) ht, onSymbol_lastPayload P _ _ (by simpa using hf) (by simpa using hlast),
    strobeOf_hdr]

end

/-- Settles O38: the header symbol of `pushSample_header`, its state written out over the strobe's. -/
theorem headerSymbolIsStored : Obligations.HeaderSymbolIsStored := by
  intro re im s hrun hf ht hlast u d
  obtain ⟨n, l, r, hu⟩ : ∃ n l r, u = { s with agcLvl := levelAfter ⟨re, im⟩ s, nco := n, dl := l, str := r } :=
    strobeOf_frame build ⟨re, im⟩ s
  have hpush : exec (.push re im) s =
      .next (respond .ok (pushData ⟨false, true, false⟩ u.fsm) (storeHdrSym d.sym (demodded d u))) := by
    rw [exec_push re im hrun, pushSample_header build ⟨re, im⟩ s hf ht hlast, storeHdrSym_fsm, demodded_fsm]
  clear_value u d
  subst hu
  refine ⟨_, hpush, ?resp, fun i => memRead_write .., rfl, rfl, rfl, rfl, rfl, rfl, rfl, ?frame⟩
  case resp =>
    show some (respWord .ok (pushData ⟨false, true, false⟩ s.fsm)) = some (respWord .ok 10)
    rw [hf, pushData_strobe_rxheader]
  case frame => simp only [respond, storeHdrSym, demodded, evmAdd, pllStep]

/-- Settles O39: the payload symbol of `pushSample_payload`, its state written out over the strobe's. -/
theorem payloadSymbolIsStored : Obligations.PayloadSymbolIsStored := by
  intro re im s hrun hf ht hlast u d
  obtain ⟨n, l, r, hu⟩ : ∃ n l r, u = { s with agcLvl := levelAfter ⟨re, im⟩ s, nco := n, dl := l, str := r } :=
    strobeOf_frame build ⟨re, im⟩ s
  have hpush : exec (.push re im) s =
      .next (respond .ok (pushData ⟨false, true, false⟩ u.fsm) (storePaySym d.sym (demodded d u))) := by
    rw [exec_push re im hrun, pushSample_payload build ⟨re, im⟩ s hf ht hlast, storePaySym_fsm, demodded_fsm]
  clear_value u d
  subst hu
  refine ⟨_, hpush, ?resp, fun i => memRead_write .., rfl, rfl, rfl, rfl, rfl, rfl, rfl, ?frame⟩
  case resp =>
    show some (respWord .ok (pushData ⟨false, true, false⟩ s.fsm)) = some (respWord .ok 18)
    rw [hf, pushData_strobe_rxpayload]
  case frame => simp only [respond, storePaySym, demodded, evmAdd, pllStep]

/-! ### The last symbol -/

/-- Settles O40: the last symbols, of `pushSample_lastHeader` and `pushSample_lastPayload`. -/
theorem lastSymbolCompletesInThePush : Obligations.LastSymbolCompletesInThePush := by
  refine fun re im s hrun ht => ⟨fun hf hlast => ?header, fun hf hlast => ?payload⟩
  all_goals
    have hpush := exec_push re im hrun
  case header =>
    rw [pushSample_lastHeader build ⟨re, im⟩ s hf ht hlast] at hpush
    exact hpush
  case payload =>
    rw [pushSample_lastPayload build ⟨re, im⟩ s hf ht hlast, payloadComplete_fsm, pushData_strobe_event] at hpush
    exact hpush

end Sys2Proof.Machine
end

section
/-! The completion of a header and of a payload (R253 to R262). -/

namespace Sys2Proof.Machine

/-- A read after the first `n` entries were written. -/
theorem memRead_setRange_zero {α : Type} [DecidableEq α] (z : α) (m : Mem α) (n i : Nat) (f : Nat → α) :
    memRead z (memSetRange z m 0 n f) i = if i < n then f i else memRead z m i := by
  rw [memRead_setRange]
  simp only [Nat.zero_le, true_and, Nat.zero_add]

/-! ### Payload completion -/

theorem payloadComplete_eq (P : Params) (s : State) : payloadComplete P s =
    { s with
      fsm := .reset
      penc := memSetRange 0 s.penc 0 s.hdr.enc.toNat fun i => (payloadBytes s).toList.getD i 0
      pdec := memSetRange 0 s.pdec 0 s.hdr.len.toNat fun i => (decodePayload P s).1.toList.getD i 0
      evt := some (buildEvent .frameComplete true (decodePayload P s).2 true s) } := by
  simp only [payloadComplete, endFrame, emit, storePayload, buildEvent]

/-- Settles O42: what PENC is written with are the packed bytes, one by one. -/
theorem payloadCompletionDeliversTheBytes : Obligations.PayloadCompletionDeliversTheBytes := by
  intro P s t enc dec
  have ht : t = _ := payloadComplete_eq P s
  rw [ht]
  refine ⟨fun i => (memRead_setRange_zero ..).trans ?penc, fun i => memRead_setRange_zero .., rfl, rfl⟩
  case penc =>
    split
    case isTrue hi => exact pack_getD _ _ hi
    case isFalse => rfl

/-! ### Header completion -/

section
variable {P : Params} {s : State}

theorem headerComplete_invalid (hv : headerValid P s = false) :
    headerComplete P s = (endFrame .headerFailed false false false (withHeader P s), true) := by
  simp only [headerComplete, hv, Bool.false_eq_true, if_false]

theorem headerComplete_unsupported (hv : headerValid P s = true) (hs : supported P (parsed P s) = false) :
    headerComplete P s =
      (endFrame .unsupported false false false (flagUnsup (setHdr (parsed P s) (withHeader P s))), true) := by
  simp only [headerComplete, hv, hs, Bool.false_eq_true, if_false, if_true]

theorem headerComplete_growthFailed (hv : headerValid P s = true) (hs : supported P (parsed P s) = true)
    (hg : growthFails P (sizeFrame P (parsed P s)) = true) : headerComplete P s =
      (endFrame .growthFailed true false false
        (flagGrowth (setHdr (sizeFrame P (parsed P s)) (withHeader P s))), true) := by
  simp only [headerComplete, hv, hs, hg, if_true]

theorem headerComplete_sized (hv : headerValid P s = true) (hs : supported P (parsed P s) = true)
    (hg : growthFails P (sizeFrame P (parsed P s)) = false) :
    headerComplete P s = startPayload P (setHdr (sizeFrame P (parsed P s)) (withHeader P s)) := by
  simp only [headerComplete, hv, hs, hg, Bool.false_eq_true, if_false, if_true]

/-- HDEC holds the decoded bytes in every outcome (R254). -/
theorem headerComplete_hdec (P : Params) (s : State) : (headerComplete P s).1.hdec = (withHeader P s).hdec := by
  obtain ⟨-, e⟩ | ⟨-, -, e⟩ | ⟨-, -, -, e⟩ | ⟨-, -, -, -, e⟩ | ⟨-, -, -, -, e⟩ := headerComplete_cases P s <;> rw [e]
  case inr.inr.inr.inl => rw [payloadComplete_eq]; rfl
  all_goals rfl

end

theorem sizeFrame_nsym (P : Params) (h : FrameRegs) :
    (sizeFrame P h).nsym.toNat = symbolCount (P.pktEncLen h.len h.crc h.fec0 h.fec1).toNat h.bps.toNat :=
  toNat_ofNat_of_lt (by unfold symbolCount; omega)

theorem growthFails_sizeFrame (P : Params) (h : FrameRegs) :
    let need := P.pktEncLen h.len h.crc h.fec0 h.fec1
    growthFails P (sizeFrame P h) = true ↔
      symbolCount need.toNat h.bps.toNat > P.paysymMax ∨ need.toNat > P.payencMax ∨ h.len.toNat > P.paydecMax := by
  simp only [growthFails, sizeFrame_nsym, Bool.or_eq_true, decide_eq_true_eq, or_assoc, gt_iff_lt]
  rfl

/-- A payload of no bytes: PENC stays, and the packetizer decodes the empty list (R260). -/
theorem payloadComplete_noBytes (P : Params) {s : State} (h : s.hdr.enc = 0) : payloadComplete P s =
    { s with
      fsm := .reset
      pdec := memSetRange 0 s.pdec 0 s.hdr.len.toNat fun i =>
        (P.pktDecode [] s.hdr.len s.hdr.crc s.hdr.fec0 s.hdr.fec1).1.toList.getD i 0
      evt := some (buildEvent .frameComplete true (P.pktDecode [] s.hdr.len s.hdr.crc s.hdr.fec0 s.hdr.fec1).2
        true s) } := by
  obtain ⟨hpenc, hdec⟩ := payloadComplete_empty P h
  rw [payloadComplete_eq] at hpenc ⊢
  simp only at hpenc
  rw [hpenc, hdec]

theorem startPayload_opened (P : Params) {s : State} (h : s.hdr.nsym ≠ 0) :
    startPayload P s = (openPayload (grow s), false) := if_neg h

theorem startPayload_noSymbols (P : Params) {s : State} (h : s.hdr.nsym = 0) :
    startPayload P s = (payloadComplete P (openPayload (grow s)), true) := if_pos h

/-- Settles O41: each outcome is a literal state; a payload of no symbols has no encoded bytes. -/
theorem headerCompletionOutcomes : Obligations.HeaderCompletionOutcomes := by
  intro P s r t h
  refine ⟨fun i => ?hdec, fun hv => ?invalid, fun hv hs => ?unsupported, ?sized⟩
  case hdec =>
    show memRead 0 t.hdec i = _
    rw [headerComplete_hdec]
    exact memRead_setRange_zero ..
  case invalid =>
    have hr : r = _ := headerComplete_invalid hv
    simp only [t, hr]
    exact ⟨trivial, rfl, rfl⟩
  case unsupported =>
    have hr : r = _ := headerComplete_unsupported hv hs
    simp only [t, hr]
    exact ⟨trivial, rfl, rfl, rfl, rfl⟩
  case sized =>
    intro hv hs need syms g
    have hsyms : (sizeFrame P h).nsym.toNat = syms := sizeFrame_nsym P h
    have hfails : growthFails P (sizeFrame P h) = true ↔
        syms > P.paysymMax ∨ need.toNat > P.payencMax ∨ h.len.toNat > P.paydecMax := growthFails_sizeFrame P h
    refine ⟨fun hg => ?growth, ?fits⟩
    case growth =>
      have hr : r = _ := headerComplete_growthFailed hv hs (hfails.2 hg)
      simp only [t, hr]
      exact ⟨trivial, rfl, rfl⟩
    case fits =>
      intro hsym henc hdec u
      have hr : r = _ := headerComplete_sized hv hs (Bool.eq_false_iff.2 fun hg => by have := hfails.1 hg; omega)
      refine ⟨fun hne => ?opened, ?empty⟩
      case opened =>
        rw [startPayload_opened P (fun hnsym => hne (hsyms.symm.trans (congrArg BitVec.toNat hnsym)))] at hr
        simp only [t, hr, u, openPayload, grow, setHdr, withHeader, storeHeader]
        exact ⟨trivial, rfl⟩
      case empty =>
        intro hz dec
        have hneed : need = 0 := BitVec.eq_of_toNat_eq (symbolCount_zero (parsed_bps P s).1 hz)
        rw [startPayload_noSymbols P (BitVec.eq_of_toNat_eq (hsyms.trans hz)), payloadComplete_noBytes P hneed] at hr
        simp only [t, hr, u, openPayload, grow, setHdr, withHeader, storeHeader]
        exact ⟨trivial, hneed, fun i => memRead_setRange_zero .., rfl, rfl⟩

end Sys2Proof.Machine
end

section
/-! What an accepted PUSH can do to the frame machine, the event port, the frame count and the capacities. -/

namespace Sys2Proof.Machine

/-! ### The outcomes of a PUSH -/

/-- No event, no frame and no growth. -/
structure Quiet (s t : State) : Prop where
  evt : t.evt = s.evt
  frameCnt : t.frameCnt = s.frameCnt
  cap : t.cap = s.cap

/-- No capacity is lowered (R259). -/
structure CapsKept (s t : State) : Prop where
  sym : s.cap.sym.toNat ≤ t.cap.sym.toNat
  enc : s.cap.enc.toNat ≤ t.cap.enc.toNat
  dec : s.cap.dec.toNat ≤ t.cap.dec.toNat

theorem capsKept_of_cap_eq {s t : State} (h : t.cap = s.cap) : CapsKept s t := by
  constructor <;> rw [h]

theorem capsKept_grow (s : State) : CapsKept s (grow s) where
  sym := (le_max_left _ _).trans_eq (growCap_toNat _ _).symm
  enc := (le_max_left _ _).trans_eq (growCap_toNat _ _).symm
  dec := (le_max_left _ _).trans_eq (growCap_toNat _ _).symm

theorem squelchUpdate_quiet (s : State) : Quiet s (squelchUpdate s) ∧ (squelchUpdate s).fsm = s.fsm := by
  obtain ⟨q, e | e⟩ := squelchUpdate_frame s <;> rw [e]
  all_goals exact ⟨⟨rfl, rfl, rfl⟩, rfl⟩

theorem detectorStep_quiet (P : Params) (x : Smp) (s : State) :
    Quiet s (detectorStep P x s).1 ∧ (detectorStep P x s).1.fsm = s.fsm := by
  obtain ⟨d, e, h⟩ := detectorStep_frame P x s
  rw [h]
  exact ⟨⟨rfl, rfl, rfl⟩, rfl⟩

/-- The outcomes of an accepted PUSH (R246, R247, R248, R251). -/
inductive PushOutcome (s t : State) : PushFlags → Prop
  | searching (hf : s.fsm = .detect ∨ s.fsm = .reset) (after : t.fsm = .detect) (quiet : Quiet s t) :
      PushOutcome s t ⟨false, false, false⟩
  | detected (hf : s.fsm = .detect) (after : t.fsm = .rxheader) (evt : t.evt = s.evt)
      (frameCnt : t.frameCnt = s.frameCnt + 1) (cap : t.cap = s.cap) : PushOutcome s t ⟨true, false, false⟩
  | between (hf : s.fsm = .rxheader ∨ s.fsm = .rxpayload) (timer : 0 < s.str.timer.toInt) (after : t.fsm = s.fsm)
      (quiet : Quiet s t) : PushOutcome s t ⟨false, false, false⟩
  | symbol (hf : s.fsm = .rxheader ∨ s.fsm = .rxpayload) (timer : s.str.timer.toInt ≤ 0) (after : t.fsm = s.fsm)
      (quiet : Quiet s t) : PushOutcome s t ⟨false, true, false⟩
  | opened (hf : s.fsm = .rxheader) (timer : s.str.timer.toInt ≤ 0) (after : t.fsm = .rxpayload)
      (evt : t.evt = s.evt) (frameCnt : t.frameCnt = s.frameCnt) (caps : CapsKept s t) :
      PushOutcome s t ⟨false, true, false⟩
  | headerEnded (hf : s.fsm = .rxheader) (last : (s.symCnt + 1).toNat = cfgHdrSyms s.cfg)
      (timer : s.str.timer.toInt ≤ 0) (after : t.fsm = .reset) (frameCnt : t.frameCnt = s.frameCnt)
      (caps : CapsKept s t) (evt : ∃ k hv pv pp u, t.evt = some (buildEvent k hv pv pp u) ∧
        u.evm.cnt = s.evm.cnt + 1 ∧ (k = .frameComplete → t.hdr.nsym = 0)) : PushOutcome s t ⟨false, true, true⟩
  | payloadEnded (hf : s.fsm = .rxpayload) (last : s.symCnt + 1 = s.hdr.nsym) (timer : s.str.timer.toInt ≤ 0)
      (after : t.fsm = .reset) (frameCnt : t.frameCnt = s.frameCnt) (caps : CapsKept s t) (hdr : t.hdr = s.hdr)
      (evt : ∃ hv pv pp u, t.evt = some (buildEvent .frameComplete hv pv pp u) ∧ u.evm.cnt = s.evm.cnt + 1) :
      PushOutcome s t ⟨false, true, true⟩

/-- A sample in DETECT (R247). -/
theorem pushSample_outcome_of_detect (P : Params) (x : Smp) {s : State} (hf : s.fsm = .detect) :
    PushOutcome s (pushSample P x s).1 (pushSample P x s).2 := by
  obtain ⟨hsq, hsqf⟩ := squelchUpdate_quiet (agcTrack x s)
  obtain ⟨hdet, hdetf⟩ := detectorStep_quiet P x (squelchUpdate (agcTrack x s))
  have hfsm := (hdetf.trans hsqf).trans hf
  have hq : Quiet s (detectorStep P x (squelchUpdate (agcTrack x s))).1 :=
    ⟨hdet.evt.trans hsq.evt, hdet.frameCnt.trans hsq.frameCnt, hdet.cap.trans hsq.cap⟩
  rw [pushSample_detect P x hf]
  obtain ⟨-, e⟩ | ⟨-, -, e⟩ | ⟨-, -, e⟩ := detectSample_cases P x (agcTrack x s) <;> rw [e]
  · exact .searching (.inl hf) (hsqf.trans hf) ⟨hsq.evt, hsq.frameCnt, hsq.cap⟩
  · exact .searching (.inl hf) hfsm hq
  · exact .detected hf (by simp) ((onDetect_evt _).trans hq.evt)
      ((onDetect_frameCnt _).trans (congrArg (· + 1) hq.frameCnt)) ((onDetect_cap _).trans hq.cap)

/-- A sample in RESET, which cannot be a detection (R261, R168). -/
theorem pushSample_outcome_of_reset (P : Params) (x : Smp) {s : State} (hf : s.fsm = .reset) :
    PushOutcome s (pushSample P x s).1 (pushSample P x s).2 := by
  obtain ⟨hflags, w, d, hstate⟩ := detectSample_of_seek (P := P) (x := x) (s := agcTrack x (toDetect (acqReset s))) rfl
  obtain ⟨hsq, hfsm⟩ := squelchUpdate_quiet (agcTrack x (toDetect (acqReset s)))
  rw [pushSample_reset P x hf, hflags, hstate]
  exact .searching (.inr hf) hfsm ⟨hsq.evt, hsq.frameCnt, hsq.cap⟩

/-- Header completion ends the frame with its event, or opens the payload (R253). -/
theorem headerComplete_ends_or_opens (P : Params) (s : State) : let r := headerComplete P s
    CapsKept s r.1 ∧ r.1.frameCnt = s.frameCnt ∧
    ((r.2 = true ∧ r.1.fsm = .reset ∧ ∃ k hv pv pp u, r.1.evt = some (buildEvent k hv pv pp u) ∧ u.evm = s.evm ∧
        (k = .frameComplete → r.1.hdr.nsym = 0)) ∨
      (r.2 = false ∧ r.1.fsm = .rxpayload ∧ r.1.evt = s.evt)) := by
  have hgrow := capsKept_grow (setHdr (sizeFrame P (parsed P s)) (withHeader P s))
  obtain ⟨-, e⟩ | ⟨-, -, e⟩ | ⟨-, -, -, e⟩ | ⟨-, -, -, hn, e⟩ | ⟨-, -, -, -, e⟩ := headerComplete_cases P s <;> rw [e]
  · exact ⟨capsKept_of_cap_eq rfl, rfl, .inl ⟨rfl, rfl, _, _, _, _, _, rfl, rfl, nofun⟩⟩
  · exact ⟨capsKept_of_cap_eq rfl, rfl, .inl ⟨rfl, rfl, _, _, _, _, _, rfl, rfl, nofun⟩⟩
  · exact ⟨capsKept_of_cap_eq rfl, rfl, .inl ⟨rfl, rfl, _, _, _, _, _, rfl, rfl, nofun⟩⟩
  · rw [payloadComplete_eq]
    exact ⟨⟨hgrow.sym, hgrow.enc, hgrow.dec⟩, rfl, .inl ⟨rfl, rfl, _, _, _, _, _, rfl, rfl, fun _ => hn⟩⟩
  · exact ⟨⟨hgrow.sym, hgrow.enc, hgrow.dec⟩, rfl, .inr ⟨rfl, rfl, rfl⟩⟩

section
variable (P : Params) (x : Smp) (s : State)

@[simp] theorem strobeOf_evt : (strobeOf P x s).1.evt = s.evt := by
  obtain ⟨n, l, r, h⟩ := strobeOf_frame P x s
  rw [h]

@[simp] theorem strobeOf_evm : (strobeOf P x s).1.evm = s.evm := by
  obtain ⟨n, l, r, h⟩ := strobeOf_frame P x s
  rw [h]

@[simp] theorem strobeOf_frameCnt : (strobeOf P x s).1.frameCnt = s.frameCnt := by
  obtain ⟨n, l, r, h⟩ := strobeOf_frame P x s
  rw [h]

@[simp] theorem strobeOf_cap : (strobeOf P x s).1.cap = s.cap := by
  obtain ⟨n, l, r, h⟩ := strobeOf_frame P x s
  rw [h]

variable {s}

/-- A strobe in RXHEADER (R251, R253). -/
theorem pushSample_outcome_of_rxheader (hf : s.fsm = .rxheader) (ht : s.str.timer.toInt ≤ 0) :
    PushOutcome s (pushSample P x s).1 (pushSample P x s).2 := by
  by_cases hlast : (s.symCnt + 1).toNat = cfgHdrSyms s.cfg
  · obtain ⟨u, hu⟩ : ∃ u, u = storeHdrSym (P.modem (cfgHdrScheme s.cfg) (cfgHdrBps s.cfg) (strobeOf P x s).2).sym
      (demodded (P.modem (cfgHdrScheme s.cfg) (cfgHdrBps s.cfg) (strobeOf P x s).2) (strobeOf P x s).1) := ⟨_, rfl⟩
    have hpush : pushSample P x s = ((headerComplete P u).1, ⟨false, true, (headerComplete P u).2⟩) := by
      rw [pushSample_lastHeader P x s hf ht hlast, hu]
    have hcap : u.cap = s.cap := by simp [hu]
    have hevt : u.evt = s.evt := by simp [hu]
    have hcnt : u.frameCnt = s.frameCnt := by simp [hu]
    have hevm : u.evm.cnt = s.evm.cnt + 1 := by
      rw [hu, ← strobeOf_evm P x s]
      rfl
    obtain ⟨hcaps, hframes, hends⟩ := headerComplete_ends_or_opens P u
    have hcaps : CapsKept s (headerComplete P u).1 := by
      constructor <;> rw [← hcap]
      exacts [hcaps.sym, hcaps.enc, hcaps.dec]
    rw [hpush]
    obtain ⟨hr, hafter, k, hv, pv, pp, v, hemit, hvevm, hkind⟩ | ⟨hr, hafter, hquiet⟩ := hends <;> rw [hr]
    · refine .headerEnded hf hlast ht hafter (hframes.trans hcnt) hcaps ⟨k, hv, pv, pp, v, hemit, ?_, hkind⟩
      rw [hvevm, hevm]
    · exact .opened hf ht hafter (hquiet.trans hevt) (hframes.trans hcnt) hcaps
  · rw [pushSample_header P x s hf ht hlast]
    exact .symbol (.inl hf) ht (by simp) ⟨by simp, by simp, by simp⟩

/-- A strobe in RXPAYLOAD (R251, R262). -/
theorem pushSample_outcome_of_rxpayload (hf : s.fsm = .rxpayload) (ht : s.str.timer.toInt ≤ 0) :
    PushOutcome s (pushSample P x s).1 (pushSample P x s).2 := by
  by_cases hlast : s.symCnt + 1 = s.hdr.nsym
  · rw [pushSample_lastPayload P x s hf ht hlast, payloadComplete_eq]
    refine .payloadEnded hf hlast ht rfl (by simp) (capsKept_of_cap_eq (by simp)) (by simp) ⟨_, _, _, _, rfl, ?_⟩
    rw [← strobeOf_evm P x s]
    rfl
  · rw [pushSample_payload P x s hf ht hlast]
    exact .symbol (.inr hf) ht (by simp) ⟨by simp, by simp, by simp⟩

/-- Every accepted PUSH has one of these outcomes. -/
theorem pushSample_outcome (s : State) : PushOutcome s (pushSample P x s).1 (pushSample P x s).2 := by
  have hbetween (hf : s.fsm = .rxheader ∨ s.fsm = .rxpayload) (ht : 0 < s.str.timer.toInt) :
      PushOutcome s (pushSample P x s).1 (pushSample P x s).2 := by
    rw [pushSample_countdown P x hf ht]
    exact .between hf ht (by simp) ⟨by simp, by simp, by simp⟩
  cases hf : s.fsm with
  | detect => exact pushSample_outcome_of_detect P x hf
  | reset => exact pushSample_outcome_of_reset P x hf
  | rxheader =>
    rcases lt_or_ge 0 s.str.timer.toInt with ht | ht
    · exact hbetween (.inl hf) ht
    · exact pushSample_outcome_of_rxheader P x hf ht
  | rxpayload =>
    rcases lt_or_ge 0 s.str.timer.toInt with ht | ht
    · exact hbetween (.inr hf) ht
    · exact pushSample_outcome_of_rxpayload P x hf ht

end

end Sys2Proof.Machine
end

section
/-! What follows from the outcomes of a PUSH: the frame machine, the report, the capacities, the symbol count and the
first strobe. -/

namespace Sys2Proof.Machine

theorem PushOutcome.capsKept {s t : State} {f : PushFlags} (h : PushOutcome s t f) : CapsKept s t := by
  cases h with
  | searching _ _ quiet | between _ _ _ quiet | symbol _ _ _ quiet => exact capsKept_of_cap_eq quiet.cap
  | detected _ _ _ _ cap => exact capsKept_of_cap_eq cap
  | opened _ _ _ _ _ caps | headerEnded _ _ _ _ _ caps | payloadEnded _ _ _ _ _ caps => exact caps

/-- Settles O15: of the actions, only that of PUSH writes a capacity, by `grow`. -/
theorem capacitiesNeverShrink : Obligations.CapacitiesNeverShrink := by
  intro i s t h hdstr hinit
  have hcaps : CapsKept s t := by
    refine exec_keeps (CapsKept s) h (capsKept_of_cap_eq rfl) (fun _ => ?_) (fun hi => absurd hi hinit)
      (fun _ _ _ hu => ⟨hu.sym, hu.enc, hu.dec⟩)
    cases i with
    | init => exact absurd rfl hinit
    | dstr => exact absurd rfl hdstr
    | push re im => exact (pushSample_outcome build (smpOf re im) s).capsKept
    | wrcfg addr data =>
      simp only [action, putCfg]
      split <;> exact capsKept_of_cap_eq rfl
    | _ => exact capsKept_of_cap_eq rfl
  exact ⟨hcaps.sym, hcaps.enc, hcaps.dec⟩

/-- What a PUSH can do to the frame machine (R246). -/
theorem PushOutcome.transition {s t : State} {f : PushFlags} (h : PushOutcome s t f) :
    (s.fsm = .detect → t.fsm = .detect ∨ t.fsm = .rxheader) ∧
    (s.fsm = .rxheader → t.fsm = .rxheader ∨ t.fsm = .rxpayload ∨ t.fsm = .reset) ∧
    (s.fsm = .rxpayload → t.fsm = .rxpayload ∨ t.fsm = .reset) ∧ (s.fsm = .reset → t.fsm = .detect) := by
  cases h with
  | searching hf after => rcases hf with hf | hf <;> simp [hf, after]
  | between hf _ after | symbol hf _ after => rcases hf with hf | hf <;> simp [hf, after]
  | detected hf after => simp [hf, after]
  | opened hf _ after => simp [hf, after]
  | headerEnded hf _ _ after => simp [hf, after]
  | payloadEnded hf _ _ after => simp [hf, after]

/-- Settles O47: the actions of INIT, SRST and DSTR go to DETECT, and only PUSH has another that writes `fsm`. -/
theorem frameMachineTransitions : Obligations.FrameMachineTransitions := by
  intro i s t h
  refine ⟨fun hne => ?any, ?push⟩
  case any =>
    refine exec_keeps (fun u => u.fsm ≠ s.fsm → (i = .init ∨ i = .srst ∨ i = .dstr) ∧ u.fsm = .detect ∨
      (∃ re im, i = .push re im) ∧ s.status = .run) h (fun hself => absurd rfl hself) (fun hst => ?act)
      (fun _ _ hself => absurd rfl hself) (fun _ _ _ hu => hu) hne
    intro hact
    cases i with
    | init => exact .inl ⟨.inl rfl, rfl⟩
    | srst => exact .inl ⟨.inr (.inl rfl), rfl⟩
    | dstr => exact .inl ⟨.inr (.inr rfl), rfl⟩
    | push re im => exact .inr ⟨⟨re, im, rfl⟩, by simpa [statusAccepts] using hst⟩
    | wrcfg addr data =>
      simp only [action, putCfg] at hact
      split at hact <;> exact absurd rfl hact
    | _ => exact absurd rfl hact
  case push =>
    rintro ⟨re, im, rfl⟩ hrun
    rw [exec_push re im hrun] at h
    cases h
    exact (pushSample_outcome build ⟨re, im⟩ s).transition

/-! ### The report -/

theorem pushData_toNat (f : PushFlags) (q : Fsm) : (pushData f q).toNat =
    (fsmCode q).toNat * 8 + f.evt.toNat * 4 + f.strobe.toNat * 2 + f.det.toNat := by
  simp only [pushData, append_toNat, BitVec.toNat_ofBool, BitVec.toNat_ofNat, Nat.zero_mod]
  ring

/-- The places of the flags and of `fsm` in the data of a PUSH response (R100). -/
theorem pushData_fields (f : PushFlags) (q : Fsm) : (pushData f q).getLsbD 0 = f.det ∧
    (pushData f q).getLsbD 1 = f.strobe ∧ (pushData f q).getLsbD 2 = f.evt ∧
    (pushData f q).extractLsb' 3 2 = fsmCode q ∧ (pushData f q).extractLsb' 5 27 = 0 := by
  have hval := pushData_toNat f q
  have hdet := f.det.toNat_le
  have hstrobe := f.strobe.toNat_le
  have hevt := f.evt.toNat_le
  have hcode := (fsmCode q).isLt
  refine ⟨getLsbD_of_toNat ?_, getLsbD_of_toNat ?_, getLsbD_of_toNat ?_, extractLsb'_of_toNat ?_,
    extractLsb'_of_toNat ?zeros⟩
  case zeros =>
    show _ = 0
    omega
  all_goals omega

/-- A strobe is reported exactly in a frame whose sample timer has run out (R226, R245). -/
theorem PushOutcome.strobe_iff {s t : State} {f : PushFlags} (h : PushOutcome s t f) :
    f.strobe = true ↔ (s.fsm = .rxheader ∨ s.fsm = .rxpayload) ∧ s.str.timer.toInt ≤ 0 := by
  cases h with
  | searching hf => rcases hf with hf | hf <;> simp [hf]
  | detected hf => simp [hf]
  | between hf timer => simp [not_le.2 timer]
  | symbol hf timer => simp [hf, timer]
  | opened hf timer => simp [hf, timer]
  | headerEnded hf _ timer => simp [hf, timer]
  | payloadEnded hf _ timer => simp [hf, timer]

/-- What the flags of a PUSH say of the event port, the frame count and `fsm` (R245, R332). -/
theorem PushOutcome.report {s t : State} {f : PushFlags} (h : PushOutcome s t f) (hevt : s.evt = none) :
    ¬(f.det = true ∧ f.strobe = true) ∧ (f.evt = true → f.strobe = true ∧ t.fsm = .reset) ∧ t.evt.isSome = f.evt ∧
    (f.det = true → s.fsm = .detect ∧ t.fsm = .rxheader ∧ t.frameCnt = s.frameCnt + 1) ∧
    (f.det = false → t.frameCnt = s.frameCnt) := by
  cases h with
  | searching _ _ quiet => simp [quiet.evt, quiet.frameCnt, hevt]
  | between _ _ _ quiet => simp [quiet.evt, quiet.frameCnt, hevt]
  | symbol _ _ _ quiet => simp [quiet.evt, quiet.frameCnt, hevt]
  | detected hf after evt frameCnt => simp [hf, after, evt, frameCnt, hevt]
  | opened _ _ _ evt frameCnt => simp [evt, frameCnt, hevt]
  | headerEnded _ _ _ after frameCnt _ evt =>
    obtain ⟨k, hv, pv, pp, u, hemit, -⟩ := evt
    simp [after, frameCnt, hemit]
  | payloadEnded _ _ _ after frameCnt _ _ evt =>
    obtain ⟨hv, pv, pp, u, hemit, -⟩ := evt
    simp [after, frameCnt, hemit]

/-- Settles O48: the report of each outcome. -/
theorem pushReportsWhatHappened : Obligations.PushReportsWhatHappened := by
  refine ⟨pushData_fields, fun re im s hrun hevt => ?_⟩
  have houtcome := pushSample_outcome build ⟨re, im⟩ s
  obtain ⟨honce, hends, hport, hdet, hnone⟩ := houtcome.report hevt
  exact ⟨_, _, exec_push re im hrun, rfl, honce, hends, hport, hdet, hnone, houtcome.strobe_iff⟩

/-! ### The symbol count -/

theorem kindBits_eq_zero {k : EventKind} : kindBits k = 0 ↔ k = .frameComplete := by
  cases k <;> decide

/-- The symbol count of the record a PUSH emits: the counters agree with the symbols stored (R57, R305). -/
theorem PushOutcome.eventCount {P : Params} {s t : State} {f : PushFlags} (h : PushOutcome s t f) (hs : Sound P s)
    (hrun : s.status = .run) (hevt : s.evt = none) {e : Event} (he : t.evt = some e) : e.w3.extractLsb' 0 32 =
      BitVec.ofNat 32 (cfgHdrSyms s.cfg) + (if e.w0.extractLsb' 0 4 = 0 then t.hdr.nsym else 0) := by
  have hnone (hsame : t.evt = s.evt) : False := nomatch he.symm.trans (hsame.trans hevt)
  cases h with
  | searching _ _ quiet => exact (hnone quiet.evt).elim
  | between _ _ _ quiet => exact (hnone quiet.evt).elim
  | symbol _ _ _ quiet => exact (hnone quiet.evt).elim
  | detected _ _ evt => exact (hnone evt).elim
  | opened _ _ _ evt => exact (hnone evt).elim
  | headerEnded hf last _ _ _ _ evt =>
    obtain ⟨k, hv, pv, pp, u, hemit, hcnt, hkind⟩ := evt
    obtain rfl := Option.some.inj (he.symm.trans hemit)
    obtain ⟨hw0, -, -, -, -, -, -, -, -, -, hw3, -⟩ := eventRecordFields k hv pv pp u
    have hcount : s.symCnt + 1 = BitVec.ofNat 32 (cfgHdrSyms s.cfg) :=
      BitVec.eq_of_toNat_eq (last.trans (toNat_ofNat_of_lt ((cfgHdrSyms_lt s.cfg).trans (by norm_num))).symm)
    have hextra : (if kindBits k = 0 then t.hdr.nsym else 0) = 0 := by
      split
      case isTrue hzero => exact hkind (kindBits_eq_zero.1 hzero)
      case isFalse => rfl
    rw [hw3, hw0, hextra, hcnt, ((hs.run hrun).headerCnt hf).2, hcount]
    exact (BitVec.add_zero _).symm
  | payloadEnded hf last _ _ _ _ hdr evt =>
    obtain ⟨hv, pv, pp, u, hemit, hcnt⟩ := evt
    obtain rfl := Option.some.inj (he.symm.trans hemit)
    obtain ⟨hw0, -, -, -, -, -, -, -, -, -, hw3, -⟩ := eventRecordFields .frameComplete hv pv pp u
    rw [hw3, hw0, if_pos (kindBits_eq_zero.2 rfl), hcnt, ((hs.run hrun).payloadCnt hf).2, BitVec.add_assoc, last, hdr]

/-- Settles O50: every outcome that emits is the completion of a header or of a payload. -/
theorem eventCountsItsSymbols : Obligations.EventCountsItsSymbols := by
  intro P x s e _ hs hrun hevt t hemit
  have ht : t = respond .ok (pushData (pushSample P x s).2 (pushSample P x s).1.fsm) (pushSample P x s).1 := by
    simp only [t, pushWith, running, hrun, beq_self_eq_true, if_true]
  rw [ht] at hemit ⊢
  exact (pushSample_outcome P x s).eventCount hs hrun hevt hemit

/-! ### The first strobe -/

/-- Settles O49: before the timer has run out, each sample only counts it down. -/
theorem firstStrobeWhenTheTimerEnds : Obligations.FirstStrobeWhenTheTimerEnds := by
  intro P xs x s hf hlen
  induction xs generalizing s with
  | nil =>
    have hstrobe := (pushSample_outcome P x s).strobe_iff
    simp only [hf, true_and] at hstrobe
    exact Bool.eq_iff_iff.2 (hstrobe.trans decide_eq_true_iff.symm)
  | cons y ys ih =>
    have hpos : 0 < s.str.timer.toInt := by
      simp only [List.length_cons] at hlen
      omega
    have htimer : (pushSample P y s).1.str.timer.toInt = s.str.timer.toInt - 1 := by
      rw [pushSample_countdown P y hf hpos]
      exact timerTick_timer (s := dlPush (timingInput P y s) (ncoAdvance (agcTrack y s))) hpos
    have hfsm : (pushSample P y s).1.fsm = s.fsm := by
      rw [pushSample_countdown P y hf hpos]
      simp
    have hnext := ih (pushSample P y s).1 (by rwa [hfsm]) (by
      rw [htimer]
      simp only [List.length_cons] at hlen
      omega)
    rw [pushAll, hnext, htimer]
    simp only [List.length_cons, Nat.cast_add, Nat.cast_one, sub_le_iff_le_add]

end Sys2Proof.Machine
end

section
/-! The build's `SINCOS` and `ARG` meet their contracts (R16, R17). -/

namespace Sys2Proof.Machine

theorem qwTable_le : ∀ v ∈ qwTable, v ≤ 65536 := by decide +kernel

theorem qw_mem (j : Nat) : 0 ≤ qw j ∧ qw j ≤ 65536 := by
  have hle : qwTable.getD j 0 ≤ 65536 := by
    rw [List.getD_eq_getElem?_getD]
    cases h : qwTable[j]? with
    | none => exact Nat.zero_le _
    | some v => exact qwTable_le v (List.mem_of_getElem? h)
  exact ⟨Int.natCast_nonneg _, Int.ofNat_le.2 hle⟩

/-- A lane of `SINCOS` holds every value between minus and plus 1.0 exactly (R16). -/
theorem trig_natAbs_le {v : Int} (h0 : -65536 ≤ v) (h1 : v ≤ 65536) : (BitVec.ofInt 18 v).toInt.natAbs ≤ 65536 := by
  rw [toInt_ofInt_of_range (by omega) (by omega) (by norm_num)]
  omega

/-- In every quadrant the lanes are table values, with a sign. -/
theorem sincosDefault_natAbs_le (theta : BitVec 32) :
    (sincosDefault theta).1.toInt.natAbs ≤ 65536 ∧ (sincosDefault theta).2.toInt.natAbs ≤ 65536 := by
  have hr := qw_mem (theta.toNat / 2 ^ 22 % 256)
  have hc := qw_mem (256 - theta.toNat / 2 ^ 22 % 256)
  simp only [sincosDefault]
  split
  all_goals
    simp only
    exact ⟨trig_natAbs_le (by omega) (by omega), trig_natAbs_le (by omega) (by omega)⟩

theorem build_sincosOk : build.SincosOk :=
  ⟨by decide, by decide, by decide, by decide, sincosDefault_natAbs_le⟩

/-- On the axes `ARG` does not run its loop (R17). -/
theorem build_argOk : build.ArgOk := by
  refine ⟨rfl, fun x hx => ?_, fun x hx => ?_, fun y hy => ?_, fun y hy => ?_⟩
  · show argDefault x 0 = 0
    rw [argDefault, if_pos rfl, if_pos hx.le]
  · show argDefault x 0 = _
    rw [argDefault, if_pos rfl, if_neg (not_le.2 hx)]
  · show argDefault 0 y = _
    rw [argDefault, if_neg hy.ne', if_pos rfl, if_pos hy]
  · show argDefault 0 y = _
    rw [argDefault, if_neg hy.ne, if_pos rfl, if_neg (not_lt.2 hy.le)]

/-- Settles O56: the bound of the table and the branches of `ARG` on the axes. -/
theorem trigContractsHold : Obligations.TrigContractsHold :=
  ⟨build_sincosOk, build_argOk⟩

end Sys2Proof.Machine
end
